-- ==== Sys2Proof/Word.lean ====
section
/-! DEFINITION. The word types of the core (00_scope.md R8, R10). Every value is unsigned. -/

namespace Sys2Proof

/-- One LPC symbol: 4 bits, LAD[3] the most significant (R8, R10). -/
abbrev Nibble := BitVec 4

/-- One byte of the I/O bus or of a BT register (R8). -/
abbrev Byte := BitVec 8

/-- An I/O address: 16 bits (R8, R70). -/
abbrev IoAddr := BitVec 16

/-- A firmware byte address: 28 bits (R8, R70). -/
abbrev FwAddr := BitVec 28

/-- A word address of the firmware bus: 26 bits (R70). -/
abbrev FwWordAddr := BitVec 26

/-- Command, response and firmware-bus data: 32 bits (R8). -/
abbrev Word := BitVec 32

end Sys2Proof
end

