-- ==== Sys2Proof/Config.lean ====
section
/-! DEFINITION. What an implementation fixes (the parameters of 00_scope.md R9), what the environment supplies
at an edge (R7, R22, R32, R33, R41, R42), and the one uninterpreted constant of the model. -/

namespace Sys2Proof

/-- Order in which the nibbles of a field are transmitted (R9, R77, R105). -/
inductive NibbleOrder where
  | lsnFirst
  | msnFirst
deriving DecidableEq, Repr, Inhabited

/-- What answers an I/O-bus address: the range of `P_PLATFORM_MAP` (R9). -/
inductive IoTarget where
  /-- the BT target window at this offset -/
  | btT (off : BitVec 2)
  /-- the BT host window at this offset -/
  | btH (off : BitVec 3)
  /-- another I/O slave, by its number -/
  | other (id : Nat)
  /-- no slave -/
  | unmapped
deriving DecidableEq, Repr, Inhabited

/-- `P_STATUS_LAYOUT`: the bit position of each of the six status flags (R9, R36, D22). -/
structure StatusLayout where
  t2bAttn    : Fin 8
  b2tAttn    : Fin 8
  smsAttn    : Fin 8
  platRsvd   : Fin 8
  targetBusy : Fin 8
  bmcBusy    : Fin 8
deriving DecidableEq, Repr, Inhabited

/-- The layout of D22, the default. -/
def StatusLayout.default : StatusLayout :=
  { t2bAttn := 2, b2tAttn := 3, smsAttn := 4, platRsvd := 5, targetBusy := 6, bmcBusy := 7 }

/-- The parameters of R9 that are plain data (all but `P_CLOCK_SCHEDULE`, for which see `ClockSchedule`), and which of the two test slaves of 95_test_vectors.md is attached (log 4, log 14). -/
structure Params where
  /-- `P_BT_DEPTH`: capacity of each BT FIFO -/
  btDepth    : Nat
  /-- `P_CDC_MIN`: least number of consumer edges before a queue entry can be consumed -/
  cdcMin     : Nat
  /-- `P_PLATFORM_MAP` as a finite list: the first pair with the address decides, every other address is unmapped (log 28) -/
  ioMap      : List (IoAddr × IoTarget)
  /-- `P_FW_IDSEL`: `none` is ANY -/
  fwIdsel    : Option Nibble
  /-- `P_ADDR_ORDER` -/
  addrOrder  : NibbleOrder
  /-- `P_WDATA_ORDER` -/
  wdataOrder : NibbleOrder
  /-- `P_RDATA_ORDER` -/
  rdataOrder : NibbleOrder
  /-- `P_FRAME_LEVEL`: the level of `lframe` and `lreset` that the document calls "deasserted" -/
  frameLevel : Bool
  /-- `P_STATUS_LAYOUT` -/
  layout     : StatusLayout
  /-- `P_CLEAR_BIT` -/
  clearBit   : Fin 2
  /-- `P_WRDY_DIP` -/
  wrdyDip    : Bool
  /-- the firmware slave is the test memory FWMEM (false: the environment answers the firmware bus) -/
  fwMem      : Bool
  /-- the I/O slave of this number is the test RAM (none: the environment answers for every other slave) -/
  ioRam      : Option Nat
deriving DecidableEq, Repr, Inhabited

/-- Map M0 (R223): `0x00E4 + o` is the target window at offset o, everything else is unmapped. -/
def mapM0 : List (IoAddr × IoTarget) :=
  [(0x00E4, .btT 0), (0x00E5, .btT 1), (0x00E6, .btT 2), (0x00E7, .btT 3)]

/-- The defaults of R9. DESIGN CHOICE (log 4): the two OPEN parameters take the examples' values,
`P_BT_DEPTH` = 4 and map M0. -/
def Params.default : Params :=
  { btDepth := 4, cdcMin := 1, ioMap := mapM0, fwIdsel := none,
    addrOrder := .lsnFirst, wdataOrder := .msnFirst, rdataOrder := .lsnFirst,
    frameLevel := false, layout := .default, clearBit := 0, wrdyDip := false,
    fwMem := false, ioRam := none }

/-- The inputs of one host edge (R22) and its draws (R7 (4)). -/
structure HostIn where
  /-- the frame line, as a level -/
  lframe  : Bool
  /-- the reset line, as a level -/
  lreset  : Bool
  /-- the LAD symbol -/
  lad     : Nibble
  /-- draw `promote` (R202) for each entry of the response queue, bit i for entry i -/
  promote : BitVec 2
  /-- draw `race` (R210): true is `taken` -/
  race    : Bool
deriving DecidableEq, Repr, Inhabited

/-- The inputs of a BT window port with n address bits (R41). -/
structure Port (n : Nat) where
  stb  : Bool
  we   : Bool
  adr  : BitVec n
  datW : Byte
deriving DecidableEq, Repr, Inhabited

/-- The draw `sc_race` (R246) of each set and clear flag at one edge. -/
structure ScRace where
  t2bAttn  : Bool
  b2tAttn  : Bool
  smsAttn  : Bool
  platRsvd : Bool
deriving DecidableEq, Repr, Inhabited

/-- The inputs of one system edge and its draws. -/
structure SysIn where
  /-- the system-domain reset input (R42) -/
  sysRst  : Bool
  /-- the firmware slave's acknowledge (R33), used when FWMEM is not attached -/
  fwAck   : Bool
  /-- the firmware slave's read data (R33), used when FWMEM is not attached -/
  fwDatR  : Word
  /-- the number of the firmware transaction that this acknowledge answers (R222, R353): the environment's own label, which
  no register ever sees (log 33) -/
  fwAckOf : Nat
  /-- the acknowledge of the selected I/O slave other than the BT (R220) -/
  ioAck   : Bool
  /-- the read data of that slave, and what the read-data bus carries when nobody acknowledges (log 16) -/
  ioDatR  : Byte
  /-- the number of the I/O transaction that this acknowledge answers (R222, R353): the environment's own label, which no
  register ever sees (log 33) -/
  ioAckOf : Nat
  /-- the environment master of the target window (R223), used when the map does not reach that window -/
  tPort   : Port 2
  /-- the environment master of the host window (R223), used when the map does not reach that window -/
  hPort   : Port 3
  /-- draw `promote` (R202) for each entry of the command queue, bit i for entry i -/
  promote : BitVec 2
  /-- draws `sc_race` (R246) -/
  scRace  : ScRace
  /-- draw `wrdy_dip` (R252) of `fifo_t2h`: true drops the byte -/
  dipT2h  : Bool
  /-- draw `wrdy_dip` (R252) of `fifo_h2t`: true drops the byte -/
  dipH2t  : Bool
deriving DecidableEq, Repr, Inhabited

/-- One edge to come: its clock domain, with the inputs sampled and the draws made at it (R7, D17). -/
inductive Tick where
  | host (h : HostIn)
  | sys (i : SysIn)
deriving DecidableEq, Repr, Inhabited

/-! ## The clock schedule (R9 `P_CLOCK_SCHEDULE`, D17) -/

/-- The two clock domains (R6). -/
inductive Domain where
  | host
  | sys
deriving DecidableEq, Repr, Inhabited

/-- The clock that ticks. -/
def Tick.domain : Tick → Domain
  | .host _ => .host
  | .sys _ => .sys

/-- Which clock ticks n-th, in a run. -/
abbrev Interleaving := Nat → Domain

/-- `P_CLOCK_SCHEDULE`: a predicate on interleavings, an argument of `Machine.Run` (R9, R45). -/
abbrev ClockSchedule := Interleaving → Prop

/-- Its default (R7, D17): every fair interleaving, one in which each clock ticks infinitely often. -/
def ClockSchedule.everyFair : ClockSchedule := fun d =>
  ∀ (c : Domain) (n : Nat), ∃ m, n ≤ m ∧ d m = c

/-- Exactly k system edges between consecutive host edges, the first k or fewer of them before the first host edge. -/
def ClockSchedule.fixedRatio (k : Nat) : ClockSchedule := fun d =>
  ∃ phase, ∀ n, d n = if (n + phase) % (k + 1) = 0 then .host else .sys

/-- The reference schedule S4 of 95_test_vectors.md: four system edges between consecutive host edges. -/
def ClockSchedule.s4 : ClockSchedule := ClockSchedule.fixedRatio 4

/-- A schedule admits a finite list of ticks if some interleaving it admits begins with their domains. -/
def ClockSchedule.admits (sched : ClockSchedule) (ts : List Tick) : Prop :=
  ∃ d, sched d ∧ ∀ (n : Nat) (t : Tick), ts[n]? = some t → d n = t.domain

/-- FREE VALUE (log 3): the n-th edge that no script fixes, with its clock domain, inputs and draws. It has no
body: nothing can be proved of it. -/
opaque Config.envTick : Nat → Tick

end Sys2Proof
end

