-- ==== Sys2Proof/Syntax.lean ====
section
/-! DEFINITION. The instructions: one constructor per row of spec/opcode_table.json, and the command record they
turn into (10_state.md R26). -/

namespace Sys2Proof

/-- The operation of a command (R26). -/
inductive Op where
  | ioRead
  | ioWrite
  | fwRead
  | fwWrite
deriving DecidableEq, Repr, Inhabited

/-- A transfer size: 1, 2 or 4 bytes (R8, R26). -/
inductive Size where
  | one
  | two
  | four
deriving DecidableEq, Repr, Inhabited

/-- `WriteCommand`: the record used for reads and for writes alike (R26). -/
structure Command where
  address   : FwAddr
  data      : Word
  operation : Op
  size      : Size
deriving DecidableEq, Repr, Inhabited

/-- Every instruction of the opcode table. -/
inductive Instr where
  -- host-bus transactions (40_psm.md R160 to R167)
  | lpcIoRead (a : IoAddr)
  | lpcIoWrite (a : IoAddr) (d : Byte)
  | lpcFwRead1 (a : FwAddr)
  | lpcFwRead2 (a : FwAddr)
  | lpcFwRead4 (a : FwAddr)
  | lpcFwWrite1 (a : FwAddr) (d : BitVec 8)
  | lpcFwWrite2 (a : FwAddr) (d : BitVec 16)
  | lpcFwWrite4 (a : FwAddr) (d : BitVec 32)
  -- target-window accesses (42_bt.md R260 to R267)
  | tCtrlRd
  | tCtrlWr (w : Byte)
  | tDataRd
  | tDataWr (w : Byte)
  | tIntcfgRd
  | tIntcfgWr (w : Byte)
  | tRsvdRd
  | tRsvdWr (w : Byte)
  -- host-window accesses (42_bt.md R270 to R279); off is the offset of an unlisted register
  | hMaskRd
  | hMaskWr (w : Byte)
  | hStatusRd
  | hStatusWr (w : Byte)
  | hCtrlRd
  | hCtrlWr (w : Byte)
  | hDataRd
  | hDataWr (w : Byte)
  | hRsvdRd (off : BitVec 3)
  | hRsvdWr (off : BitVec 3) (w : Byte)
  -- bridge commands (41_bridge.md R230 to R233)
  | brIoRead (address : FwAddr) (data : Word) (size : Size)
  | brIoWrite (address : FwAddr) (data : Word) (size : Size)
  | brFwRead (address : FwAddr) (data : Word) (size : Size)
  | brFwWrite (address : FwAddr) (data : Word) (size : Size)
deriving DecidableEq, Repr

end Sys2Proof
end

