-- ==== Sys2Proof/Machine/State.lean ====
section
/-! DEFINITION. The state of the machine (10_state.md), its reset value, and the reasons a step can stop. -/

namespace Sys2Proof.Machine

/-- The 13 PSM states (R20). -/
inductive PsmState where
  | start
  | cycleType
  | fwIdsel
  | ioAddr
  | fwAddr
  | fwMsize
  | rdTar1
  | rdSync
  | rdData
  | wrData
  | wrTar1
  | wrSync
  | tar2
deriving DecidableEq, Repr, Inhabited

/-- The PSM registers (R20, R21, R23). -/
structure Psm where
  st     : PsmState
  /-- nibbles or cycles counted within a state -/
  cnt    : BitVec 3
  op     : Op
  size   : Size
  addr   : FwAddr
  data   : Word
  ladOut : Nibble
  ladEn  : Bool
  /-- the `lframe` level of the previous host edge -/
  fprev  : Bool
  /-- the `lreset` level of the previous host edge -/
  rprev  : Bool
deriving DecidableEq, Repr

/-- `ReadResponse` (R27). -/
structure Response where
  data  : Word
  error : Bool
deriving DecidableEq, Repr

/-- A queue entry (R28, R29, R200). -/
structure QEntry (α : Type) where
  payload : α
  /-- visible to the consumer -/
  vis     : Bool
  /-- consumer edges since it was pushed, up to `P_CDC_MIN` -/
  age     : Nat
deriving DecidableEq, Repr

/-- The dispatcher registers (R31). -/
structure Dispatcher where
  /-- a downstream transaction is outstanding -/
  busy    : Bool
  /-- its response must be dropped -/
  discard : Bool
  /-- the command being executed -/
  cur     : Command
deriving DecidableEq, Repr

/-- The I/O-bus master outputs (R32). -/
structure IoBus where
  stb  : Bool
  we   : Bool
  adr  : IoAddr
  datW : Byte
  sel  : Bool
deriving DecidableEq, Repr

/-- The firmware-bus master outputs (R33). -/
structure FwBus where
  stb  : Bool
  we   : Bool
  adr  : FwWordAddr
  datW : Word
  sel  : BitVec 4
deriving DecidableEq, Repr

/-- The six BT status flags (R35). -/
structure Flags where
  t2bAttn    : Bool
  b2tAttn    : Bool
  smsAttn    : Bool
  platRsvd   : Bool
  targetBusy : Bool
  bmcBusy    : Bool
deriving DecidableEq, Repr

/-- A window's state (R41). -/
inductive WinState where
  | idle
  | ack
deriving DecidableEq, Repr

/-- A BT window (R41). -/
structure Window where
  st   : WinState
  datR : Byte
deriving DecidableEq, Repr

/-- The BT registers (R35 to R41, R252). -/
structure Bt where
  flags     : Flags
  hMask     : BitVec 2
  hStatus   : BitVec 2
  tEn       : Bool
  tPend     : Bool
  fifoT2h   : List Byte
  fifoH2t   : List Byte
  clrT2h    : Bool
  clrH2t    : Bool
  /-- `fifo_t2h` was pushed at the previous edge (R252, read only with `P_WRDY_DIP`) -/
  pushedT2h : Bool
  /-- `fifo_h2t` was pushed at the previous edge (R252, read only with `P_WRDY_DIP`) -/
  pushedH2t : Bool
  tWin      : Window
  hWin      : Window
deriving DecidableEq, Repr

/-- Memory contents of a test slave: (address, byte), addresses rising, no entry equal to the unlisted value 0 (log 15). -/
abbrev Memory := List Host.Cell

/-- The test slave FWMEM (95_test_vectors.md); not part of the core (log 14). -/
structure FwSlave where
  ack  : Bool
  datR : Word
  mem  : Memory
deriving DecidableEq, Repr

/-- The test slave RAM (95_test_vectors.md RAM3F8); not part of the core (log 14). -/
structure IoSlave where
  ack  : Bool
  datR : Byte
  mem  : Memory
deriving DecidableEq, Repr

/-- The state. -/
structure State where
  /-- the parameters of R9; the model's own field, which no step writes (log 4) -/
  cfg         : Params
  psm         : Psm
  /-- command queue (R28) -/
  cmdq        : List (QEntry Command)
  /-- response queue (R29) -/
  rspq        : List (QEntry Response)
  disp        : Dispatcher
  io          : IoBus
  fw          : FwBus
  /-- the I/O fabric's window register (R34) -/
  ackExpected : Bool
  bt          : Bt
  /-- the firmware strobe was 1 in the previous system cycle too, for the transaction that holds it now: the slave contract's
  own register (R221, R222, log 33), which nothing in the core reads -/
  fwWaited    : Bool
  /-- the number of the latest firmware transaction driven: the slave contract's own counter (R222, R353, log 33), which
  nothing in the core reads -/
  fwDrives    : Nat
  /-- the number of the latest I/O transaction driven: the same counter of the I/O slaves' contract (R222, R353, log 33) -/
  ioDrives    : Nat
  fwSlave     : FwSlave
  ioSlave     : IoSlave
  /-- inputs sampled, and draws made, at the current or last host edge (the model's own field, log 5) -/
  hostIn      : HostIn
  /-- inputs sampled, and draws made, at the current or last system edge (the model's own field, log 5) -/
  sysIn       : SysIn
  /-- the edges to come (the model's own field, log 2) -/
  script      : List Tick
  /-- how many edges were taken from `Config.envTick` (the model's own field, log 3) -/
  freeTicks   : Nat
deriving DecidableEq, Repr

/-- Why the machine stops. -/
inductive Fault where
  /-- raised by the enqueue of a command (R201) at a host edge, into a command queue that holds two entries: the document's
  only "undefined behavior". Safe: the machine stops; R212 says that no run gets there. -/
  | cmdQueueOverflow
  /-- raised by the push of a response (R208) at a system edge, into a response queue that holds two entries. Safe: the
  machine stops; R212 says that no run gets there. -/
  | rspQueueOverflow
deriving DecidableEq, Repr

/-- Why the model has no answer. -/
inductive Refusal where
  /-- an instruction whose meaning is not written yet; safe. No arm uses it. -/
  | notModelled (mnemonic : String)
deriving DecidableEq, Repr

/-- The host inputs before the first host edge (DESIGN CHOICE, log 5). -/
def HostIn.quiet : HostIn := { lframe := true, lreset := true, lad := 0b1111, promote := 0, race := false }

/-- The system inputs before the first system edge (DESIGN CHOICE, log 5). -/
def SysIn.quiet : SysIn :=
  { sysRst := false, fwAck := false, fwDatR := 0, fwAckOf := 0, ioAck := false, ioDatR := 0, ioAckOf := 0,
    tPort := { stb := false, we := false, adr := 0, datW := 0 },
    hPort := { stb := false, we := false, adr := 0, datW := 0 },
    promote := 0,
    scRace := { t2bAttn := false, b2tAttn := false, smsAttn := false, platRsvd := false },
    dipT2h := false, dipH2t := false }

/-- `cur` at reset (R31). -/
def Command.reset : Command := { address := 0, data := 0, operation := .ioRead, size := .one }

/-- The PSM at power-on (R20, R21). `fprev` and `rprev` hold the level that does not frame or reset: 1 for the default
`P_FRAME_LEVEL` (log 19). -/
def Psm.reset (p : Params) : Psm :=
  { st := .start, cnt := 0, op := .ioRead, size := .one, addr := 0, data := 0, ladOut := 0, ladEn := false,
    fprev := !p.frameLevel, rprev := !p.frameLevel }

/-- The dispatcher at reset (R31). -/
def Dispatcher.reset : Dispatcher := { busy := false, discard := false, cur := Command.reset }

/-- The I/O bus at reset (R32). -/
def IoBus.reset : IoBus := { stb := false, we := false, adr := 0, datW := 0, sel := true }

/-- The firmware bus at reset (R33). -/
def FwBus.reset : FwBus := { stb := false, we := false, adr := 0, datW := 0, sel := 0 }

/-- The BT at reset (R35 to R41, R281). -/
def Bt.reset : Bt :=
  { flags := { t2bAttn := false, b2tAttn := false, smsAttn := false, platRsvd := false,
               targetBusy := false, bmcBusy := false },
    hMask := 0, hStatus := 0, tEn := false, tPend := false, fifoT2h := [], fifoH2t := [],
    clrT2h := false, clrH2t := false, pushedT2h := false, pushedH2t := false,
    tWin := { st := .idle, datR := 0 }, hWin := { st := .idle, datR := 0 } }

/-- FWMEM at reset (95_test_vectors.md: words reset to 0). -/
def FwSlave.reset : FwSlave := { ack := false, datR := 0, mem := [] }

/-- The test RAM at reset (95_test_vectors.md: reset 0x00). -/
def IoSlave.reset : IoSlave := { ack := false, datR := 0, mem := [] }

/-- The power-on state of a core with the given parameters (R341). -/
def State.powerOn (p : Params) : State :=
  { cfg := p, psm := Psm.reset p, cmdq := [], rspq := [], disp := Dispatcher.reset, io := IoBus.reset,
    fw := FwBus.reset, ackExpected := false, bt := Bt.reset, fwWaited := false, fwDrives := 0, ioDrives := 0, fwSlave := FwSlave.reset, ioSlave := IoSlave.reset,
    hostIn := HostIn.quiet, sysIn := SysIn.quiet, script := [], freeTicks := 0 }

/-- The machine right after reset (R341), with the parameters' defaults (log 4). -/
def State.reset : State := State.powerOn Params.default

end Sys2Proof.Machine
end

