-- ==== Sys2Proof/Machine/Flags.lean ====
section
/-! DEFINITION. Flag computations: the framing levels and the queue reset condition of the host domain (40_psm.md R140 to
R142), and the BT's status byte, control bits, interrupt events, pending bits and outputs (42_bt.md R244 to R251). -/

namespace Sys2Proof.Machine

/-! ## Host domain -/

/-- The sampled frame line is at its framing level (R22, R141; `P_FRAME_LEVEL`). -/
def framing (p : Params) (h : HostIn) : Bool := h.lframe == p.frameLevel

/-- The sampled reset line is at its resetting level (R22, R140; `P_FRAME_LEVEL`). -/
def resetting (p : Params) (h : HostIn) : Bool := h.lreset == p.frameLevel

/-- `qrst` (R142): the frame or the reset line is at its active level at this host edge, or was at the previous one. -/
def queueResetDue (p : Params) (h : HostIn) (m : Psm) : Bool :=
  framing p h || m.fprev == p.frameLevel || resetting p h || m.rprev == p.frameLevel

/-! ## BT status byte and control bits -/

/-- A flag at a bit position. -/
def flagAt (pos : Fin 8) (f : Bool) : Byte := (BitVec.ofBool f).setWidth 8 <<< pos.val

/-- The status byte (R245): the six flags at the positions of `P_STATUS_LAYOUT`, the other two bits 0. -/
def statusByte (l : StatusLayout) (f : Flags) : Byte :=
  flagAt l.t2bAttn f.t2bAttn ||| flagAt l.b2tAttn f.b2tAttn ||| flagAt l.smsAttn f.smsAttn |||
    flagAt l.platRsvd f.platRsvd ||| flagAt l.targetBusy f.targetBusy ||| flagAt l.bmcBusy f.bmcBusy

/-- The next value of a set and clear flag (R246): a set and a clear at one edge take the draw `sc_race`. -/
def setClear (f set clear draw : Bool) : Bool :=
  if set && clear then draw else if set then true else if clear then false else f

/-- The next value of the flags (R246), from the bytes of the control writes of this edge; an absent write counts as 0. -/
def nextFlags (l : StatusLayout) (race : ScRace) (wT wH : Byte) (f : Flags) : Flags :=
  { t2bAttn    := setClear f.t2bAttn (wT.getLsbD l.t2bAttn.val) (wH.getLsbD l.t2bAttn.val) race.t2bAttn
    b2tAttn    := setClear f.b2tAttn (wH.getLsbD l.b2tAttn.val) (wT.getLsbD l.b2tAttn.val) race.b2tAttn
    smsAttn    := setClear f.smsAttn (wH.getLsbD l.smsAttn.val) (wT.getLsbD l.smsAttn.val) race.smsAttn
    platRsvd   := setClear f.platRsvd (wT.getLsbD l.platRsvd.val) (wH.getLsbD l.platRsvd.val) race.platRsvd
    targetBusy := Bool.xor f.targetBusy (wT.getLsbD l.targetBusy.val)
    bmcBusy    := Bool.xor f.bmcBusy (wH.getLsbD l.bmcBusy.val) }

/-! ## Interrupt events, pending bits and outputs -/

/-- `ev_h0` (R247): `target_to_bmc_attn` 0 → 1. -/
def eventH0 (f g : Flags) : Bool := !f.t2bAttn && g.t2bAttn

/-- `ev_h1` (R247): `target_busy` 1 → 0. -/
def eventH1 (f g : Flags) : Bool := f.targetBusy && !g.targetBusy

/-- `ev_t` (R247): `bmc_to_target_attn` 0 → 1 or `sms_attn` 0 → 1. -/
def eventT (f g : Flags) : Bool := (!f.b2tAttn && g.b2tAttn) || (!f.smsAttn && g.smsAttn)

/-- The two low bits of a register write, or the old value if there is no write at this edge (R248). -/
def writeLow2 (w : Option Byte) (old : BitVec 2) : BitVec 2 :=
  match w with
  | none => old
  | some b => b.extractLsb' 0 2

/-- Next `h_status` (R248): the direct write, then this edge's events gated by the mask before the edge. -/
def nextHostStatus (status mask : BitVec 2) (w : Option Byte) (ev0 ev1 : Bool) : BitVec 2 :=
  writeLow2 w status ||| (BitVec.ofBool (ev1 && mask.getLsbD 1) ++ BitVec.ofBool (ev0 && mask.getLsbD 0))

/-- Next `t_pend` (R249): cleared by a write of bit 1, then this edge's event gated by the enable before the edge. -/
def nextTargetPending (pend en : Bool) (w : Option Byte) (ev : Bool) : Bool :=
  (match w with
    | none => pend
    | some b => if b.getLsbD 1 then false else pend) || (ev && en)

/-- Next `t_en` (R249): bit 0 of the write. -/
def nextTargetEnable (en : Bool) (w : Option Byte) : Bool :=
  match w with
  | none => en
  | some b => b.getLsbD 0

/-- `host_irq` (R250). -/
def hostIrq (b : Bt) : Bool := (b.hMask &&& b.hStatus) != 0

/-- `target_irq` (R251). -/
def targetIrq (b : Bt) : Bool := b.tEn && b.tPend

/-- The read value of the interrupt-configuration register: `t_pend` in bit 1 and `t_en` in bit 0 (R118, R264). -/
def intcfgByte (b : Bt) : Byte := flagAt 1 b.tPend ||| flagAt 0 b.tEn

end Sys2Proof.Machine
end

