-- ==== Sys2Proof/WellFormed.lean ====
section
/-! DEFINITION. Which terms are instructions that the encodings can carry, and which parameter values R9 admits. -/

namespace Sys2Proof

/-- The host-window offsets of the rows H_RSVD_RD and H_RSVD_WR: 2, 3, 6 and 7, those with bit 1 set (R121, R278). -/
def hostOffsetUnlisted (off : BitVec 3) : Bool := off.getLsbD 1

/-- An instruction is well formed when its operands are ones its row covers. The fields' types bound every other operand. -/
def Instr.wf : Instr → Bool
  | .hRsvdRd off => hostOffsetUnlisted off
  | .hRsvdWr off _ => hostOffsetUnlisted off
  | .lpcIoRead _ => true
  | .lpcIoWrite _ _ => true
  | .lpcFwRead1 _ => true
  | .lpcFwRead2 _ => true
  | .lpcFwRead4 _ => true
  | .lpcFwWrite1 _ _ => true
  | .lpcFwWrite2 _ _ => true
  | .lpcFwWrite4 _ _ => true
  | .tCtrlRd => true
  | .tCtrlWr _ => true
  | .tDataRd => true
  | .tDataWr _ => true
  | .tIntcfgRd => true
  | .tIntcfgWr _ => true
  | .tRsvdRd => true
  | .tRsvdWr _ => true
  | .hMaskRd => true
  | .hMaskWr _ => true
  | .hStatusRd => true
  | .hStatusWr _ => true
  | .hCtrlRd => true
  | .hCtrlWr _ => true
  | .hDataRd => true
  | .hDataWr _ => true
  | .brIoRead _ _ _ => true
  | .brIoWrite _ _ _ => true
  | .brFwRead _ _ _ => true
  | .brFwWrite _ _ _ => true

/-- The six positions of a status layout. -/
def StatusLayout.positions (l : StatusLayout) : List (Fin 8) :=
  [l.t2bAttn, l.b2tAttn, l.smsAttn, l.platRsvd, l.targetBusy, l.bmcBusy]

/-- `P_STATUS_LAYOUT` is a permutation of bits 7 to 2 (R9). -/
def StatusLayout.wf (l : StatusLayout) : Bool :=
  l.positions.all (fun p => decide (2 ≤ p.val)) && decide l.positions.Nodup

/-- The parameter values R9 admits: `P_BT_DEPTH` ≥ 1, `P_CDC_MIN` ≥ 1, a permuted status layout. -/
def Params.wf (p : Params) : Bool :=
  decide (1 ≤ p.btDepth) && decide (1 ≤ p.cdcMin) && p.layout.wf

end Sys2Proof
end

