-- ==== Sys2Proof/Decode.lean ====
section
/-! DEFINITION. Decoding and encoding (30_encoding.md). The core has four decode points, each with a key space of its
own: the host bus (a stream of symbols, R108, R109), the two BT windows (R115) and the dispatcher (R123). -/

namespace Sys2Proof

/-! ## Nibble fields -/

/-- The number whose nibbles, least significant first, are those of the list. -/
def ofNibblesLsn : List Nibble → Nat
  | [] => 0
  | n :: ns => n.toNat + 16 * ofNibblesLsn ns

/-- The k low nibbles of v, least significant first. -/
def nibblesLsn : Nat → Nat → List Nibble
  | 0, _ => []
  | k + 1, v => BitVec.ofNat 4 v :: nibblesLsn k (v / 16)

/-- The value of a field whose nibbles came in the given order (R105). -/
def ofNibbles (o : NibbleOrder) (ns : List Nibble) : Nat :=
  match o with
  | .lsnFirst => ofNibblesLsn ns
  | .msnFirst => ofNibblesLsn ns.reverse

/-- The k nibbles of a field in the order of transmission (R105). -/
def toNibbles (o : NibbleOrder) (k v : Nat) : List Nibble :=
  match o with
  | .lsnFirst => nibblesLsn k v
  | .msnFirst => (nibblesLsn k v).reverse

/-! ## Sizes -/

/-- A size in bytes (R26). -/
def Size.bytes : Size → Nat
  | .one => 1
  | .two => 2
  | .four => 4

/-- The MSIZE symbol of a size (R103). -/
def Size.msize : Size → Nibble
  | .one => 0b0000
  | .two => 0b0001
  | .four => 0b0010

/-- The size an MSIZE symbol names; every other symbol aborts (R103). -/
def Size.ofMsize (m : Nibble) : Option Size :=
  if m = 0b0000 then some .one
  else if m = 0b0001 then some .two
  else if m = 0b0010 then some .four
  else none

/-- The spec's own size coding of the BRIDGE-CMD rows (R123). -/
def Size.code : Size → BitVec 2
  | .one => 0
  | .two => 1
  | .four => 2

/-- The size of a BRIDGE-CMD size code; code 3 is none. -/
def Size.ofCode (c : BitVec 2) : Option Size :=
  if c = 0 then some .one
  else if c = 1 then some .two
  else if c = 2 then some .four
  else none

/-! ## The host bus: symbol streams -/

/-- Why a decode point refuses what it is given. -/
inductive DecodeError where
  /-- the stream ends before the transaction does -/
  | truncated
  /-- a start symbol other than `0000`, `1101` and `1110` (R114 (a), R168) -/
  | illegalStart (start : Nibble)
  /-- a cycle type `01xx` or `1xxx` (R114 (b), R169) -/
  | unsupportedCycleType (ct : Nibble)
  /-- an IDSEL other than `P_FW_IDSEL` (R146) -/
  | idselMismatch (idsel : Nibble)
  /-- an MSIZE other than `0000`, `0001` and `0010` (R114 (c), R170) -/
  | unsupportedMsize (msize : Nibble)
  /-- symbols left over after the transaction's last one -/
  | trailing
  /-- the BRIDGE-CMD size code 3 (R123 gives it no meaning) -/
  | reservedSizeCode
deriving DecidableEq, Repr

/-- The first k symbols and the rest, if there are k. -/
def takeSymbols : Nat → List Nibble → Option (List Nibble × List Nibble)
  | 0, l => some ([], l)
  | _ + 1, [] => none
  | k + 1, x :: xs =>
    match takeSymbols k xs with
    | some (a, r) => some (x :: a, r)
    | none => none

/-- I/O read (true) or I/O write (false), from the cycle-type symbol; bit 0 is ignored (R102). -/
def cycleType (ct : Nibble) : Option Bool :=
  if ct.extractLsb' 1 3 = 0b000 then some true
  else if ct.extractLsb' 1 3 = 0b001 then some false
  else none

/-- The firmware read of a size (R112). -/
def fwReadInstr (s : Size) (a : FwAddr) : Instr :=
  match s with
  | .one => .lpcFwRead1 a
  | .two => .lpcFwRead2 a
  | .four => .lpcFwRead4 a

/-- The firmware write of a size (R113), its data given as a number. -/
def fwWriteInstr (s : Size) (a : FwAddr) (v : Nat) : Instr :=
  match s with
  | .one => .lpcFwWrite1 a (BitVec.ofNat 8 v)
  | .two => .lpcFwWrite2 a (BitVec.ofNat 16 v)
  | .four => .lpcFwWrite4 a (BitVec.ofNat 32 v)

/-- The symbols of an I/O transaction after its start (formats LPC-IO-R and LPC-IO-W, R109). -/
def decodeIo (p : Params) : List Nibble → Except DecodeError (Instr × List Nibble)
  | [] => .error .truncated
  | ct :: l1 =>
    match cycleType ct with
    | none => .error (.unsupportedCycleType ct)
    | some isRead =>
      match takeSymbols 4 l1 with
      | none => .error .truncated
      | some (a, l2) =>
        if isRead then
          match takeSymbols 2 l2 with
          | none => .error .truncated
          | some (_, l3) => .ok (.lpcIoRead (BitVec.ofNat 16 (ofNibbles p.addrOrder a)), l3)
        else
          match takeSymbols 2 l2 with
          | none => .error .truncated
          | some (d, l3) =>
            match takeSymbols 2 l3 with
            | none => .error .truncated
            | some (_, l4) =>
              .ok (.lpcIoWrite (BitVec.ofNat 16 (ofNibbles p.addrOrder a))
                (BitVec.ofNat 8 (ofNibbles p.wdataOrder d)), l4)

/-- The IDSEL symbols a platform accepts (R104, R146). -/
def idselAccepted (p : Params) (i : Nibble) : Bool :=
  match p.fwIdsel with
  | none => true
  | some v => i == v

/-- The symbols of a firmware transaction after its start (formats LPC-FW-R and LPC-FW-W, R109). -/
def decodeFw (p : Params) (isRead : Bool) : List Nibble → Except DecodeError (Instr × List Nibble)
  | [] => .error .truncated
  | i :: l1 =>
    if idselAccepted p i then
      match takeSymbols 7 l1 with
      | none => .error .truncated
      | some (_, []) => .error .truncated
      | some (a, m :: l2) =>
        match Size.ofMsize m with
        | none => .error (.unsupportedMsize m)
        | some s =>
          if isRead then
            match takeSymbols 2 l2 with
            | none => .error .truncated
            | some (_, l3) => .ok (fwReadInstr s (BitVec.ofNat 28 (ofNibbles p.addrOrder a)), l3)
          else
            match takeSymbols (2 * s.bytes) l2 with
            | none => .error .truncated
            | some (d, l3) =>
              match takeSymbols 2 l3 with
              | none => .error .truncated
              | some (_, l4) =>
                .ok (fwWriteInstr s (BitVec.ofNat 28 (ofNibbles p.addrOrder a)) (ofNibbles p.wdataOrder d), l4)
    else .error (.idselMismatch i)

/-- The host-bus decoder: a transaction at the head of a stream of symbols, and the rest of the stream (R101, R108). -/
def decodeLpc (p : Params) : List Nibble → Except DecodeError (Instr × List Nibble)
  | [] => .error .truncated
  | s :: l =>
    if s = 0b0000 then decodeIo p l
    else if s = 0b1101 then decodeFw p true l
    else if s = 0b1110 then decodeFw p false l
    else .error (.illegalStart s)

/-! ## The BT windows: keys -/

/-- The target window's access of a key (`we`, `adr`) and written byte (R115, R120). Every key is an access (R242). -/
def decodeTarget (we : Bool) (adr : BitVec 2) (w : Byte) : Instr :=
  match we, adr.toNat with
  | false, 0 => .tCtrlRd
  | true, 0 => .tCtrlWr w
  | false, 1 => .tDataRd
  | true, 1 => .tDataWr w
  | false, 2 => .tIntcfgRd
  | true, 2 => .tIntcfgWr w
  | false, _ => .tRsvdRd
  | true, _ => .tRsvdWr w

/-- The host window's access of a key (`we`, `adr`) and written byte (R115, R121). Every key is an access (R242). -/
def decodeHost (we : Bool) (adr : BitVec 3) (w : Byte) : Instr :=
  match we, adr.toNat with
  | false, 0 => .hMaskRd
  | true, 0 => .hMaskWr w
  | false, 1 => .hStatusRd
  | true, 1 => .hStatusWr w
  | false, 4 => .hCtrlRd
  | true, 4 => .hCtrlWr w
  | false, 5 => .hDataRd
  | true, 5 => .hDataWr w
  | false, _ => .hRsvdRd adr
  | true, _ => .hRsvdWr adr w

/-! ## The dispatcher: command records -/

/-- The bridge command a command record is dispatched as: the bridge routes on `operation` (R123). -/
def Command.toBridge (c : Command) : Instr :=
  match c.operation with
  | .ioRead => .brIoRead c.address c.data c.size
  | .ioWrite => .brIoWrite c.address c.data c.size
  | .fwRead => .brFwRead c.address c.data c.size
  | .fwWrite => .brFwWrite c.address c.data c.size

/-- The operation of a BRIDGE-CMD code (R123). -/
def Op.ofCode (c : BitVec 2) : Op :=
  match c.toNat with
  | 0 => .ioRead
  | 1 => .ioWrite
  | 2 => .fwRead
  | _ => .fwWrite

/-- The BRIDGE-CMD code of an operation (R123). -/
def Op.code : Op → BitVec 2
  | .ioRead => 0
  | .ioWrite => 1
  | .fwRead => 2
  | .fwWrite => 3

/-- The BRIDGE-CMD coding of a command record (R123). -/
def decodeBridge (op : BitVec 2) (address : FwAddr) (data : Word) (size : BitVec 2) : Except DecodeError Instr :=
  match Size.ofCode size with
  | none => .error .reservedSizeCode
  | some s => .ok (Command.toBridge { address := address, data := data, operation := Op.ofCode op, size := s })

/-- The host-bus transaction whose completed command record is c, if some transaction makes that record: the address of
an I/O transaction has 16 bits, its size is 1, a read carries data 0, and write data has the width of the size (R160 to R167). -/
def Command.toLpc (c : Command) : Option Instr :=
  match c.operation with
  | .ioRead =>
    if c.size = .one ∧ c.address.extractLsb' 16 12 = 0 ∧ c.data = 0 then
      some (.lpcIoRead (c.address.setWidth 16)) else none
  | .ioWrite =>
    if c.size = .one ∧ c.address.extractLsb' 16 12 = 0 ∧ c.data.extractLsb' 8 24 = 0 then
      some (.lpcIoWrite (c.address.setWidth 16) (c.data.setWidth 8)) else none
  | .fwRead => if c.data = 0 then some (fwReadInstr c.size c.address) else none
  | .fwWrite =>
    match c.size with
    | .one => if c.data.extractLsb' 8 24 = 0 then some (.lpcFwWrite1 c.address (c.data.setWidth 8)) else none
    | .two => if c.data.extractLsb' 16 16 = 0 then some (.lpcFwWrite2 c.address (c.data.setWidth 16)) else none
    | .four => some (.lpcFwWrite4 c.address c.data)

/-! ## One decoder and one encoder over the four decode points -/

/-- What stands at a decode point: a stream of host-driven symbols, a window key with its written byte, or a coded command. -/
inductive Encoded where
  | lpc (symbols : List Nibble)
  | target (we : Bool) (adr : BitVec 2) (w : Byte)
  | host (we : Bool) (adr : BitVec 3) (w : Byte)
  | bridge (op : BitVec 2) (address : FwAddr) (data : Word) (size : BitVec 2)
deriving DecidableEq, Repr

/-- The decoder: total, refusing by name. -/
def decode (p : Params) : Encoded → Except DecodeError Instr
  | .lpc l =>
    match decodeLpc p l with
    | .error e => .error e
    | .ok (i, []) => .ok i
    | .ok (_, _ :: _) => .error .trailing
  | .target we adr w => .ok (decodeTarget we adr w)
  | .host we adr w => .ok (decodeHost we adr w)
  | .bridge op address data size => decodeBridge op address data size

/-- The IDSEL symbol the encoder sends: the platform's own, or 0 where any will do (R130). -/
def idselSymbol (p : Params) : Nibble :=
  match p.fwIdsel with
  | none => 0
  | some v => v

/-- The turnaround symbols, ignored by the PSM (R107, R130). -/
def tarSymbols : List Nibble := [0b1111, 0b1111]

/-- Host-driven symbols of an I/O read (R109, R110, R130). -/
def encodeIoRead (p : Params) (a : IoAddr) : List Nibble :=
  [0b0000, 0b0000] ++ toNibbles p.addrOrder 4 a.toNat ++ tarSymbols

/-- Host-driven symbols of an I/O write (R109, R111, R130). -/
def encodeIoWrite (p : Params) (a : IoAddr) (d : Byte) : List Nibble :=
  [0b0000, 0b0010] ++ toNibbles p.addrOrder 4 a.toNat ++ toNibbles p.wdataOrder 2 d.toNat ++ tarSymbols

/-- Host-driven symbols of a firmware read (R109, R112, R130). -/
def encodeFwRead (p : Params) (s : Size) (a : FwAddr) : List Nibble :=
  [0b1101, idselSymbol p] ++ toNibbles p.addrOrder 7 a.toNat ++ [s.msize] ++ tarSymbols

/-- Host-driven symbols of a firmware write (R109, R113, R130). -/
def encodeFwWrite (p : Params) (s : Size) (a : FwAddr) (v : Nat) : List Nibble :=
  [0b1110, idselSymbol p] ++ toNibbles p.addrOrder 7 a.toNat ++ [s.msize] ++
    toNibbles p.wdataOrder (2 * s.bytes) v ++ tarSymbols

/-- The encoder, from the tables of 30_encoding.md. -/
def encode (p : Params) : Instr → Encoded
  | .lpcIoRead a => .lpc (encodeIoRead p a)
  | .lpcIoWrite a d => .lpc (encodeIoWrite p a d)
  | .lpcFwRead1 a => .lpc (encodeFwRead p .one a)
  | .lpcFwRead2 a => .lpc (encodeFwRead p .two a)
  | .lpcFwRead4 a => .lpc (encodeFwRead p .four a)
  | .lpcFwWrite1 a d => .lpc (encodeFwWrite p .one a d.toNat)
  | .lpcFwWrite2 a d => .lpc (encodeFwWrite p .two a d.toNat)
  | .lpcFwWrite4 a d => .lpc (encodeFwWrite p .four a d.toNat)
  | .tCtrlRd => .target false 0 0
  | .tCtrlWr w => .target true 0 w
  | .tDataRd => .target false 1 0
  | .tDataWr w => .target true 1 w
  | .tIntcfgRd => .target false 2 0
  | .tIntcfgWr w => .target true 2 w
  | .tRsvdRd => .target false 3 0
  | .tRsvdWr w => .target true 3 w
  | .hMaskRd => .host false 0 0
  | .hMaskWr w => .host true 0 w
  | .hStatusRd => .host false 1 0
  | .hStatusWr w => .host true 1 w
  | .hCtrlRd => .host false 4 0
  | .hCtrlWr w => .host true 4 w
  | .hDataRd => .host false 5 0
  | .hDataWr w => .host true 5 w
  | .hRsvdRd off => .host false off 0
  | .hRsvdWr off w => .host true off w
  | .brIoRead address data size => .bridge Op.ioRead.code address data size.code
  | .brIoWrite address data size => .bridge Op.ioWrite.code address data size.code
  | .brFwRead address data size => .bridge Op.fwRead.code address data size.code
  | .brFwWrite address data size => .bridge Op.fwWrite.code address data size.code

/-! ## The opcode table's own numbering -/

/-- The symbol stream of a host-bus row's 8-bit key (`{start, CT}` or `{start, MSIZE}`, R108), every operand symbol zero. -/
def lpcKeySymbols (w : Nat) : List Nibble :=
  let start := BitVec.ofNat 4 (w / 16)
  let low := BitVec.ofNat 4 w
  if start = 0b0000 then [start, low] ++ List.replicate 8 0
  else [start, 0] ++ List.replicate 7 0 ++ [low] ++ List.replicate 10 0

/-- The instruction of an opcode-table word. The table's four formats number their keys from bit 0, so their key spaces
overlap: the width picks the format where it is 2, 3 or 4 bits; a word of whole bytes is offered to the host bus, then
to the target window, then to the host window, and the first that has a row for it takes it (log 9). -/
def decodeTableWord (nbits w : Nat) : Option Instr :=
  if nbits = 2 then (decodeBridge (BitVec.ofNat 2 w) 0 0 0).toOption
  else if nbits = 3 then some (decodeTarget (w / 4 % 2 == 1) (BitVec.ofNat 2 w) 0)
  else if nbits = 4 then some (decodeHost (w / 8 % 2 == 1) (BitVec.ofNat 3 w) 0)
  else if 256 ≤ w then none
  else
    match decodeLpc Params.default (lpcKeySymbols w) with
    | .ok (i, _) => some i
    | .error _ =>
      if w < 8 then some (decodeTarget (w / 4 % 2 == 1) (BitVec.ofNat 2 w) 0)
      else if w < 16 then some (decodeHost (w / 8 % 2 == 1) (BitVec.ofNat 3 w) 0)
      else none

end Sys2Proof
end

