-- ==== Sys2Proof/Machine/Operands.lean ====
section
/-! DEFINITION. Operand arithmetic: byte lanes of the firmware bus (20_memory.md R73 to R75) and the nibble shifts of the
PSM (30_encoding.md R105, 40_psm.md R145, R147, R149, R152). -/

namespace Sys2Proof.Machine

/-- `mask(s)`: 0xFF, 0xFFFF or 0xFFFFFFFF (R10). -/
def sizeMask : Size → Word
  | .one => 0x000000FF
  | .two => 0x0000FFFF
  | .four => 0xFFFFFFFF

/-- `smask(s)`: 0001, 0011 or 1111 (R10). -/
def laneMask : Size → BitVec 4
  | .one => 0b0001
  | .two => 0b0011
  | .four => 0b1111

/-- `4 - s` as a 2-bit mask (R73). -/
def alignMask : Size → BitVec 2
  | .one => 0b11
  | .two => 0b10
  | .four => 0b00

/-- The lane offset `off = a[1:0] AND (4 - s)` (R73). -/
def laneOffset (s : Size) (a : FwAddr) : Nat := (a.extractLsb' 0 2 &&& alignMask s).toNat

/-- The firmware-bus word address `a[27:2]` (R73). -/
def fwWordAddr (a : FwAddr) : FwWordAddr := a.extractLsb' 2 26

/-- The lane mask `smask(s) << off` (R73). -/
def laneSelect (s : Size) (a : FwAddr) : BitVec 4 := laneMask s <<< laneOffset s a

/-- Write data on its lanes: `trunc_32(data << (8 * off))` (R74). -/
def toLanes (s : Size) (a : FwAddr) (d : Word) : Word := d <<< (8 * laneOffset s a)

/-- Read data from its lanes: `fw_dat_r >> (8 * off)` (R75). -/
def fromLanes (s : Size) (a : FwAddr) (d : Word) : Word := d >>> (8 * laneOffset s a)

/-- One I/O address nibble shifted into `addr[15:0]`; `addr[27:16]` stays (R145). -/
def shiftInIoAddr (o : NibbleOrder) (addr : FwAddr) (n : Nibble) : FwAddr :=
  match o with
  | .lsnFirst => addr.extractLsb' 16 12 ++ n ++ addr.extractLsb' 4 12
  | .msnFirst => addr.extractLsb' 16 12 ++ addr.extractLsb' 0 12 ++ n

/-- One firmware address nibble shifted into `addr` (R147). -/
def shiftInFwAddr (o : NibbleOrder) (addr : FwAddr) (n : Nibble) : FwAddr :=
  match o with
  | .lsnFirst => n ++ addr.extractLsb' 4 24
  | .msnFirst => addr.extractLsb' 0 24 ++ n

/-- One write-data nibble, the cnt-th, put into `data` (R149). -/
def shiftInData (o : NibbleOrder) (data : Word) (cnt : BitVec 3) (n : Nibble) : Word :=
  match o with
  | .msnFirst => (data <<< 4) ||| n.setWidth 32
  | .lsnFirst => (data &&& ~~~((0xF : Word) <<< (4 * cnt.toNat))) ||| (n.setWidth 32 <<< (4 * cnt.toNat))

/-- The cnt-th read-data nibble of a transfer of size s (R152). -/
def readNibble (o : NibbleOrder) (s : Size) (data : Word) (cnt : BitVec 3) : Nibble :=
  match o with
  | .lsnFirst => data.extractLsb' (4 * cnt.toNat) 4
  | .msnFirst => data.extractLsb' (8 * s.bytes - 4 * cnt.toNat - 4) 4

end Sys2Proof.Machine
end

