-- ==== Sys2Proof/Machine/Ops.lean ====
section
/-! DEFINITION. The shared operations: the abort entry, the crossing queues, the bus drives, the queue reset, the wires of
the I/O fabric, the BT FIFOs, and the memories of the test slaves. -/

namespace Sys2Proof.Machine

/-! ## Abort entry: the core's only "trap entry" (60_exceptions.md R320) -/

/-- The PSM's return to START: nothing is saved, no vector, the bus is released (R140, R320). There is no return
operation: nothing is restored (R321). -/
def abortEntry (m : Psm) : Psm := { m with st := .start, cnt := 0, ladEn := false }

/-- What the wire carries: `lad_out` when driven, nothing otherwise (R23). -/
def Psm.wire (m : Psm) : Option Nibble := if m.ladEn then some m.ladOut else none

/-! ## Crossing queues (41_bridge.md section 1) -/

/-- Ageing and promotion at a consumer edge, head first, from queue position i on (R202): an entry old enough, with every
entry ahead visible, becomes visible if the draw of its position says so. -/
def promoteFrom {α : Type} (cdcMin : Nat) (draws : BitVec 2) : Nat → Bool → List (QEntry α) → List (QEntry α)
  | _, _, [] => []
  | i, ahead, e :: es =>
    let age := min (e.age + 1) cdcMin
    let vis := e.vis || (decide (cdcMin ≤ age) && ahead && draws.getLsbD i)
    { payload := e.payload, vis := vis, age := age } :: promoteFrom cdcMin draws (i + 1) (ahead && vis) es

/-- Ageing and promotion of a whole queue (R202). -/
def promote {α : Type} (cdcMin : Nat) (draws : BitVec 2) (q : List (QEntry α)) : List (QEntry α) :=
  promoteFrom cdcMin draws 0 true q

/-- The payload of the head, if the consumer may act on it (R200, R203). -/
def visibleHead {α : Type} : List (QEntry α) → Option α
  | [] => none
  | e :: _ => if e.vis then some e.payload else none

/-- Append at the tail, invisible and of age 0; none when the queue holds two entries (R201, R208). -/
def pushEntry {α : Type} (q : List (QEntry α)) (x : α) : Option (List (QEntry α)) :=
  if 2 ≤ q.length then none else some (q ++ [{ payload := x, vis := false, age := 0 }])

/-! ## Bus drives (41_bridge.md R205, R206) -/

/-- The I/O bus serves a command's operation (R204). -/
def isIo : Op → Bool
  | .ioRead => true
  | .ioWrite => true
  | .fwRead => false
  | .fwWrite => false

/-- `drive_io` (R205). -/
def driveIo (c : Command) : IoBus :=
  { stb := true, we := c.operation == .ioWrite, adr := c.address.extractLsb' 0 16,
    datW := c.data.extractLsb' 0 8, sel := true }

/-- `drive_fw` (R206). -/
def driveFw (c : Command) : FwBus :=
  { stb := true, we := c.operation == .fwWrite, adr := fwWordAddr c.address,
    datW := toLanes c.size c.address c.data, sel := laneSelect c.size c.address }

/-- The drive of the bus the command's operation selects (R204); the other bus keeps its outputs. Each drive
is a new transaction of its bus's slaves, and is numbered (log 33). -/
def driveBus (c : Command) (s : State) : State :=
  if isIo c.operation then { s with io := driveIo c, ioDrives := s.ioDrives + 1 }
  else { s with fw := driveFw c, fwDrives := s.fwDrives + 1 }

/-! ## Queue reset (41_bridge.md R210) -/

/-- The queue reset, with the draw `race` (true is `taken`). -/
def queueReset (race : Bool) (s : State) : State :=
  let s1 :=
    if s.disp.busy then { s with disp := { s.disp with discard := true } }
    else
      match visibleHead s.cmdq with
      | none => s
      | some c =>
        if race then driveBus c { s with disp := { busy := true, discard := true, cur := c } } else s
  { s1 with cmdq := [], rspq := [] }

/-! ## The I/O fabric and the BT window ports (41_bridge.md R220, R223) -/

/-- `P_PLATFORM_MAP` of an address. -/
def lookupIo (m : List (IoAddr × IoTarget)) (a : IoAddr) : IoTarget :=
  match m with
  | [] => .unmapped
  | (b, t) :: rest => if b = a then t else lookupIo rest a

/-- The map reaches the target window. -/
def IoTarget.isTargetWindow : IoTarget → Bool
  | .btT _ => true
  | .btH _ => false
  | .other _ => false
  | .unmapped => false

/-- The map reaches the host window. -/
def IoTarget.isHostWindow : IoTarget → Bool
  | .btT _ => false
  | .btH _ => true
  | .other _ => false
  | .unmapped => false

/-- Some I/O address is mapped to the target window (R223). -/
def mapsTarget (p : Params) : Bool := p.ioMap.any (fun e => IoTarget.isTargetWindow (lookupIo p.ioMap e.1))

/-- Some I/O address is mapped to the host window (R223). -/
def mapsHost (p : Params) : Bool := p.ioMap.any (fun e => IoTarget.isHostWindow (lookupIo p.ioMap e.1))

/-- The target window's port (R223): driven from the I/O bus if the map reaches the window, else by the environment. -/
def targetPort (s : State) : Port 2 :=
  if mapsTarget s.cfg then
    match lookupIo s.cfg.ioMap s.io.adr with
    | .btT o => { stb := s.io.stb, we := s.io.we, adr := o, datW := s.io.datW }
    | .btH _ => { stb := false, we := s.io.we, adr := 0, datW := s.io.datW }
    | .other _ => { stb := false, we := s.io.we, adr := 0, datW := s.io.datW }
    | .unmapped => { stb := false, we := s.io.we, adr := 0, datW := s.io.datW }
  else s.sysIn.tPort

/-- The host window's port (R223). -/
def hostPort (s : State) : Port 3 :=
  if mapsHost s.cfg then
    match lookupIo s.cfg.ioMap s.io.adr with
    | .btH o => { stb := s.io.stb, we := s.io.we, adr := o, datW := s.io.datW }
    | .btT _ => { stb := false, we := s.io.we, adr := 0, datW := s.io.datW }
    | .other _ => { stb := false, we := s.io.we, adr := 0, datW := s.io.datW }
    | .unmapped => { stb := false, we := s.io.we, adr := 0, datW := s.io.datW }
  else s.sysIn.hPort

/-- A window's acknowledge (R241). -/
def Window.ack (w : Window) : Bool := w.st == .ack

/-- The I/O-bus inputs of the dispatcher (R32). -/
structure IoAnswer where
  ack  : Bool
  err  : Bool
  datR : Byte
deriving DecidableEq, Repr

/-- `io_ack`: the acknowledge of the slave that `io_adr` selects (R220). -/
def ioAck (s : State) : Bool :=
  match lookupIo s.cfg.ioMap s.io.adr with
  | .btT _ => s.bt.tWin.ack
  | .btH _ => s.bt.hWin.ack
  | .other id => if s.cfg.ioRam = some id then s.ioSlave.ack else s.sysIn.ioAck
  | .unmapped => false

/-- `io_dat_r`: the read data of the slave that `io_adr` selects; the undriven input where there is none (R220, log 16). -/
def ioDatR (s : State) : Byte :=
  match lookupIo s.cfg.ioMap s.io.adr with
  | .btT _ => if s.bt.tWin.ack then s.bt.tWin.datR else s.sysIn.ioDatR
  | .btH _ => if s.bt.hWin.ack then s.bt.hWin.datR else s.sysIn.ioDatR
  | .other id => if s.cfg.ioRam = some id ∧ s.ioSlave.ack then s.ioSlave.datR else s.sysIn.ioDatR
  | .unmapped => s.sysIn.ioDatR

/-- The I/O fabric's answer: `io_err = ack_expected AND NOT io_ack` (R220). -/
def ioAnswer (s : State) : IoAnswer :=
  { ack := ioAck s, err := s.ackExpected && !ioAck s, datR := ioDatR s }

/-- The firmware-bus inputs of the dispatcher (R33). -/
structure FwAnswer where
  ack  : Bool
  datR : Word
deriving DecidableEq, Repr

/-- The firmware slave's answer (R221): FWMEM if it is attached, else the environment. -/
def fwAnswer (s : State) : FwAnswer :=
  if s.cfg.fwMem then { ack := s.fwSlave.ack, datR := s.fwSlave.datR }
  else { ack := s.sysIn.fwAck, datR := s.sysIn.fwDatR }

/-! ## BT FIFOs (42_bt.md R243, R252) -/

/-- `popval_F`: the head, or 0 when the FIFO is empty (R243). -/
def fifoHead : List Byte → Byte
  | [] => 0
  | b :: _ => b

/-- The write-ready dip (R252): with `P_WRDY_DIP`, a push at occupancy depth - 1 right after a push may be dropped. -/
def dipDrops (p : Params) (pushedBefore draw : Bool) (old : List Byte) : Bool :=
  p.wrdyDip && pushedBefore && decide (old.length + 1 = p.btDepth) && draw

/-- A push is taken (R243): no clear pulse, occupancy before the edge below the depth, no dip. -/
def pushTaken (depth : Nat) (clr drop : Bool) (push : Option Byte) (old : List Byte) : Bool :=
  push.isSome && !clr && decide (old.length < depth) && !drop

/-- The FIFO primitive (R243): full and empty are judged before the edge, a clear pulse empties. -/
def fifoNext (depth : Nat) (clr drop : Bool) (push : Option Byte) (pop : Bool) (old : List Byte) : List Byte :=
  if clr then []
  else
    let rest := if pop then old.tail else old
    match push with
    | none => rest
    | some b => if old.length < depth ∧ drop = false then rest ++ [b] else rest

/-! ## Memories of the test slaves (95_test_vectors.md) -/

/-- What an address not listed reads as: the vectors' "reset 0" (log 15). -/
def Memory.unlisted : Byte := 0

/-- The byte at an address. -/
def Memory.read (m : Memory) (a : Nat) : Byte :=
  match m with
  | [] => Memory.unlisted
  | (b, v) :: rest => if b = a then v else Memory.read rest a

/-- Store a byte: the list stays sorted, and an entry that would read as an unlisted address is left out. -/
def Memory.write (m : Memory) (a : Nat) (v : Byte) : Memory :=
  match m with
  | [] => if v = Memory.unlisted then [] else [(a, v)]
  | (b, w) :: rest =>
    if a < b then (if v = Memory.unlisted then (b, w) :: rest else (a, v) :: (b, w) :: rest)
    else if a = b then (if v = Memory.unlisted then rest else (a, v) :: rest)
    else (b, w) :: Memory.write rest a v

/-- Every address is above the bound, the addresses rise, and no entry equals the unlisted value. -/
def Memory.wfAbove (bound : Option Nat) : Memory → Bool
  | [] => true
  | (a, v) :: rest =>
    (match bound with
      | none => true
      | some b => decide (b < a)) && decide (v ≠ Memory.unlisted) && Memory.wfAbove (some a) rest

/-- The canonical form. -/
def Memory.wf (m : Memory) : Bool := Memory.wfAbove none m

/-- The byte address of lane i of a firmware word (R73, R74). -/
def laneAddr (wa : FwWordAddr) (i : Nat) : Nat := 4 * wa.toNat + i

/-- Store lane i of a word if it is selected (R74, R221). -/
def writeLane (wa : FwWordAddr) (sel : BitVec 4) (d : Word) (i : Nat) (m : Memory) : Memory :=
  if sel.getLsbD i then Memory.write m (laneAddr wa i) (d.extractLsb' (8 * i) 8) else m

/-- A firmware write updates the selected lanes only (R221). -/
def writeLanes (wa : FwWordAddr) (sel : BitVec 4) (d : Word) (m : Memory) : Memory :=
  writeLane wa sel d 3 (writeLane wa sel d 2 (writeLane wa sel d 1 (writeLane wa sel d 0 m)))

/-- A firmware read returns the whole word, lane i in bits 8i+7 to 8i (R74). -/
def readWord (m : Memory) (wa : FwWordAddr) : Word :=
  Memory.read m (laneAddr wa 3) ++ Memory.read m (laneAddr wa 2) ++
    Memory.read m (laneAddr wa 1) ++ Memory.read m (laneAddr wa 0)

/-- One system edge of FWMEM: it samples the strobe when it is not acknowledging, acts, and acknowledges for one cycle. -/
def fwSlaveEdge (s : State) : FwSlave :=
  if s.cfg.fwMem then
    if s.fwSlave.ack then { s.fwSlave with ack := false }
    else if s.fw.stb then
      if s.fw.we then
        { s.fwSlave with ack := true, mem := writeLanes s.fw.adr s.fw.sel s.fw.datW s.fwSlave.mem }
      else { s.fwSlave with ack := true, datR := readWord s.fwSlave.mem s.fw.adr }
    else s.fwSlave
  else s.fwSlave

/-- The test RAM is selected by the I/O address. -/
def ioRamSelected (s : State) : Bool :=
  match lookupIo s.cfg.ioMap s.io.adr with
  | .btT _ => false
  | .btH _ => false
  | .other id => decide (s.cfg.ioRam = some id)
  | .unmapped => false

/-- One system edge of the test RAM: the handshake of a BT window over one byte per address. -/
def ioSlaveEdge (s : State) : IoSlave :=
  if s.cfg.ioRam.isSome then
    if s.ioSlave.ack then { s.ioSlave with ack := false }
    else if s.io.stb && ioRamSelected s then
      if s.io.we then { s.ioSlave with ack := true, mem := Memory.write s.ioSlave.mem s.io.adr.toNat s.io.datW }
      else { s.ioSlave with ack := true, datR := Memory.read s.ioSlave.mem s.io.adr.toNat }
    else s.ioSlave
  else s.ioSlave

end Sys2Proof.Machine
end

