-- ==== Sys2Proof/Machine/Bt.lean ====
section
/-! DEFINITION. The BT's accesses and one BT edge (42_bt.md sections 1 and 2). An access is its read value and its
requests; the edge combines the accesses of both windows. -/

namespace Sys2Proof.Machine

/-- What one access of the target window asks for at its edge (R253 step 1); `value` is the read value, none for a write. -/
structure TAccess where
  value  : Option Byte := none
  /-- the byte of a control write; an absent write counts as 0 (R246) -/
  ctrl   : Byte := 0
  /-- the byte of an interrupt-configuration write (R249) -/
  intcfg : Option Byte := none
  /-- `push_t2h` -/
  push   : Option Byte := none
  /-- `pop_h2t` -/
  pop    : Bool := false
deriving DecidableEq, Repr

/-- What one access of the host window asks for at its edge (R253 step 1). -/
structure HAccess where
  value  : Option Byte := none
  ctrl   : Byte := 0
  /-- the byte of a mask write (R248) -/
  mask   : Option Byte := none
  /-- the byte of a status write (R248) -/
  status : Option Byte := none
  /-- `push_h2t` -/
  push   : Option Byte := none
  /-- `pop_t2h` -/
  pop    : Bool := false
deriving DecidableEq, Repr

/-- No access: nothing asked. -/
def TAccess.idle : TAccess := {}

/-- No access: nothing asked. -/
def HAccess.idle : HAccess := {}

/-- The access a window serves: what its port presents, in IDLE only (R240). -/
def Window.serves {α : Type} (w : Window) (a : Option α) : Option α :=
  match w.st with
  | .idle => a
  | .ack => none

/-- The window machine (R240): an access served in IDLE acknowledges in the next cycle and registers its read value; ACK
returns to IDLE. `v` is the read value of the served access. -/
def Window.next (w : Window) (v : Option (Option Byte)) : Window :=
  match w.st with
  | .ack => { w with st := .idle }
  | .idle =>
    match v with
    | none => w
    | some none => { w with st := .ack }
    | some (some b) => { st := .ack, datR := b }

/-- One BT edge (R253): t and h are what the two ports present. -/
def btEdge (p : Params) (i : SysIn) (t : Option TAccess) (h : Option HAccess) (b : Bt) : Bt :=
  let ta := (b.tWin.serves t).getD .idle
  let ha := (b.hWin.serves h).getD .idle
  let flags := nextFlags p.layout i.scRace ta.ctrl ha.ctrl b.flags
  let dropT := dipDrops p b.pushedT2h i.dipT2h b.fifoT2h
  let dropH := dipDrops p b.pushedH2t i.dipH2t b.fifoH2t
  { flags     := flags
    hMask     := writeLow2 ha.mask b.hMask
    hStatus   := nextHostStatus b.hStatus b.hMask ha.status (eventH0 b.flags flags) (eventH1 b.flags flags)
    tEn       := nextTargetEnable b.tEn ta.intcfg
    tPend     := nextTargetPending b.tPend b.tEn ta.intcfg (eventT b.flags flags)
    fifoT2h   := fifoNext p.btDepth b.clrT2h dropT ta.push ha.pop b.fifoT2h
    fifoH2t   := fifoNext p.btDepth b.clrH2t dropH ha.push ta.pop b.fifoH2t
    clrT2h    := ta.ctrl.getLsbD p.clearBit.val
    clrH2t    := ha.ctrl.getLsbD p.clearBit.val
    pushedT2h := pushTaken p.btDepth b.clrT2h dropT ta.push b.fifoT2h
    pushedH2t := pushTaken p.btDepth b.clrH2t dropH ha.push b.fifoH2t
    tWin      := b.tWin.next ((b.tWin.serves t).map TAccess.value)
    hWin      := b.hWin.next ((b.hWin.serves h).map HAccess.value) }

end Sys2Proof.Machine
end

