-- ==== Sys2Proof/Machine/Accesses.lean ====
section
/-! DEFINITION. What each BT register access reads and asks for (42_bt.md sections 3 and 4), computed from the registers
before the edge, and the access decode of the two windows (R242). -/

namespace Sys2Proof.Machine

/-! ## Target window -/

/-- R260: the status byte. -/
def accTCtrlRd (p : Params) (b : Bt) : TAccess := { value := some (statusByte p.layout b.flags) }

/-- R261: the control command. -/
def accTCtrlWr (w : Byte) : TAccess := { ctrl := w }

/-- R262: pop `fifo_h2t`; the head, or 0. -/
def accTDataRd (b : Bt) : TAccess := { value := some (fifoHead b.fifoH2t), pop := true }

/-- R263: push `fifo_t2h`. -/
def accTDataWr (w : Byte) : TAccess := { push := some w }

/-- R264: the interrupt configuration. -/
def accTIntcfgRd (b : Bt) : TAccess := { value := some (intcfgByte b) }

/-- R265: enable and clear pending. -/
def accTIntcfgWr (w : Byte) : TAccess := { intcfg := some w }

/-- R266: an unlisted offset reads 0. -/
def accTRsvdRd : TAccess := { value := some 0 }

/-- R267: an unlisted offset ignores writes. -/
def accTRsvdWr (_w : Byte) : TAccess := { value := none }

/-- The target window's access of a key (R242). -/
def targetAccess (p : Params) (b : Bt) (we : Bool) (adr : BitVec 2) (w : Byte) : TAccess :=
  match we, adr.toNat with
  | false, 0 => accTCtrlRd p b
  | true, 0 => accTCtrlWr w
  | false, 1 => accTDataRd b
  | true, 1 => accTDataWr w
  | false, 2 => accTIntcfgRd b
  | true, 2 => accTIntcfgWr w
  | false, _ => accTRsvdRd
  | true, _ => accTRsvdWr w

/-! ## Host window -/

/-- R270: the mask. -/
def accHMaskRd (b : Bt) : HAccess := { value := some (b.hMask.setWidth 8) }

/-- R271: write the mask. -/
def accHMaskWr (w : Byte) : HAccess := { mask := some w }

/-- R272: the status. -/
def accHStatusRd (b : Bt) : HAccess := { value := some (b.hStatus.setWidth 8) }

/-- R273: write the status directly. -/
def accHStatusWr (w : Byte) : HAccess := { status := some w }

/-- R274: the status byte. -/
def accHCtrlRd (p : Params) (b : Bt) : HAccess := { value := some (statusByte p.layout b.flags) }

/-- R275: the control command. -/
def accHCtrlWr (w : Byte) : HAccess := { ctrl := w }

/-- R276: pop `fifo_t2h`; the head, or 0. -/
def accHDataRd (b : Bt) : HAccess := { value := some (fifoHead b.fifoT2h), pop := true }

/-- R277: push `fifo_h2t`. -/
def accHDataWr (w : Byte) : HAccess := { push := some w }

/-- R278: an unlisted offset reads 0. -/
def accHRsvdRd (_off : BitVec 3) : HAccess := { value := some 0 }

/-- R279: an unlisted offset ignores writes. -/
def accHRsvdWr (_off : BitVec 3) (_w : Byte) : HAccess := { value := none }

/-- The host window's access of a key (R242). -/
def hostAccess (p : Params) (b : Bt) (we : Bool) (adr : BitVec 3) (w : Byte) : HAccess :=
  match we, adr.toNat with
  | false, 0 => accHMaskRd b
  | true, 0 => accHMaskWr w
  | false, 1 => accHStatusRd b
  | true, 1 => accHStatusWr w
  | false, 4 => accHCtrlRd p b
  | true, 4 => accHCtrlWr w
  | false, 5 => accHDataRd b
  | true, 5 => accHDataWr w
  | false, _ => accHRsvdRd adr
  | true, _ => accHRsvdWr adr w

end Sys2Proof.Machine
end

