-- ==== Sys2Proof/Machine/Bridge.lean ====
section
/-! DEFINITION. The dispatcher and the response multiplexer (41_bridge.md section 2). -/

namespace Sys2Proof.Machine

/-- Dispatch (R204): the head leaves the queue, becomes the current command, and its bus is driven. -/
def dispatch (c : Command) (s : State) : State :=
  driveBus c { s with cmdq := s.cmdq.tail, disp := { busy := true, discard := false, cur := c } }

/-- The bus that serves the current command answers (R207). -/
def answered (a : IoAnswer) (f : FwAnswer) (cur : Command) : Bool :=
  if isIo cur.operation then a.ack || a.err else f.ack

/-- `respond` (R208). -/
def respond (a : IoAnswer) (f : FwAnswer) (cur : Command) : Response :=
  if isIo cur.operation then { data := a.datR.setWidth 32, error := a.err }
  else { data := fromLanes cur.size cur.address f.datR, error := false }

/-- Completion (R207): the response is pushed unless it is to be discarded; none when the response queue overflows (R208). -/
def complete (a : IoAnswer) (f : FwAnswer) (s : State) : Option State :=
  if answered a f s.disp.cur then
    match (if s.disp.discard then some s.rspq else pushEntry s.rspq (respond a f s.disp.cur)) with
    | none => none
    | some q =>
      some { s with
        rspq := q
        disp := { s.disp with busy := false, discard := false }
        io := { s.io with stb := false }
        fw := { s.fw with stb := false } }
  else some s

/-- The dispatcher's step at a system edge (R214 step 3): a busy dispatcher completes, an idle one dispatches the command
presented to it, if any. -/
def bridgeStep (a : IoAnswer) (f : FwAnswer) (presented : Option Command) (s : State) : Option State :=
  if s.disp.busy then complete a f s
  else
    match presented with
    | none => some s
    | some c => some (dispatch c s)

end Sys2Proof.Machine
end

