-- ==== Sys2Proof/Machine/Psm.lean ====
section
/-! DEFINITION. The Protocol State Machine (40_psm.md section 1): one function per rule, and their exhaustive match. -/

namespace Sys2Proof.Machine

/-- What one PSM rule does at an edge: the new registers, a command handed to the bridge, a response taken. -/
structure PsmOut where
  psm : Psm
  enq : Option Command
  deq : Bool
deriving DecidableEq, Repr

/-- A rule that touches the PSM registers only. -/
def PsmOut.only (m : Psm) : PsmOut := { psm := m, enq := none, deq := false }

/-- The command record being assembled (R150, R154). -/
def Psm.command (m : Psm) : Command :=
  { address := m.addr, data := m.data, operation := m.op, size := m.size }

/-- R141, the start decode. -/
def psmStartDecode (n : Nibble) (m : Psm) : Psm :=
  let m1 := { m with ladEn := false, cnt := 0, addr := 0, data := 0 }
  if n = 0b0000 then { m1 with st := .cycleType }
  else if n = 0b1101 then { m1 with op := .fwRead, st := .fwIdsel }
  else if n = 0b1110 then { m1 with op := .fwWrite, st := .fwIdsel }
  else { m1 with st := .start }

/-- R143, START. -/
def psmStart (m : Psm) : Psm := { m with st := .start, ladEn := false }

/-- R144, CYCLETYPE. -/
def psmCycleType (n : Nibble) (m : Psm) : Psm :=
  match cycleType n with
  | some true => { m with op := .ioRead, size := .one, cnt := 0, st := .ioAddr }
  | some false => { m with op := .ioWrite, size := .one, cnt := 0, st := .ioAddr }
  | none => { m with st := .start }

/-- R145, IOADDR. -/
def psmIoAddr (p : Params) (n : Nibble) (m : Psm) : Psm :=
  let m1 := { m with addr := shiftInIoAddr p.addrOrder m.addr n }
  if m.cnt = 3 then { m1 with cnt := 0, st := if m.op = .ioRead then .rdTar1 else .wrData }
  else { m1 with cnt := m.cnt + 1 }

/-- R146, FWIDSEL. -/
def psmFwIdsel (p : Params) (n : Nibble) (m : Psm) : Psm :=
  if idselAccepted p n then { m with cnt := 0, st := .fwAddr } else { m with st := .start }

/-- R147, FWADDR. -/
def psmFwAddr (p : Params) (n : Nibble) (m : Psm) : Psm :=
  let m1 := { m with addr := shiftInFwAddr p.addrOrder m.addr n }
  if m.cnt = 6 then { m1 with cnt := 0, st := .fwMsize } else { m1 with cnt := m.cnt + 1 }

/-- R148, FWMSIZE. -/
def psmFwMsize (n : Nibble) (m : Psm) : Psm :=
  match Size.ofMsize n with
  | some z => { m with size := z, cnt := 0, st := if m.op = .fwRead then .rdTar1 else .wrData }
  | none => { m with st := .start }

/-- R149, WRDATA. -/
def psmWrData (p : Params) (n : Nibble) (m : Psm) : Psm :=
  let m1 := { m with data := shiftInData p.wdataOrder m.data m.cnt n }
  if m.cnt.toNat + 1 = 2 * m.size.bytes then { m1 with cnt := 0, st := .wrTar1 }
  else { m1 with cnt := m.cnt + 1 }

/-- R150 and R154, the turnaround before SYNC: the first edge hands the command to the bridge, the second sets up the
first long-wait symbol. -/
def psmTar1 (sync : PsmState) (m : Psm) : PsmOut :=
  if m.cnt = 0 then { psm := { m with cnt := 1 }, enq := some m.command, deq := false }
  else .only { m with ladOut := 0b0110, ladEn := true, cnt := 0, st := sync }

/-- R151, RDSYNC. -/
def psmRdSync (r : Option Response) (m : Psm) : PsmOut :=
  match r with
  | none => .only { m with ladOut := 0b0110 }
  | some r =>
    if r.error then { psm := { m with ladOut := 0b1010, st := .start }, enq := none, deq := true }
    else { psm := { m with data := r.data &&& sizeMask m.size, ladOut := 0b0000, cnt := 0, st := .rdData },
           enq := none, deq := true }

/-- R152, RDDATA. -/
def psmRdData (p : Params) (m : Psm) : Psm :=
  let m1 := { m with ladOut := readNibble p.rdataOrder m.size m.data m.cnt }
  if m.cnt.toNat + 1 = 2 * m.size.bytes then { m1 with cnt := 0, st := .tar2 }
  else { m1 with cnt := m.cnt + 1 }

/-- R153, TAR2. -/
def psmTar2 (m : Psm) : Psm :=
  if m.cnt = 0 then { m with ladOut := 0b1111, ladEn := true, cnt := 1 }
  else { m with ladEn := false, cnt := 0, st := .start }

/-- R155, WRSYNC. -/
def psmWrSync (r : Option Response) (m : Psm) : PsmOut :=
  match r with
  | none => .only { m with ladOut := 0b0110 }
  | some r =>
    { psm := { m with ladOut := if r.error then 0b1010 else 0b0000, cnt := 0, st := .tar2 }, enq := none, deq := true }

/-- Exactly one PSM rule at an edge (R156, R157 step 3); r is the response the PSM may consume. -/
def psmRule (p : Params) (h : HostIn) (r : Option Response) (m : Psm) : PsmOut :=
  if resetting p h then .only (abortEntry m)
  else if framing p h then .only (psmStartDecode h.lad m)
  else
    match m.st with
    | .start => .only (psmStart m)
    | .cycleType => .only (psmCycleType h.lad m)
    | .ioAddr => .only (psmIoAddr p h.lad m)
    | .fwIdsel => .only (psmFwIdsel p h.lad m)
    | .fwAddr => .only (psmFwAddr p h.lad m)
    | .fwMsize => .only (psmFwMsize h.lad m)
    | .wrData => .only (psmWrData p h.lad m)
    | .rdTar1 => psmTar1 .rdSync m
    | .rdSync => psmRdSync r m
    | .rdData => .only (psmRdData p m)
    | .wrTar1 => psmTar1 .wrSync m
    | .wrSync => psmWrSync r m
    | .tar2 => .only (psmTar2 m)

/-- The host-bus transaction that is handed over at the next host edge, if the PSM stands in its first turnaround cycle
with the registers of a received transaction (R150, R154, R160 to R167). -/
def Psm.instr (m : Psm) : Option Instr :=
  if m.cnt = 0 then
    match m.st, m.op with
    | .rdTar1, .ioRead => m.command.toLpc
    | .rdTar1, .fwRead => m.command.toLpc
    | .wrTar1, .ioWrite => m.command.toLpc
    | .wrTar1, .fwWrite => m.command.toLpc
    | _, _ => none
  else none

/-- The state of a read's or a write's turnaround (R145, R148, R149). -/
def tar1State : Op → PsmState
  | .ioRead => .rdTar1
  | .fwRead => .rdTar1
  | .ioWrite => .wrTar1
  | .fwWrite => .wrTar1

/-- The PSM with a transaction fully received: its command in the registers, in the first turnaround cycle. -/
def Psm.received (c : Command) (m : Psm) : Psm :=
  { m with st := tar1State c.operation, cnt := 0, op := c.operation, size := c.size, addr := c.address, data := c.data }

end Sys2Proof.Machine
end

