-- ==== Sys2Proof/Machine/Edges.lean ====
section
/-! DEFINITION. One host edge (40_psm.md R157) and one system edge (41_bridge.md R214), at the inputs that `hostIn` and
`sysIn` hold. -/

namespace Sys2Proof.Machine

/-! ## The host edge -/

/-- The command queue after the PSM's rule (R201): none when it overflows. -/
def enqueueCommand (e : Option Command) (q : List (QEntry Command)) : Option (List (QEntry Command)) :=
  match e with
  | none => some q
  | some c => pushEntry q c

/-- One host edge (R157): promote the response queue, apply one PSM rule, apply the queue reset if it is due, record the
sampled levels. -/
def hostEdge (s : State) : Host.Outcome State Fault Refusal :=
  let rq := promote s.cfg.cdcMin s.hostIn.promote s.rspq
  let o := psmRule s.cfg s.hostIn (visibleHead rq) s.psm
  match enqueueCommand o.enq s.cmdq with
  | none => .fault .cmdQueueOverflow
  | some cq =>
    let s1 := { s with
      psm := { o.psm with fprev := s.hostIn.lframe, rprev := s.hostIn.lreset }
      cmdq := cq
      rspq := if o.deq then rq.tail else rq }
    .next (if queueResetDue s.cfg s.hostIn s.psm then queueReset s.hostIn.race s1 else s1)

/-- The host edge that ends the first turnaround cycle of a host-bus transaction whose command record is c: the
transaction is received, and this edge hands it to the bridge (R150, R154; log 6). -/
def handOff (c : Command) (s : State) : Host.Outcome State Fault Refusal :=
  hostEdge { s with psm := s.psm.received c }

/-! ## The system edge -/

/-- The system reset edge (R211, R281, R42). The attached test slaves are reset with it (log 14). -/
def sysReset (s : State) : State :=
  { s with
    cmdq := [], rspq := [], disp := Dispatcher.reset, io := IoBus.reset, fw := FwBus.reset, ackExpected := false,
    bt := Bt.reset, fwWaited := false, fwSlave := FwSlave.reset, ioSlave := IoSlave.reset }

/-- What is presented at the system domain's decode points at an edge: the access of each window's port, and the
command at the visible head of the command queue. -/
structure Presented where
  target  : Option TAccess
  host    : Option HAccess
  command : Option Command
deriving DecidableEq, Repr

/-- The access the target window's port presents (R240, R223). -/
def presentedTarget (s : State) : Option TAccess :=
  if (targetPort s).stb then
    some (targetAccess s.cfg s.bt (targetPort s).we (targetPort s).adr (targetPort s).datW) else none

/-- The access the host window's port presents (R240, R223). -/
def presentedHost (s : State) : Option HAccess :=
  if (hostPort s).stb then
    some (hostAccess s.cfg s.bt (hostPort s).we (hostPort s).adr (hostPort s).datW) else none

/-- The command queue as the dispatcher sees it at this edge (R214 step 2). -/
def promotedCommands (s : State) : List (QEntry Command) := promote s.cfg.cdcMin s.sysIn.promote s.cmdq

/-- What the state itself presents at this edge. -/
def presented (s : State) : Presented :=
  { target := presentedTarget s, host := presentedHost s, command := visibleHead (promotedCommands s) }

/-- One system edge (R214) with the given accesses and command presented. The bus answers, the window ports and the
slaves are sampled as they stood before the edge. -/
def sysEdge (p : Presented) (s : State) : Host.Outcome State Fault Refusal :=
  if s.sysIn.sysRst then .next (sysReset s)
  else
    match bridgeStep (ioAnswer s) (fwAnswer s) p.command { s with cmdq := promotedCommands s } with
    | none => .fault .rspQueueOverflow
    | some s1 =>
      .next { s1 with
        bt := btEdge s.cfg s.sysIn p.target p.host s.bt
        ackExpected := s.io.stb && !s.ackExpected
        fwWaited := s.fw.stb && s1.fw.stb
        fwSlave := fwSlaveEdge s
        ioSlave := ioSlaveEdge s }

/-- The system edge whose target-window port presents the access a (log 7). -/
def targetEdge (a : TAccess) (s : State) : Host.Outcome State Fault Refusal :=
  sysEdge { presented s with target := some a } s

/-- The system edge whose host-window port presents the access a (log 7). -/
def hostWindowEdge (a : HAccess) (s : State) : Host.Outcome State Fault Refusal :=
  sysEdge { presented s with host := some a } s

/-- The system edge at which the command c stands at the visible head of the command queue (log 7). -/
def dispatchEdge (c : Command) (s : State) : Host.Outcome State Fault Refusal :=
  sysEdge { presented s with command := some c } s

end Sys2Proof.Machine
end

