-- ==== Sys2Proof/Machine/BridgeCmd.lean ====
section
/-! DEFINITION. The bridge commands (41_bridge.md R230 to R233): the system edge at which the dispatcher finds the command
at the visible head of its queue. Its completion (R207, R208) is a later edge. -/

namespace Sys2Proof.Machine

/-- BR_IO_READ (R230). -/
def execBrIoRead (address : FwAddr) (data : Word) (size : Size) (s : State) : Host.Outcome State Fault Refusal :=
  dispatchEdge { address := address, data := data, operation := .ioRead, size := size } s

/-- BR_IO_WRITE (R231). -/
def execBrIoWrite (address : FwAddr) (data : Word) (size : Size) (s : State) : Host.Outcome State Fault Refusal :=
  dispatchEdge { address := address, data := data, operation := .ioWrite, size := size } s

/-- BR_FW_READ (R232). -/
def execBrFwRead (address : FwAddr) (data : Word) (size : Size) (s : State) : Host.Outcome State Fault Refusal :=
  dispatchEdge { address := address, data := data, operation := .fwRead, size := size } s

/-- BR_FW_WRITE (R233). -/
def execBrFwWrite (address : FwAddr) (data : Word) (size : Size) (s : State) : Host.Outcome State Fault Refusal :=
  dispatchEdge { address := address, data := data, operation := .fwWrite, size := size } s

end Sys2Proof.Machine
end

