-- ==== Sys2Proof/Machine/HostWindow.lean ====
section
/-! DEFINITION. The host-window accesses (42_bt.md R270 to R279): the system edge whose host port presents the access. -/

namespace Sys2Proof.Machine

/-- H_MASK_RD (R270). -/
def execHMaskRd (s : State) : Host.Outcome State Fault Refusal :=
  hostWindowEdge (accHMaskRd s.bt) s

/-- H_MASK_WR (R271). -/
def execHMaskWr (w : Byte) (s : State) : Host.Outcome State Fault Refusal :=
  hostWindowEdge (accHMaskWr w) s

/-- H_STATUS_RD (R272). -/
def execHStatusRd (s : State) : Host.Outcome State Fault Refusal :=
  hostWindowEdge (accHStatusRd s.bt) s

/-- H_STATUS_WR (R273). -/
def execHStatusWr (w : Byte) (s : State) : Host.Outcome State Fault Refusal :=
  hostWindowEdge (accHStatusWr w) s

/-- H_CTRL_RD (R274). -/
def execHCtrlRd (s : State) : Host.Outcome State Fault Refusal :=
  hostWindowEdge (accHCtrlRd s.cfg s.bt) s

/-- H_CTRL_WR (R275). -/
def execHCtrlWr (w : Byte) (s : State) : Host.Outcome State Fault Refusal :=
  hostWindowEdge (accHCtrlWr w) s

/-- H_DATA_RD (R276). -/
def execHDataRd (s : State) : Host.Outcome State Fault Refusal :=
  hostWindowEdge (accHDataRd s.bt) s

/-- H_DATA_WR (R277). -/
def execHDataWr (w : Byte) (s : State) : Host.Outcome State Fault Refusal :=
  hostWindowEdge (accHDataWr w) s

/-- H_RSVD_RD (R278). -/
def execHRsvdRd (off : BitVec 3) (s : State) : Host.Outcome State Fault Refusal :=
  hostWindowEdge (accHRsvdRd off) s

/-- H_RSVD_WR (R279). -/
def execHRsvdWr (off : BitVec 3) (w : Byte) (s : State) : Host.Outcome State Fault Refusal :=
  hostWindowEdge (accHRsvdWr off w) s

end Sys2Proof.Machine
end

