-- ==== Sys2Proof/Machine/Lpc.lean ====
section
/-! DEFINITION. The host-bus transactions (40_psm.md R160 to R167): the host edge that hands the received transaction to the
bridge. Receiving its symbols (R141 to R149) and answering it (R151 to R155) are the PSM's rules at other edges (log 6). -/

namespace Sys2Proof.Machine

/-- LPC_IO_READ (R160). -/
def execLpcIoRead (a : IoAddr) (s : State) : Host.Outcome State Fault Refusal :=
  handOff { address := a.setWidth 28, data := 0, operation := .ioRead, size := .one } s

/-- LPC_IO_WRITE (R161). -/
def execLpcIoWrite (a : IoAddr) (d : Byte) (s : State) : Host.Outcome State Fault Refusal :=
  handOff { address := a.setWidth 28, data := d.setWidth 32, operation := .ioWrite, size := .one } s

/-- LPC_FW_READ_1 (R162). -/
def execLpcFwRead1 (a : FwAddr) (s : State) : Host.Outcome State Fault Refusal :=
  handOff { address := a, data := 0, operation := .fwRead, size := .one } s

/-- LPC_FW_READ_2 (R163). -/
def execLpcFwRead2 (a : FwAddr) (s : State) : Host.Outcome State Fault Refusal :=
  handOff { address := a, data := 0, operation := .fwRead, size := .two } s

/-- LPC_FW_READ_4 (R164). -/
def execLpcFwRead4 (a : FwAddr) (s : State) : Host.Outcome State Fault Refusal :=
  handOff { address := a, data := 0, operation := .fwRead, size := .four } s

/-- LPC_FW_WRITE_1 (R165). -/
def execLpcFwWrite1 (a : FwAddr) (d : BitVec 8) (s : State) : Host.Outcome State Fault Refusal :=
  handOff { address := a, data := d.setWidth 32, operation := .fwWrite, size := .one } s

/-- LPC_FW_WRITE_2 (R166). -/
def execLpcFwWrite2 (a : FwAddr) (d : BitVec 16) (s : State) : Host.Outcome State Fault Refusal :=
  handOff { address := a, data := d.setWidth 32, operation := .fwWrite, size := .two } s

/-- LPC_FW_WRITE_4 (R167). -/
def execLpcFwWrite4 (a : FwAddr) (d : BitVec 32) (s : State) : Host.Outcome State Fault Refusal :=
  handOff { address := a, data := d, operation := .fwWrite, size := .four } s

end Sys2Proof.Machine
end

