-- ==== Sys2Proof/Machine/TargetWindow.lean ====
section
/-! DEFINITION. The target-window accesses (42_bt.md R260 to R267): the system edge whose target port presents the access. -/

namespace Sys2Proof.Machine

/-- T_CTRL_RD (R260). -/
def execTCtrlRd (s : State) : Host.Outcome State Fault Refusal :=
  targetEdge (accTCtrlRd s.cfg s.bt) s

/-- T_CTRL_WR (R261). -/
def execTCtrlWr (w : Byte) (s : State) : Host.Outcome State Fault Refusal :=
  targetEdge (accTCtrlWr w) s

/-- T_DATA_RD (R262). -/
def execTDataRd (s : State) : Host.Outcome State Fault Refusal :=
  targetEdge (accTDataRd s.bt) s

/-- T_DATA_WR (R263). -/
def execTDataWr (w : Byte) (s : State) : Host.Outcome State Fault Refusal :=
  targetEdge (accTDataWr w) s

/-- T_INTCFG_RD (R264). -/
def execTIntcfgRd (s : State) : Host.Outcome State Fault Refusal :=
  targetEdge (accTIntcfgRd s.bt) s

/-- T_INTCFG_WR (R265). -/
def execTIntcfgWr (w : Byte) (s : State) : Host.Outcome State Fault Refusal :=
  targetEdge (accTIntcfgWr w) s

/-- T_RSVD_RD (R266). -/
def execTRsvdRd (s : State) : Host.Outcome State Fault Refusal :=
  targetEdge accTRsvdRd s

/-- T_RSVD_WR (R267). -/
def execTRsvdWr (w : Byte) (s : State) : Host.Outcome State Fault Refusal :=
  targetEdge (accTRsvdWr w) s

end Sys2Proof.Machine
end

