-- ==== Sys2Proof/Machine/Dispatch.lean ====
section
/-! DEFINITION. One arm per instruction. -/

namespace Sys2Proof.Machine

def exec (i : Instr) (s : State) : Host.Outcome State Fault Refusal :=
  match i with
  | .lpcIoRead a => Sys2Proof.Machine.execLpcIoRead a s
  | .lpcIoWrite a d => Sys2Proof.Machine.execLpcIoWrite a d s
  | .lpcFwRead1 a => Sys2Proof.Machine.execLpcFwRead1 a s
  | .lpcFwRead2 a => Sys2Proof.Machine.execLpcFwRead2 a s
  | .lpcFwRead4 a => Sys2Proof.Machine.execLpcFwRead4 a s
  | .lpcFwWrite1 a d => Sys2Proof.Machine.execLpcFwWrite1 a d s
  | .lpcFwWrite2 a d => Sys2Proof.Machine.execLpcFwWrite2 a d s
  | .lpcFwWrite4 a d => Sys2Proof.Machine.execLpcFwWrite4 a d s
  | .tCtrlRd => Sys2Proof.Machine.execTCtrlRd s
  | .tCtrlWr w => Sys2Proof.Machine.execTCtrlWr w s
  | .tDataRd => Sys2Proof.Machine.execTDataRd s
  | .tDataWr w => Sys2Proof.Machine.execTDataWr w s
  | .tIntcfgRd => Sys2Proof.Machine.execTIntcfgRd s
  | .tIntcfgWr w => Sys2Proof.Machine.execTIntcfgWr w s
  | .tRsvdRd => Sys2Proof.Machine.execTRsvdRd s
  | .tRsvdWr w => Sys2Proof.Machine.execTRsvdWr w s
  | .hMaskRd => Sys2Proof.Machine.execHMaskRd s
  | .hMaskWr w => Sys2Proof.Machine.execHMaskWr w s
  | .hStatusRd => Sys2Proof.Machine.execHStatusRd s
  | .hStatusWr w => Sys2Proof.Machine.execHStatusWr w s
  | .hCtrlRd => Sys2Proof.Machine.execHCtrlRd s
  | .hCtrlWr w => Sys2Proof.Machine.execHCtrlWr w s
  | .hDataRd => Sys2Proof.Machine.execHDataRd s
  | .hDataWr w => Sys2Proof.Machine.execHDataWr w s
  | .hRsvdRd off => Sys2Proof.Machine.execHRsvdRd off s
  | .hRsvdWr off w => Sys2Proof.Machine.execHRsvdWr off w s
  | .brIoRead address data size => Sys2Proof.Machine.execBrIoRead address data size s
  | .brIoWrite address data size => Sys2Proof.Machine.execBrIoWrite address data size s
  | .brFwRead address data size => Sys2Proof.Machine.execBrFwRead address data size s
  | .brFwWrite address data size => Sys2Proof.Machine.execBrFwWrite address data size s

end Sys2Proof.Machine
end

