-- ==== Sys2Proof/Machine/Fetch.lean ====
section
/-! DEFINITION. Which instruction an edge runs, the edge itself, where the edges come from, and how an instruction is placed
so that the next edge runs it. -/

namespace Sys2Proof.Machine

/-! ## Which instruction an edge runs -/

/-- The access the target window samples at this edge (R240). -/
def sampledTarget (s : State) : Option Instr :=
  if s.sysIn.sysRst = false ∧ s.bt.tWin.st = .idle ∧ (targetPort s).stb = true then
    some (decodeTarget (targetPort s).we (targetPort s).adr (targetPort s).datW)
  else none

/-- The access the host window samples at this edge (R240). -/
def sampledHost (s : State) : Option Instr :=
  if s.sysIn.sysRst = false ∧ s.bt.hWin.st = .idle ∧ (hostPort s).stb = true then
    some (decodeHost (hostPort s).we (hostPort s).adr (hostPort s).datW)
  else none

/-- The command the dispatcher takes at this edge (R204). -/
def sampledCommand (s : State) : Option Instr :=
  if s.sysIn.sysRst = false ∧ s.disp.busy = false then
    (visibleHead (promotedCommands s)).map Command.toBridge
  else none

/-- The first of two options. -/
def firstOf (a b : Option Instr) : Option Instr :=
  match a with
  | some i => some i
  | none => b

/-- An instruction that a system edge runs. Where several decode points take one at the same edge, each of them is run by
that edge, and this names the first (log 8). -/
def sysInstr (s : State) : Option Instr :=
  firstOf (sampledTarget s) (firstOf (sampledHost s) (sampledCommand s))

/-- The instruction that a host edge runs: the transaction handed over at it (R150, R154). -/
def hostInstr (s : State) : Option Instr :=
  if resetting s.cfg s.hostIn = false ∧ framing s.cfg s.hostIn = false then s.psm.instr else none

/-! ## The edge -/

/-- A host edge: the instruction it runs, or the PSM's own rule. -/
def hostTick (s : State) : Host.Outcome State Fault Refusal :=
  match hostInstr s with
  | some i => exec i s
  | none => hostEdge s

/-- A system edge: an instruction it runs, or an edge without one. -/
def sysTick (s : State) : Host.Outcome State Fault Refusal :=
  match sysInstr s with
  | some i => exec i s
  | none => sysEdge (presented s) s

/-- The next edge: the head of the script, or an uninterpreted one when the script is empty (log 2, log 3). -/
def nextTick (s : State) : Tick × State :=
  match s.script with
  | t :: rest => (t, { s with script := rest })
  | [] => (Config.envTick s.freeTicks, { s with freeTicks := s.freeTicks + 1 })

/-- One edge at given inputs. -/
def tick (t : Tick) (s : State) : Host.Outcome State Fault Refusal :=
  match t with
  | .host h => hostTick { s with hostIn := h }
  | .sys i => sysTick { s with sysIn := i }

/-! ## Placing an instruction before the next edge (log 10, log 11) -/

/-- A host edge with both lines inactive and the bus as LAD. -/
def plainHostTick (p : Params) (lad : Nibble) : Tick :=
  .host { lframe := !p.frameLevel, lreset := !p.frameLevel, lad := lad, promote := 0, race := false }

/-- A host edge that samples a start symbol. -/
def startHostTick (p : Params) (lad : Nibble) : Tick :=
  .host { lframe := p.frameLevel, lreset := !p.frameLevel, lad := lad, promote := 0, race := false }

/-- A system edge whose environment presents this at the target window's port. -/
def targetPortTick (q : Port 2) : Tick := .sys { SysIn.quiet with tPort := q }

/-- A system edge whose environment presents this at the host window's port. -/
def hostPortTick (q : Port 3) : Tick := .sys { SysIn.quiet with hPort := q }

/-- The first address that the map gives a wanted target, if there is one. -/
def findIoAddr (p : Params) (want : IoTarget) (l : List (IoAddr × IoTarget)) : Option IoAddr :=
  match l with
  | [] => none
  | (a, _) :: rest => if lookupIo p.ioMap a = want then some a else findIoAddr p want rest

/-- A received host-bus transaction, and the host edge that hands it over. -/
def placeTransaction (c : Command) (s : State) : State :=
  { s with
    psm := { s.psm.received c with fprev := !s.cfg.frameLevel, rprev := !s.cfg.frameLevel }
    cmdq := []
    script := plainHostTick s.cfg 0b1111 :: s.script }

/-- The I/O bus as the dispatcher drives it for an access of address a. -/
def placeOnIoBus (a : IoAddr) (we : Bool) (w : Byte) (s : State) : State :=
  { s with
    disp := { busy := true, discard := false,
              cur := { address := a.setWidth 28, data := if we then w.setWidth 32 else 0,
                       operation := if we then .ioWrite else .ioRead, size := .one } }
    io := { stb := true, we := we, adr := a, datW := w, sel := true }
    fw := { s.fw with stb := false }
    ackExpected := false }

/-- A target-window access on the window's port, driven by the bridge or by the environment (R223). -/
def placeTarget (we : Bool) (adr : BitVec 2) (w : Byte) (s : State) : State :=
  let s1 := { s with bt := { s.bt with tWin := { s.bt.tWin with st := .idle } } }
  match findIoAddr s.cfg (.btT adr) s.cfg.ioMap with
  | some a => { placeOnIoBus a we w s1 with script := .sys SysIn.quiet :: s.script }
  | none =>
    { s1 with script := targetPortTick { stb := true, we := we, adr := adr, datW := w } :: s.script }

/-- A host-window access on the window's port, driven by the bridge or by the environment (R223). -/
def placeHost (we : Bool) (adr : BitVec 3) (w : Byte) (s : State) : State :=
  let s1 := { s with bt := { s.bt with hWin := { s.bt.hWin with st := .idle } } }
  match findIoAddr s.cfg (.btH adr) s.cfg.ioMap with
  | some a => { placeOnIoBus a we w s1 with script := .sys SysIn.quiet :: s.script }
  | none =>
    { s1 with script := hostPortTick { stb := true, we := we, adr := adr, datW := w } :: s.script }

/-- A command at the visible head of the command queue, before an idle dispatcher and idle windows. -/
def placeCommand (c : Command) (s : State) : State :=
  { s with
    cmdq := [{ payload := c, vis := true, age := s.cfg.cdcMin }]
    disp := { s.disp with busy := false, discard := false }
    io := { s.io with stb := false }
    fw := { s.fw with stb := false }
    script := .sys SysIn.quiet :: s.script }

/-- An instruction at its decode point. -/
def placeInstr (i : Instr) (s : State) : State :=
  match i with
  | .lpcIoRead a => placeTransaction { address := a.setWidth 28, data := 0, operation := .ioRead, size := .one } s
  | .lpcIoWrite a d =>
    placeTransaction { address := a.setWidth 28, data := d.setWidth 32, operation := .ioWrite, size := .one } s
  | .lpcFwRead1 a => placeTransaction { address := a, data := 0, operation := .fwRead, size := .one } s
  | .lpcFwRead2 a => placeTransaction { address := a, data := 0, operation := .fwRead, size := .two } s
  | .lpcFwRead4 a => placeTransaction { address := a, data := 0, operation := .fwRead, size := .four } s
  | .lpcFwWrite1 a d =>
    placeTransaction { address := a, data := d.setWidth 32, operation := .fwWrite, size := .one } s
  | .lpcFwWrite2 a d =>
    placeTransaction { address := a, data := d.setWidth 32, operation := .fwWrite, size := .two } s
  | .lpcFwWrite4 a d => placeTransaction { address := a, data := d, operation := .fwWrite, size := .four } s
  | .tCtrlRd => placeTarget false 0 0 s
  | .tCtrlWr w => placeTarget true 0 w s
  | .tDataRd => placeTarget false 1 0 s
  | .tDataWr w => placeTarget true 1 w s
  | .tIntcfgRd => placeTarget false 2 0 s
  | .tIntcfgWr w => placeTarget true 2 w s
  | .tRsvdRd => placeTarget false 3 0 s
  | .tRsvdWr w => placeTarget true 3 w s
  | .hMaskRd => placeHost false 0 0 s
  | .hMaskWr w => placeHost true 0 w s
  | .hStatusRd => placeHost false 1 0 s
  | .hStatusWr w => placeHost true 1 w s
  | .hCtrlRd => placeHost false 4 0 s
  | .hCtrlWr w => placeHost true 4 w s
  | .hDataRd => placeHost false 5 0 s
  | .hDataWr w => placeHost true 5 w s
  | .hRsvdRd off => placeHost false off 0 s
  | .hRsvdWr off w => placeHost true off w s
  | .brIoRead a d z => placeCommand { address := a, data := d, operation := .ioRead, size := z } s
  | .brIoWrite a d z => placeCommand { address := a, data := d, operation := .ioWrite, size := z } s
  | .brFwRead a d z => placeCommand { address := a, data := d, operation := .fwRead, size := z } s
  | .brFwWrite a d z => placeCommand { address := a, data := d, operation := .fwWrite, size := z } s

/-- A host-bus word that is no instruction, at the decode point that refuses it: its MSIZE symbol for a firmware start,
otherwise its start symbol (R168, R170). -/
def placeIllegal (w : Nat) (s : State) : State :=
  let start := BitVec.ofNat 4 (w / 16)
  if start = 0b1101 ∨ start = 0b1110 then
    { s with
      psm := { s.psm with st := .fwMsize, cnt := 0, op := if start = 0b1101 then .fwRead else .fwWrite,
                          fprev := !s.cfg.frameLevel, rprev := !s.cfg.frameLevel }
      script := plainHostTick s.cfg (BitVec.ofNat 4 w) :: s.script }
  else { s with script := startHostTick s.cfg start :: s.script }

end Sys2Proof.Machine
end

