-- ==== Sys2Proof/Machine/Step.lean ====
section
/-! DEFINITION. One step: one edge of one clock (00_scope.md R6, R7, R12). -/

namespace Sys2Proof.Machine

/-- One step takes the next edge and runs it. -/
def step (s : State) : Host.Outcome State Fault Refusal :=
  tick (nextTick s).1 (nextTick s).2

/-- s with the instruction of an opcode-table word placed so that the very next step runs it (log 10). -/
def State.withFetchWord (s : State) (nbits w : Nat) : State :=
  match decodeTableWord nbits w with
  | some i => placeInstr i s
  | none => placeIllegal w s

end Sys2Proof.Machine
end

