-- ==== Sys2Proof/Safety.lean ====
section
/-! DEFINITION. What counts as a safe run: the invariants of the machine, the contracts its environment keeps, and runs over
a list of ticks. -/

namespace Sys2Proof.Machine

/-! ## Conditions on an edge's inputs -/

/-- The host edge at these inputs takes the PSM's own rule: neither line is at its active level (R156). -/
def State.hostNormal (s : State) : Prop :=
  framing s.cfg s.hostIn = false ∧ resetting s.cfg s.hostIn = false

/-- The host edge at these inputs applies no queue reset (R142). -/
def State.noQueueReset (s : State) : Prop := queueResetDue s.cfg s.hostIn s.psm = false

/-- The system edge at these inputs is no system reset (R42). -/
def State.sysRunning (s : State) : Prop := s.sysIn.sysRst = false

/-- A system edge at these inputs cannot overflow the response queue: it holds fewer than two entries (R208). -/
def State.rspRoom (s : State) : Prop := s.rspq.length < 2

/-- The PSM as a host edge leaves it, given the registers its rule wrote: the sampled levels are recorded (R142, R157). -/
def State.recordLevels (s : State) (m : Psm) : Psm := { m with fprev := s.hostIn.lframe, rprev := s.hostIn.lreset }

/-- The access the target window serves at this edge, if any (R240). -/
def State.servedTarget (s : State) : Option TAccess := s.bt.tWin.serves (presentedTarget s)

/-- The access the host window serves at this edge, if any (R240). -/
def State.servedHost (s : State) : Option HAccess := s.bt.hWin.serves (presentedHost s)

/-! ## Invariants -/

/-- One item in flight, or none: a queued command, a queued response, an outstanding transaction not discarded (R212). -/
def State.occupancy (s : State) : Nat :=
  s.cmdq.length + s.rspq.length + (if s.disp.busy && !s.disp.discard then 1 else 0)

/-- The PSM states in which its transaction is with the bridge (R212). -/
def Psm.waiting (m : Psm) : Bool :=
  match m.st with
  | .rdTar1 => m.cnt != 0
  | .wrTar1 => m.cnt != 0
  | .rdSync => true
  | .wrSync => true
  | .start => false
  | .cycleType => false
  | .fwIdsel => false
  | .ioAddr => false
  | .fwAddr => false
  | .fwMsize => false
  | .rdData => false
  | .wrData => false
  | .tar2 => false

/-- The occupancy invariant (R212): at most one item, and none unless the PSM waits for it. -/
def State.OccupancyInv (s : State) : Prop := s.occupancy ≤ if s.psm.waiting then 1 else 0

/-- Exclusive bus selection (R209), with the constant byte select (R32) and `discard` only while busy (R31). -/
def State.BusInv (s : State) : Prop :=
  s.io.stb = (s.disp.busy && isIo s.disp.cur.operation) ∧
  s.fw.stb = (s.disp.busy && !isIo s.disp.cur.operation) ∧
  s.io.sel = true ∧
  (s.disp.discard = true → s.disp.busy = true)

/-- A queue entry's age stays within `P_CDC_MIN`, and it is visible only at that age (R202). -/
def QEntry.aged {α : Type} (cdcMin : Nat) (e : QEntry α) : Prop :=
  e.age ≤ cdcMin ∧ (e.vis = true → e.age = cdcMin)

/-- No queue entry becomes visible before `P_CDC_MIN` consumer edges (R202). -/
def State.CrossingInv (s : State) : Prop :=
  (∀ e ∈ s.cmdq, e.aged s.cfg.cdcMin) ∧ (∀ e ∈ s.rspq, e.aged s.cfg.cdcMin)

/-- Operand widths of the command under assembly: an I/O transaction has size 1 and a 16-bit address (R144, R145). -/
def Psm.ioShape (m : Psm) : Prop :=
  isIo m.op = true → m.size = .one ∧ m.addr.extractLsb' 16 12 = 0

/-- A read's operation. -/
def isRead : Op → Bool
  | .ioRead => true
  | .fwRead => true
  | .ioWrite => false
  | .fwWrite => false

/-- What the PSM registers hold in each state (R141 to R155): the counter within the state's bound, and the part of the
command received so far. -/
def Psm.Coherent (m : Psm) : Prop :=
  match m.st with
  | .start => True
  | .cycleType => m.cnt = 0 ∧ m.addr = 0 ∧ m.data = 0
  | .fwIdsel => m.cnt = 0 ∧ isIo m.op = false ∧ m.addr = 0 ∧ m.data = 0
  | .ioAddr => m.cnt.toNat ≤ 3 ∧ isIo m.op = true ∧ m.ioShape ∧ m.data = 0
  | .fwAddr => m.cnt.toNat ≤ 6 ∧ isIo m.op = false ∧ m.data = 0
  | .fwMsize => m.cnt = 0 ∧ isIo m.op = false ∧ m.data = 0
  | .wrData => m.cnt.toNat < 2 * m.size.bytes ∧ isRead m.op = false ∧ m.ioShape ∧ m.data.toNat < 16 ^ m.cnt.toNat
  | .rdTar1 => m.cnt.toNat ≤ 1 ∧ isRead m.op = true ∧ m.ioShape ∧ m.data = 0
  | .wrTar1 => m.cnt.toNat ≤ 1 ∧ isRead m.op = false ∧ m.ioShape ∧ m.data.toNat < 256 ^ m.size.bytes
  | .rdSync => m.cnt = 0 ∧ isRead m.op = true ∧ m.ioShape
  | .wrSync => m.cnt = 0 ∧ isRead m.op = false ∧ m.ioShape
  | .rdData => m.cnt.toNat < 2 * m.size.bytes ∧ isRead m.op = true ∧ m.data.toNat < 256 ^ m.size.bytes
  | .tar2 => m.cnt.toNat ≤ 1

/-- What the PSM drives in each state (D7, R106, R107): nothing before SYNC; long wait in SYNC; ready in the first data
cycle; all-ones in the second turnaround cycle; in START only the one error symbol of a failed read. -/
def Psm.Drives (m : Psm) : Prop :=
  match m.st with
  | .start => m.ladEn = true → m.ladOut = 0b1010
  | .cycleType => m.ladEn = false
  | .fwIdsel => m.ladEn = false
  | .ioAddr => m.ladEn = false
  | .fwAddr => m.ladEn = false
  | .fwMsize => m.ladEn = false
  | .wrData => m.ladEn = false
  | .rdTar1 => m.ladEn = false
  | .wrTar1 => m.ladEn = false
  | .rdSync => m.ladEn = true ∧ m.ladOut = 0b0110
  | .wrSync => m.ladEn = true ∧ m.ladOut = 0b0110
  | .rdData => m.ladEn = true ∧ (m.cnt = 0 → m.ladOut = 0b0000)
  | .tar2 => m.ladEn = true ∧ (m.cnt ≠ 0 → m.ladOut = 0b1111)

/-- No FIFO holds more than `P_BT_DEPTH` bytes (R39). -/
def State.FifoInv (s : State) : Prop :=
  s.bt.fifoT2h.length ≤ s.cfg.btDepth ∧ s.bt.fifoH2t.length ≤ s.cfg.btDepth

/-- A FIFO pushed at the previous edge has its writer's window in ACK (R252). -/
def State.PushedInv (s : State) : Prop :=
  (s.bt.pushedT2h = true → s.bt.tWin.st = .ack) ∧ (s.bt.pushedH2t = true → s.bt.hWin.st = .ack)

/-- The memories of the test slaves keep their canonical form. -/
def State.MemoryInv (s : State) : Prop := s.fwSlave.mem.wf = true ∧ s.ioSlave.mem.wf = true

/-- The firmware slave's contract registers, and the attached firmware memory keeping that contract (R221, R222). -/
def State.SlaveInv (s : State) : Prop :=
  (s.fwWaited = true → s.fw.stb = true) ∧
  (s.cfg.fwMem = true → s.fwSlave.ack = true → s.fwWaited = true)

/-- The invariant of the machine. -/
structure State.Inv (s : State) : Prop where
  occupancy : s.OccupancyInv
  bus       : s.BusInv
  crossing  : s.CrossingInv
  coherent  : s.psm.Coherent
  drives    : s.psm.Drives
  fifo      : s.FifoInv
  pushed    : s.PushedInv
  memory    : s.MemoryInv
  slave     : s.SlaveInv

/-! ## Contracts of the environment -/

/-- An I/O slave other than the BT and the test RAM acknowledges only while the strobe is 1, only in the fabric's window, the
cycle after the first strobe cycle (R220), and only the transaction that holds the strobe now: an acknowledge of one that
a system reset abandoned, or that comes later than its window, is outside the contract (R222, R353, R354, I15, I16). -/
def State.IoSlaveContract (s : State) : Prop :=
  s.sysIn.ioAck = true → s.io.stb = true ∧ s.ackExpected = true ∧ s.sysIn.ioAckOf = s.ioDrives

/-- The firmware slave acknowledges only while the strobe is 1, in a cycle after the first strobe cycle of the transaction
(R221), and only the transaction that holds the strobe now: an acknowledge of one that a system reset abandoned is outside
the contract (R222, R353, I15). Of the environment's slave only; the attached memory keeps it by `State.SlaveInv`. -/
def State.FwSlaveContract (s : State) : Prop :=
  s.cfg.fwMem = false → s.sysIn.fwAck = true →
    s.fw.stb = true ∧ s.fwWaited = true ∧ s.sysIn.fwAckOf = s.fwDrives

/-- The handshake of a window's environment master at a system edge (R223), from the strobe it had at the previous system
edge and the one it has now: in the acknowledge cycle it still holds the strobe, since that edge is the one that samples
`ack`; and it drops the strobe in the cycle after. An IDLE window whose strobe was 1 at the previous edge was in ACK
there, for an IDLE window serves the strobe it samples (R240). -/
def Window.MasterHandshake (w : Window) (before now : Bool) : Prop :=
  (w.st = .ack → now = true) ∧ (w.st = .idle → before = true → now = false)

/-- The target window's environment master keeps its handshake at the next system edge, whose inputs are i; `sysIn` holds
those of the previous one (R223). A system reset ends a handshake (log 34). -/
def State.TargetMasterContract (s : State) (i : SysIn) : Prop :=
  mapsTarget s.cfg = false → i.sysRst = false →
    s.bt.tWin.MasterHandshake (s.sysIn.tPort.stb && !s.sysIn.sysRst) i.tPort.stb

/-- The host window's environment master keeps its handshake at the next system edge, whose inputs are i (R223). -/
def State.HostMasterContract (s : State) (i : SysIn) : Prop :=
  mapsHost s.cfg = false → i.sysRst = false →
    s.bt.hWin.MasterHandshake (s.sysIn.hPort.stb && !s.sysIn.sysRst) i.hPort.stb

/-! ## Runs over given ticks -/

/-- The edges of a list of ticks, one after the other. -/
def runTicks : List Tick → State → Host.Outcome State Fault Refusal
  | [], s => .next s
  | t :: ts, s =>
    match tick t s with
    | .next s1 => runTicks ts s1
    | .fault f => .fault f
    | .refused r => .refused r

/-- The host edges of a list of ticks, in order. -/
def hostInputs : List Tick → List HostIn
  | [] => []
  | .host h :: ts => h :: hostInputs ts
  | .sys _ :: ts => hostInputs ts

/-- The system edges of a list of ticks, in order. -/
def sysInputs : List Tick → List SysIn
  | [] => []
  | .host _ :: ts => sysInputs ts
  | .sys i :: ts => i :: sysInputs ts

/-- A host edge with neither line at its active level. -/
def HostIn.normal (p : Params) (h : HostIn) : Prop := framing p h = false ∧ resetting p h = false

/-- Host edges that carry a transaction's symbols: the frame line at its framing level for the first symbol only, the reset
line inactive (R109, R130). -/
def carries (p : Params) : List HostIn → List Nibble → Prop
  | [], [] => True
  | h :: hs, n :: ns =>
    framing p h = true ∧ resetting p h = false ∧ h.lad = n ∧
      hs.map HostIn.lad = ns ∧ ∀ g ∈ hs, HostIn.normal p g
  | [], _ :: _ => False
  | _ :: _, [] => False

/-! ## Infinite runs, and the clock schedule (R7, R9) -/

/-- A run from s under a clock schedule (R7, `P_CLOCK_SCHEDULE` of R9): the edges in an interleaving that the schedule
admits, each edge taking one state to the next. -/
structure Run (sched : ClockSchedule) (s : State) where
  ticks    : Nat → Tick
  states   : Nat → State
  start    : states 0 = s
  edge     : ∀ n, tick (ticks n) (states n) = .next (states (n + 1))
  schedule : sched (fun n => (ticks n).domain)

/-- The fairness of the draw `promote` (R202): a queue that holds an entry has it visible, or consumed, after finitely many
edges. -/
def Run.PromotesFairly {sched : ClockSchedule} {s : State} (r : Run sched s) : Prop :=
  ∀ n, (∃ m, n < m ∧ ((r.states m).cmdq = [] ∨ visibleHead (r.states m).cmdq ≠ none)) ∧
    (∃ m, n < m ∧ ((r.states m).rspq = [] ∨ visibleHead (r.states m).rspq ≠ none))

/-! ## Edges without an access, for frames -/

/-- The system edge at these inputs with nothing at the target window's port: what every other part of the edge does. -/
def withoutTarget (s : State) : Host.Outcome State Fault Refusal := sysEdge { presented s with target := none } s

/-- The system edge at these inputs with nothing at the host window's port. -/
def withoutHost (s : State) : Host.Outcome State Fault Refusal := sysEdge { presented s with host := none } s

/-- The byte of the target window's control write at this edge; 0 when there is none (R246). -/
def State.targetCtrl (s : State) : Byte := (s.servedTarget.getD TAccess.idle).ctrl

/-- The byte of the host window's control write at this edge; 0 when there is none (R246). -/
def State.hostCtrl (s : State) : Byte := (s.servedHost.getD HAccess.idle).ctrl

/-- The same state with `P_WRDY_DIP` set to b (R252). -/
def State.withDip (b : Bool) (s : State) : State := { s with cfg := { s.cfg with wrdyDip := b } }

/-! ## Sequences of window accesses by environment masters (R223, R255) -/

/-- A system edge at which the target window's master accesses and the host window's master does not. -/
def SysIn.targetAccesses (we : Bool) (adr : BitVec 2) (w : Byte) (i : SysIn) : Prop :=
  i.sysRst = false ∧ i.tPort = { stb := true, we := we, adr := adr, datW := w } ∧ i.hPort.stb = false

/-- A system edge at which the host window's master accesses and the target window's master does not. -/
def SysIn.hostAccesses (we : Bool) (adr : BitVec 3) (w : Byte) (i : SysIn) : Prop :=
  i.sysRst = false ∧ i.hPort = { stb := true, we := we, adr := adr, datW := w } ∧ i.tPort.stb = false

/-- A system edge at which the target window's master does not access. -/
def SysIn.noTarget (i : SysIn) : Prop := i.sysRst = false ∧ i.tPort.stb = false

/-- A system edge at which the host window's master does not access. -/
def SysIn.noHost (i : SysIn) : Prop := i.sysRst = false ∧ i.hPort.stb = false

/-- System edges that make one access per byte. The edge after an access ends its acknowledge cycle: the master's own strobe,
not sampled there (R240), is 1 if it keeps its handshake (R223) and may be anything here; `acked` says what else that edge
keeps to. Before and after an access there may be edges without one: at least one after each if the master keeps its
handshake, none if it holds its strobe for one access per two edges (R363). -/
inductive AccessSequence (access : Byte → SysIn → Prop) (acked : SysIn → Prop) : List SysIn → List Byte → Prop where
  | done : AccessSequence access acked [] []
  | idle {i : SysIn} {is : List SysIn} {bs : List Byte} : SysIn.noTarget i → SysIn.noHost i →
      AccessSequence access acked is bs → AccessSequence access acked (i :: is) bs
  | access {i j : SysIn} {is : List SysIn} {b : Byte} {bs : List Byte} : access b i → acked j →
      AccessSequence access acked is bs → AccessSequence access acked (i :: j :: is) (b :: bs)

end Sys2Proof.Machine
end

