-- ==== Sys2Proof/Certificates/Slice0/Obligations.lean ====
section
/-! DEFINITION. The statements about the model, for the provers. -/

open Sys2Proof Sys2Proof.Machine

/-! ## Reset -/

/-- R341 with the reset columns of R20, R21, R28, R29, R31 to R35, R37 to R41: the power-on state, for every choice of the
parameters; `fprev` and `rprev` are 1 for the default `P_FRAME_LEVEL`. -/
def Obligations.PowerOnState : Prop :=
  State.reset = State.powerOn Params.default ∧
  ∀ p : Params, ∀ s : State, s = State.powerOn p →
    (s.psm.st = .start ∧ s.psm.cnt = 0 ∧ s.psm.op = .ioRead ∧ s.psm.size = .one ∧ s.psm.addr = 0 ∧ s.psm.data = 0 ∧
      s.psm.ladOut = 0b0000 ∧ s.psm.ladEn = false ∧ s.psm.wire = none) ∧
    (p.frameLevel = false → s.psm.fprev = true ∧ s.psm.rprev = true) ∧
    (s.cmdq = [] ∧ s.rspq = []) ∧
    (s.disp.busy = false ∧ s.disp.discard = false ∧
      s.disp.cur = { address := 0, data := 0, operation := .ioRead, size := .one }) ∧
    (s.io.stb = false ∧ s.io.we = false ∧ s.io.adr = 0 ∧ s.io.datW = 0 ∧ s.io.sel = true) ∧
    (s.fw.stb = false ∧ s.fw.we = false ∧ s.fw.adr = 0 ∧ s.fw.datW = 0 ∧ s.fw.sel = 0) ∧
    s.ackExpected = false ∧
    (s.bt.flags.t2bAttn = false ∧ s.bt.flags.b2tAttn = false ∧ s.bt.flags.smsAttn = false ∧
      s.bt.flags.platRsvd = false ∧ s.bt.flags.targetBusy = false ∧ s.bt.flags.bmcBusy = false) ∧
    (s.bt.hMask = 0 ∧ s.bt.hStatus = 0 ∧ s.bt.tEn = false ∧ s.bt.tPend = false) ∧
    (s.bt.fifoT2h = [] ∧ s.bt.fifoH2t = [] ∧ s.bt.clrT2h = false ∧ s.bt.clrH2t = false) ∧
    (s.bt.tWin.st = .idle ∧ s.bt.tWin.datR = 0 ∧ s.bt.hWin.st = .idle ∧ s.bt.hWin.datR = 0) ∧
    (hostIrq s.bt = false ∧ targetIrq s.bt = false)

/-! ## Encoding -/

/-- Decoding an encoded well-formed instruction gives it back, for every choice of the nibble orders and of the IDSEL. -/
def Obligations.DecodeOfEncode : Prop :=
  ∀ (p : Params) (i : Instr), i.wf = true → decode p (encode p i) = .ok i

/-- Words written out from the spec's own encodings (R110 to R113, R120, R121, R123, V1, V2) decode to their instructions. -/
def Obligations.SpecWordsDecode : Prop :=
  decode Params.default (.lpc [0x0, 0x0, 0x8, 0xF, 0x3, 0x0, 0xF, 0xF]) = .ok (.lpcIoRead 0x03F8) ∧
  decode Params.default (.lpc [0x0, 0x2, 0x8, 0xF, 0x3, 0x0, 0x1, 0x3, 0xF, 0xF]) = .ok (.lpcIoWrite 0x03F8 0x13) ∧
  decode Params.default (.lpc [0xE, 0x0, 0x2, 0x0, 0x0, 0x1, 0x0, 0x0, 0x0, 0x1, 0xB, 0xE, 0xE, 0xF, 0xF, 0xF]) =
    .ok (.lpcFwWrite2 0x0001002 0xBEEF) ∧
  decode Params.default (.lpc [0xD, 0x0, 0x1, 0x2, 0x3, 0x4, 0x5, 0x6, 0x7, 0x2, 0xF, 0xF]) =
    .ok (.lpcFwRead4 0x7654321) ∧
  decode Params.default (.target true 0b01 0x41) = .ok (.tDataWr 0x41) ∧
  decode Params.default (.host false 0b101 0x00) = .ok .hDataRd ∧
  decode Params.default (.host true 0b110 0xFF) = .ok (.hRsvdWr 6 0xFF) ∧
  decode Params.default (.bridge 3 0x0001002 0xBEEF 1) = .ok (.brFwWrite 0x0001002 0xBEEF .two)

/-- Every value of the ignored symbols (bit 0 of the cycle type, an accepted IDSEL, the turnaround) decodes to the same
instruction (R102, R104, R107, R109). -/
def Obligations.EveryIgnoredSymbolDecodes : Prop :=
  ∀ (p : Params) (ct idsel t1 t2 : Nibble), idselAccepted p idsel = true →
    (∀ a : IoAddr, ct.extractLsb' 1 3 = 0b000 →
      decode p (.lpc ([0b0000, ct] ++ toNibbles p.addrOrder 4 a.toNat ++ [t1, t2])) = .ok (.lpcIoRead a)) ∧
    (∀ (a : IoAddr) (d : Byte), ct.extractLsb' 1 3 = 0b001 →
      decode p (.lpc ([0b0000, ct] ++ toNibbles p.addrOrder 4 a.toNat ++ toNibbles p.wdataOrder 2 d.toNat ++ [t1, t2])) =
        .ok (.lpcIoWrite a d)) ∧
    (∀ (z : Size) (a : FwAddr),
      decode p (.lpc ([0b1101, idsel] ++ toNibbles p.addrOrder 7 a.toNat ++ [z.msize] ++ [t1, t2])) =
        .ok (fwReadInstr z a)) ∧
    (∀ (z : Size) (a : FwAddr) (d : Word), d.toNat < 256 ^ z.bytes →
      decode p (.lpc ([0b1110, idsel] ++ toNibbles p.addrOrder 7 a.toNat ++ [z.msize] ++
          toNibbles p.wdataOrder (2 * z.bytes) d.toNat ++ [t1, t2])) = .ok (fwWriteInstr z a d.toNat))

/-- The decoder refuses, by name, every illegal symbol at the decode point that meets it (R114). -/
def Obligations.IllegalSymbolsRefused : Prop :=
  ∀ (p : Params) (l : List Nibble),
    (∀ n : Nibble, n ≠ 0b0000 → n ≠ 0b1101 → n ≠ 0b1110 → decode p (.lpc (n :: l)) = .error (.illegalStart n)) ∧
    (∀ ct : Nibble, 4 ≤ ct.toNat → decode p (.lpc (0b0000 :: ct :: l)) = .error (.unsupportedCycleType ct)) ∧
    (∀ (start idsel m : Nibble) (a : List Nibble), start = 0b1101 ∨ start = 0b1110 → idselAccepted p idsel = true →
      a.length = 7 → 3 ≤ m.toNat →
      decode p (.lpc (start :: idsel :: (a ++ m :: l))) = .error (.unsupportedMsize m))

/-! ## The PSM receives transactions -/

/-- The PSM implements the decoder: from any state, whatever it interrupts, once the host edges of a run have carried the
symbols of a transaction up to its turnaround, with any system edges in between, the PSM's registers hold the
instruction the decoder reads from those symbols, and the next undisturbed host edge hands it over (R141 to R149, R171). -/
def Obligations.ReceivedTransactionIsDecoded : Prop :=
  ∀ (s t : State) (ts : List Tick) (syms : List Nibble) (t1 t2 : Nibble) (i : Instr),
    decode s.cfg (.lpc (syms ++ [t1, t2])) = .ok i →
    carries s.cfg (hostInputs ts) syms →
    runTicks ts s = .next t →
    t.psm.instr = some i

/-- R168, R169, R170: an illegal start symbol leaves the PSM in START with the bus released, nothing enqueued, both queues
empty and any outstanding transaction to be discarded; an unsupported cycle type and an unsupported MSIZE give START,
with no other command register written and nothing enqueued. -/
def Obligations.IllegalSymbolsAbort : Prop :=
  ∀ s : State,
    (framing s.cfg s.hostIn = true → resetting s.cfg s.hostIn = false →
      s.hostIn.lad ≠ 0b0000 → s.hostIn.lad ≠ 0b1101 → s.hostIn.lad ≠ 0b1110 →
      ∃ t, hostTick s = .next t ∧ t.psm.st = .start ∧ t.psm.wire = none ∧ t.cmdq = [] ∧ t.rspq = [] ∧
        (t.disp.busy = true → t.disp.discard = true)) ∧
    (s.hostNormal → s.psm.st = .cycleType → 4 ≤ s.hostIn.lad.toNat →
      ∃ t, hostTick s = .next t ∧ t.psm = s.recordLevels { s.psm with st := .start } ∧ (t.cmdq = s.cmdq ∨ t.cmdq = [])) ∧
    (s.hostNormal → s.psm.st = .fwMsize → 3 ≤ s.hostIn.lad.toNat →
      ∃ t, hostTick s = .next t ∧ t.psm = s.recordLevels { s.psm with st := .start } ∧ (t.cmdq = s.cmdq ∨ t.cmdq = []))

/-! ## Aborts and the queue reset -/

/-- R140: a reset edge forces START, clears `cnt` and releases the bus, keeps every other command register, and the queue
reset fires. -/
def Obligations.ResetEdge : Prop :=
  ∀ s : State, resetting s.cfg s.hostIn = true →
    ∃ t, hostTick s = .next t ∧
      t.psm = { s.psm with st := .start, cnt := 0, ladEn := false, fprev := s.hostIn.lframe, rprev := s.hostIn.lreset } ∧
      t.cmdq = [] ∧ t.rspq = [] ∧ (t.disp.busy = true → t.disp.discard = true)

/-- R141: the start decode, in every state. -/
def Obligations.StartDecodeEdge : Prop :=
  ∀ s : State, framing s.cfg s.hostIn = true → resetting s.cfg s.hostIn = false →
    ∃ t, hostTick s = .next t ∧
      (s.hostIn.lad = 0b0000 →
        t.psm = s.recordLevels { s.psm with ladEn := false, cnt := 0, addr := 0, data := 0, st := .cycleType }) ∧
      (s.hostIn.lad = 0b1101 →
        t.psm = s.recordLevels
          { s.psm with ladEn := false, cnt := 0, addr := 0, data := 0, op := .fwRead, st := .fwIdsel }) ∧
      (s.hostIn.lad = 0b1110 →
        t.psm = s.recordLevels
          { s.psm with ladEn := false, cnt := 0, addr := 0, data := 0, op := .fwWrite, st := .fwIdsel }) ∧
      (s.hostIn.lad ≠ 0b0000 → s.hostIn.lad ≠ 0b1101 → s.hostIn.lad ≠ 0b1110 →
        t.psm = s.recordLevels { s.psm with ladEn := false, cnt := 0, addr := 0, data := 0, st := .start })

/-- R171, R172, R320: an abort edge, in any state, releases the bus, leaves the PSM in START or the first state of a new
transaction, empties both queues, leaves any outstanding transaction to be discarded, and touches no BT state. -/
def Obligations.AbortInAnyState : Prop :=
  ∀ s : State, framing s.cfg s.hostIn = true ∨ resetting s.cfg s.hostIn = true →
    ∃ t, hostTick s = .next t ∧
      (t.psm.st = .start ∨ t.psm.st = .cycleType ∨ t.psm.st = .fwIdsel) ∧
      (resetting s.cfg s.hostIn = true → t.psm.st = .start) ∧
      t.psm.cnt = 0 ∧ t.psm.wire = none ∧ t.cmdq = [] ∧ t.rspq = [] ∧
      (t.disp.busy = true → t.disp.discard = true) ∧
      (s.disp.busy = true → t.disp = { s.disp with discard := true } ∧ t.io = s.io ∧ t.fw = s.fw) ∧
      (t.bt = s.bt ∧ t.ackExpected = s.ackExpected ∧ t.fwSlave = s.fwSlave ∧ t.ioSlave = s.ioSlave)

/-- R142, R364: after an edge that samples an active line the queues are empty at that host edge and at the next one, with
any system edges in between, and a transaction then outstanding is discarded. -/
def Obligations.QueueResetLastsTwoEdges : Prop :=
  ∀ (s s1 s2 s3 : State) (h1 h2 : HostIn) (ts : List Tick),
    framing s.cfg h1 = true ∨ resetting s.cfg h1 = true →
    tick (.host h1) s = .next s1 → hostInputs ts = [] → runTicks ts s1 = .next s2 → tick (.host h2) s2 = .next s3 →
    (s1.cmdq = [] ∧ s1.rspq = []) ∧ (s2.cmdq = [] ∧ s2.rspq = []) ∧ (s3.cmdq = [] ∧ s3.rspq = []) ∧
      (s3.disp.busy = true → s3.disp.discard = true)

/-- R210: what a host edge with the queue reset due does to the queues, the dispatcher and the buses: a busy dispatcher will
discard; a visible head is dropped or, if the draw says so, dispatched to be discarded; whatever the draw, both queues
end empty, and the BT and the fabric are not written. -/
def Obligations.QueueResetEdge : Prop :=
  ∀ s t : State, queueResetDue s.cfg s.hostIn s.psm = true → hostTick s = .next t →
    (t.cmdq = [] ∧ t.rspq = [] ∧ t.bt = s.bt ∧ t.ackExpected = s.ackExpected) ∧
    (s.disp.busy = true → t.disp = { s.disp with discard := true } ∧ t.io = s.io ∧ t.fw = s.fw) ∧
    (∀ c, s.disp.busy = false → visibleHead s.cmdq = some c → s.hostIn.race = true →
      t.disp = { busy := true, discard := true, cur := c } ∧
      (c.operation = .ioRead ∨ c.operation = .ioWrite →
        t.io = { stb := true, we := decide (c.operation = .ioWrite), adr := c.address.extractLsb' 0 16,
                 datW := c.data.extractLsb' 0 8, sel := true } ∧ t.fw = s.fw) ∧
      (c.operation = .fwRead ∨ c.operation = .fwWrite → t.fw = driveFw c ∧ t.io = s.io)) ∧
    (s.disp.busy = false → visibleHead s.cmdq = none ∨ s.hostIn.race = false →
      t.disp = s.disp ∧ t.io = s.io ∧ t.fw = s.fw)

/-- R213: a host edge with the queue reset due leaves nothing in flight, and no list of system edges after it brings a
response or a command into being. -/
def Obligations.QueueResetLeavesNothing : Prop :=
  ∀ (s t u : State) (ts : List Tick), queueResetDue s.cfg s.hostIn s.psm = true → hostTick s = .next t →
    hostInputs ts = [] → runTicks ts t = .next u →
    t.occupancy = 0 ∧ u.occupancy = 0 ∧ u.cmdq = [] ∧ u.rspq = []

/-! ## The PSM's rules, state by state -/

/-- R143, R144, R146, R148: START, CYCLETYPE, FWIDSEL and FWMSIZE. -/
def Obligations.PsmDecodingStates : Prop :=
  ∀ s : State, s.hostNormal →
    (s.psm.st = .start →
      ∃ t, hostTick s = .next t ∧ t.psm = s.recordLevels { s.psm with st := .start, ladEn := false }) ∧
    (s.psm.st = .cycleType →
      ∃ t, hostTick s = .next t ∧
        (s.hostIn.lad.extractLsb' 1 3 = 0b000 →
          t.psm = s.recordLevels { s.psm with op := .ioRead, size := .one, cnt := 0, st := .ioAddr }) ∧
        (s.hostIn.lad.extractLsb' 1 3 = 0b001 →
          t.psm = s.recordLevels { s.psm with op := .ioWrite, size := .one, cnt := 0, st := .ioAddr }) ∧
        (s.hostIn.lad.extractLsb' 1 3 ≠ 0b000 → s.hostIn.lad.extractLsb' 1 3 ≠ 0b001 →
          t.psm = s.recordLevels { s.psm with st := .start })) ∧
    (s.psm.st = .fwIdsel →
      ∃ t, hostTick s = .next t ∧
        ((s.cfg.fwIdsel = none ∨ s.cfg.fwIdsel = some s.hostIn.lad) →
          t.psm = s.recordLevels { s.psm with cnt := 0, st := .fwAddr }) ∧
        (∀ v, s.cfg.fwIdsel = some v → s.hostIn.lad ≠ v → t.psm = s.recordLevels { s.psm with st := .start })) ∧
    (s.psm.st = .fwMsize →
      ∃ t, hostTick s = .next t ∧
        (∀ z, (s.hostIn.lad = 0b0000 ∧ z = Size.one) ∨ (s.hostIn.lad = 0b0001 ∧ z = Size.two) ∨
            (s.hostIn.lad = 0b0010 ∧ z = Size.four) →
          t.psm = s.recordLevels
            { s.psm with size := z, cnt := 0, st := if s.psm.op = .fwRead then .rdTar1 else .wrData }) ∧
        (3 ≤ s.hostIn.lad.toNat → t.psm = s.recordLevels { s.psm with st := .start }))

/-- R145, R147: the address states, in either nibble order. -/
def Obligations.PsmAddressStates : Prop :=
  ∀ s : State, s.hostNormal →
    (s.psm.st = .ioAddr →
      ∃ t, hostTick s = .next t ∧
        (s.cfg.addrOrder = .lsnFirst →
          t.psm.addr = s.psm.addr.extractLsb' 16 12 ++ (s.hostIn.lad ++ s.psm.addr.extractLsb' 4 12)) ∧
        (s.cfg.addrOrder = .msnFirst →
          t.psm.addr = s.psm.addr.extractLsb' 16 12 ++ (s.psm.addr.extractLsb' 0 12 ++ s.hostIn.lad)) ∧
        (s.psm.cnt = 3 → t.psm.cnt = 0 ∧ t.psm.st = if s.psm.op = .ioRead then .rdTar1 else .wrData) ∧
        (s.psm.cnt ≠ 3 → t.psm.cnt = s.psm.cnt + 1 ∧ t.psm.st = .ioAddr) ∧
        { t.psm with addr := s.psm.addr, cnt := s.psm.cnt, st := s.psm.st } = s.recordLevels s.psm) ∧
    (s.psm.st = .fwAddr →
      ∃ t, hostTick s = .next t ∧
        (s.cfg.addrOrder = .lsnFirst → t.psm.addr = s.hostIn.lad ++ s.psm.addr.extractLsb' 4 24) ∧
        (s.cfg.addrOrder = .msnFirst → t.psm.addr = s.psm.addr.extractLsb' 0 24 ++ s.hostIn.lad) ∧
        (s.psm.cnt = 6 → t.psm.cnt = 0 ∧ t.psm.st = .fwMsize) ∧
        (s.psm.cnt ≠ 6 → t.psm.cnt = s.psm.cnt + 1 ∧ t.psm.st = .fwAddr) ∧
        { t.psm with addr := s.psm.addr, cnt := s.psm.cnt, st := s.psm.st } = s.recordLevels s.psm)

/-- R149: one write-data nibble, in the document's order; the last one ends the state. -/
def Obligations.PsmWriteDataState : Prop :=
  ∀ s : State, s.hostNormal → s.psm.st = .wrData →
    ∃ t, hostTick s = .next t ∧
      (s.cfg.wdataOrder = .msnFirst → t.psm.data = (s.psm.data <<< 4) ||| s.hostIn.lad.setWidth 32) ∧
      (s.cfg.wdataOrder = .lsnFirst →
        t.psm.data.extractLsb' (4 * s.psm.cnt.toNat) 4 = s.hostIn.lad ∧
        ∀ k, k < 8 → k ≠ s.psm.cnt.toNat → t.psm.data.extractLsb' (4 * k) 4 = s.psm.data.extractLsb' (4 * k) 4) ∧
      (s.psm.cnt.toNat = 2 * s.psm.size.bytes - 1 → t.psm.cnt = 0 ∧ t.psm.st = .wrTar1) ∧
      (s.psm.cnt.toNat ≠ 2 * s.psm.size.bytes - 1 → t.psm.cnt = s.psm.cnt + 1 ∧ t.psm.st = .wrData) ∧
      { t.psm with data := s.psm.data, cnt := s.psm.cnt, st := s.psm.st } = s.recordLevels s.psm

/-- R150, R154: the first turnaround edge enqueues the command in the registers, the second sets up the first long wait. -/
def Obligations.PsmTurnaroundBeforeSync : Prop :=
  ∀ (s : State) (tar sync : PsmState), (tar = .rdTar1 ∧ sync = .rdSync) ∨ (tar = .wrTar1 ∧ sync = .wrSync) →
    s.hostNormal → s.noQueueReset → s.psm.st = tar → s.cmdq.length < 2 →
    (s.psm.cnt = 0 →
      ∃ t, hostTick s = .next t ∧ t.psm = s.recordLevels { s.psm with cnt := 1 } ∧
        t.cmdq = s.cmdq ++
          [{ payload := { address := s.psm.addr, data := s.psm.data, operation := s.psm.op, size := s.psm.size },
             vis := false, age := 0 }]) ∧
    (s.psm.cnt ≠ 0 →
      ∃ t, hostTick s = .next t ∧
        t.psm = s.recordLevels { s.psm with ladOut := 0b0110, ladEn := true, cnt := 0, st := sync } ∧
        t.cmdq = s.cmdq)

/-- R151: RDSYNC waits for a visible response, then shows ready and latches the narrowed data, or shows error and goes to
START; the response is taken from the queue as promotion at this edge leaves it. -/
def Obligations.PsmReadSync : Prop :=
  ∀ s : State, s.hostNormal → s.noQueueReset → s.psm.st = .rdSync →
    ∀ q, q = promote s.cfg.cdcMin s.hostIn.promote s.rspq →
    (visibleHead q = none →
      ∃ t, hostTick s = .next t ∧ t.psm = s.recordLevels { s.psm with ladOut := 0b0110 } ∧ t.rspq = q) ∧
    (∀ r, visibleHead q = some r → r.error = true →
      ∃ t, hostTick s = .next t ∧ t.psm = s.recordLevels { s.psm with ladOut := 0b1010, st := .start } ∧
        t.rspq = q.tail) ∧
    (∀ r, visibleHead q = some r → r.error = false →
      ∃ t, hostTick s = .next t ∧
        (∃ d : Word, d.toNat = r.data.toNat % 256 ^ s.psm.size.bytes ∧
          t.psm = s.recordLevels { s.psm with data := d, ladOut := 0b0000, cnt := 0, st := .rdData }) ∧
        t.rspq = q.tail)

/-- R155: WRSYNC waits for a visible response, then shows ready or error and goes to TAR2. -/
def Obligations.PsmWriteSync : Prop :=
  ∀ s : State, s.hostNormal → s.noQueueReset → s.psm.st = .wrSync →
    ∀ q, q = promote s.cfg.cdcMin s.hostIn.promote s.rspq →
    (visibleHead q = none →
      ∃ t, hostTick s = .next t ∧ t.psm = s.recordLevels { s.psm with ladOut := 0b0110 } ∧ t.rspq = q) ∧
    (∀ r, visibleHead q = some r →
      ∃ t, hostTick s = .next t ∧
        t.psm = s.recordLevels
          { s.psm with ladOut := if r.error = true then 0b1010 else 0b0000, cnt := 0, st := .tar2 } ∧
        t.rspq = q.tail)

/-- R152, R153: RDDATA drives its next nibble in either order; TAR2 drives all-ones, then releases. -/
def Obligations.PsmReadDataAndRelease : Prop :=
  ∀ s : State, s.hostNormal →
    (s.psm.st = .rdData → s.psm.cnt.toNat < 2 * s.psm.size.bytes →
      ∃ t, hostTick s = .next t ∧
        (s.cfg.rdataOrder = .lsnFirst →
          t.psm.ladOut.toNat = s.psm.data.toNat / 16 ^ s.psm.cnt.toNat % 16) ∧
        (s.cfg.rdataOrder = .msnFirst →
          t.psm.ladOut.toNat = s.psm.data.toNat / 16 ^ (2 * s.psm.size.bytes - 1 - s.psm.cnt.toNat) % 16) ∧
        (s.psm.cnt.toNat = 2 * s.psm.size.bytes - 1 → t.psm.cnt = 0 ∧ t.psm.st = .tar2) ∧
        (s.psm.cnt.toNat ≠ 2 * s.psm.size.bytes - 1 → t.psm.cnt = s.psm.cnt + 1 ∧ t.psm.st = .rdData) ∧
        { t.psm with ladOut := s.psm.ladOut, cnt := s.psm.cnt, st := s.psm.st } = s.recordLevels s.psm) ∧
    (s.psm.st = .tar2 →
      ∃ t, hostTick s = .next t ∧
        (s.psm.cnt = 0 → t.psm = s.recordLevels { s.psm with ladOut := 0b1111, ladEn := true, cnt := 1 }) ∧
        (s.psm.cnt ≠ 0 → t.psm = s.recordLevels { s.psm with ladEn := false, cnt := 0, st := .start }))

/-- R152, R153, R160 to R164: from the ready cycle of a read, the wire shows, after n undisturbed host edges with any
system edges in between, the n-th data nibble, then all-ones, then nothing, with the PSM back in START. -/
def Obligations.ReadDataOnTheWire : Prop :=
  ∀ (s t : State) (ts : List Tick), s.psm.st = .rdData → s.psm.cnt = 0 → s.psm.ladEn = true →
    (∀ h ∈ hostInputs ts, HostIn.normal s.cfg h) → runTicks ts s = .next t →
    (∀ k, k < 2 * s.psm.size.bytes → (hostInputs ts).length = k + 1 → s.cfg.rdataOrder = .lsnFirst →
      t.psm.wire = some (BitVec.ofNat 4 (s.psm.data.toNat / 16 ^ k))) ∧
    (∀ k, k < 2 * s.psm.size.bytes → (hostInputs ts).length = k + 1 → s.cfg.rdataOrder = .msnFirst →
      t.psm.wire = some (BitVec.ofNat 4 (s.psm.data.toNat / 16 ^ (2 * s.psm.size.bytes - 1 - k)))) ∧
    ((hostInputs ts).length = 2 * s.psm.size.bytes + 1 → t.psm.wire = some 0b1111) ∧
    ((hostInputs ts).length = 2 * s.psm.size.bytes + 2 → t.psm.wire = none ∧ t.psm.st = .start)

/-- R106: while it polls, the PSM drives long wait, ready or error, and never anything else. -/
def Obligations.SyncSymbols : Prop :=
  ∀ s t : State, s.Inv → s.hostNormal → s.psm.st = .rdSync ∨ s.psm.st = .wrSync → hostTick s = .next t →
    s.psm.wire = some 0b0110 ∧
    ((t.psm.st = s.psm.st ∧ t.psm.wire = some 0b0110) ∨
     (t.psm.st ≠ s.psm.st ∧ (t.psm.wire = some 0b0000 ∨ t.psm.wire = some 0b1010)))

/-! ## Host-bus transactions -/

/-- R160, R162 to R164: a read completes its hand-over, and the whole state after it: the command record in the registers
and at the tail of the command queue, the response queue aged, the levels recorded, everything else unchanged. -/
def Obligations.LpcReadsHandOver : Prop :=
  ∀ s : State, s.hostNormal → s.noQueueReset → s.cmdq.length < 2 →
    (∀ a : IoAddr, exec (.lpcIoRead a) s = .next { s with
      psm := s.recordLevels { s.psm with st := .rdTar1, cnt := 1, op := .ioRead, size := .one, addr := a.setWidth 28, data := 0 }
      cmdq := s.cmdq ++
        [{ payload := { address := a.setWidth 28, data := 0, operation := .ioRead, size := .one }, vis := false, age := 0 }]
      rspq := promote s.cfg.cdcMin s.hostIn.promote s.rspq }) ∧
    (∀ (a : FwAddr) (i : Instr) (z : Size), (i = .lpcFwRead1 a ∧ z = .one) ∨ (i = .lpcFwRead2 a ∧ z = .two) ∨
        (i = .lpcFwRead4 a ∧ z = .four) →
      exec i s = .next { s with
        psm := s.recordLevels { s.psm with st := .rdTar1, cnt := 1, op := .fwRead, size := z, addr := a, data := 0 }
        cmdq := s.cmdq ++
          [{ payload := { address := a, data := 0, operation := .fwRead, size := z }, vis := false, age := 0 }]
        rspq := promote s.cfg.cdcMin s.hostIn.promote s.rspq })

/-- R161, R165 to R167: a write completes its hand-over, and the whole state after it. -/
def Obligations.LpcWritesHandOver : Prop :=
  ∀ s : State, s.hostNormal → s.noQueueReset → s.cmdq.length < 2 →
    (∀ (a : IoAddr) (d : Byte), exec (.lpcIoWrite a d) s = .next { s with
      psm := s.recordLevels { s.psm with
        st := .wrTar1, cnt := 1, op := .ioWrite, size := .one, addr := a.setWidth 28, data := d.setWidth 32 }
      cmdq := s.cmdq ++
        [{ payload := { address := a.setWidth 28, data := d.setWidth 32, operation := .ioWrite, size := .one },
           vis := false, age := 0 }]
      rspq := promote s.cfg.cdcMin s.hostIn.promote s.rspq }) ∧
    (∀ (a : FwAddr) (d : Word) (i : Instr) (z : Size),
        (∃ b : BitVec 8, i = .lpcFwWrite1 a b ∧ d = b.setWidth 32 ∧ z = .one) ∨
        (∃ b : BitVec 16, i = .lpcFwWrite2 a b ∧ d = b.setWidth 32 ∧ z = .two) ∨
        (i = .lpcFwWrite4 a d ∧ z = .four) →
      exec i s = .next { s with
        psm := s.recordLevels { s.psm with st := .wrTar1, cnt := 1, op := .fwWrite, size := z, addr := a, data := d }
        cmdq := s.cmdq ++
          [{ payload := { address := a, data := d, operation := .fwWrite, size := z }, vis := false, age := 0 }]
        rspq := promote s.cfg.cdcMin s.hostIn.promote s.rspq })

/-- R140, R141, R171, R172, R201: where a hand-over does not complete: into a full command queue it is the fault the spec
names; at an edge that samples an active line no transaction is handed over. -/
def Obligations.LpcHandOverStopped : Prop :=
  ∀ (s : State) (c : Command) (i : Instr), c.toLpc = some i →
    (s.hostNormal → s.cmdq.length = 2 → exec i s = .fault .cmdQueueOverflow) ∧
    (framing s.cfg s.hostIn = true ∨ resetting s.cfg s.hostIn = true →
      ∃ t, exec i s = .next t ∧ t.cmdq = [] ∧ t.rspq = [] ∧ t.psm.wire = none ∧
        (t.psm.st = .start ∨ t.psm.st = .cycleType ∨ t.psm.st = .fwIdsel))

/-- R150, R154, R160 to R167: what a coherent PSM hands over is always one of the eight transactions. -/
def Obligations.HandedOverCommandIsInstr : Prop :=
  ∀ s : State, s.psm.Coherent → (s.psm.st = .rdTar1 ∨ s.psm.st = .wrTar1) → s.psm.cnt = 0 →
    ∃ i, s.psm.instr = some i ∧ s.psm.command.toLpc = some i

/-! ## Domains and the step -/

/-- R30, R340: a host edge without a queue reset changes nothing outside the PSM and the queues. -/
def Obligations.HostEdgeFrame : Prop :=
  ∀ s t : State, s.noQueueReset → hostTick s = .next t →
    t = { s with psm := t.psm, cmdq := t.cmdq, rspq := t.rspq } ∧
    (t.cmdq = s.cmdq ∨ ∃ c, t.cmdq = s.cmdq ++ [{ payload := c, vis := false, age := 0 }]) ∧
    t.psm.fprev = s.hostIn.lframe ∧ t.psm.rprev = s.hostIn.lreset

/-- R340, R342, R220: a system edge, a system reset included, changes no PSM register, and one without a reset steps the
fabric's window register and the firmware slave contract's (log 33); and no step changes a parameter. -/
def Obligations.SystemEdgeLeavesHostDomain : Prop :=
  (∀ s t : State, sysTick s = .next t → t.psm = s.psm ∧ t.hostIn = s.hostIn ∧ t.script = s.script) ∧
  (∀ s t : State, s.sysRunning → sysTick s = .next t →
    t.ackExpected = (s.io.stb && !s.ackExpected) ∧ t.fwWaited = (s.fw.stb && t.fw.stb)) ∧
  (∀ s t : State, step s = .next t → t.cfg = s.cfg)

/-- A step runs the instruction that stands at a decode point of the edge it takes: at a host edge the transaction the PSM
hands over, at a system edge the access each window samples and the command the dispatcher takes; an edge at which no
decode point takes one is the edge by itself. -/
def Obligations.StepRunsDecodedInstruction : Prop :=
  ∀ (s s1 : State),
    (∀ h, nextTick s = (.host h, s1) →
      (∀ i, hostInstr { s1 with hostIn := h } = some i → step s = exec i { s1 with hostIn := h }) ∧
      (hostInstr { s1 with hostIn := h } = none → step s = hostEdge { s1 with hostIn := h })) ∧
    (∀ u, nextTick s = (.sys u, s1) →
      (∀ i, sampledTarget { s1 with sysIn := u } = some i → step s = exec i { s1 with sysIn := u }) ∧
      (∀ i, sampledHost { s1 with sysIn := u } = some i → step s = exec i { s1 with sysIn := u }) ∧
      (∀ i, sampledCommand { s1 with sysIn := u } = some i → step s = exec i { s1 with sysIn := u }) ∧
      (sysInstr { s1 with sysIn := u } = none →
        step s = sysEdge (presented { s1 with sysIn := u }) { s1 with sysIn := u }))

/-! ## The bridge -/

/-- R202: at each edge of its consumer's domain every queue entry ages up to `P_CDC_MIN`, keeps its payload and place, and
becomes visible only if it is old enough, every entry ahead of it is visible and its draw says so. -/
def Obligations.EntriesAgeAndBecomeVisible : Prop :=
  ∀ (α : Type) (cdcMin : Nat) (draws : BitVec 2) (q p : List (QEntry α)), p = promote cdcMin draws q →
    p.length = q.length ∧
    ∀ (k : Nat) (e f : QEntry α), q[k]? = some e → p[k]? = some f →
      f.payload = e.payload ∧ f.age = min (e.age + 1) cdcMin ∧
      (f.vis = true ↔ e.vis = true ∨
        (cdcMin ≤ e.age + 1 ∧ (∀ (j : Nat) (g : QEntry α), j < k → p[j]? = some g → g.vis = true) ∧
          draws.getLsbD k = true))

/-- R204, R205, R230, R231: an idle dispatcher takes an I/O command: it leaves the queue, becomes the current command, and
all I/O-bus outputs are written together; the firmware bus, the response queue and the PSM are untouched, and the BT's
part of the edge is its own. -/
def Obligations.IoCommandsDispatch : Prop :=
  ∀ (s : State) (a : FwAddr) (d : Word) (z : Size) (i : Instr) (w : Bool),
    (i = .brIoRead a d z ∧ w = false) ∨ (i = .brIoWrite a d z ∧ w = true) → s.sysRunning → s.disp.busy = false →
    ∃ t, exec i s = .next t ∧
      t.disp = { busy := true, discard := false,
                 cur := { address := a, data := d, operation := if w then .ioWrite else .ioRead, size := z } } ∧
      t.io = { stb := true, we := w, adr := a.extractLsb' 0 16, datW := d.extractLsb' 0 8, sel := true } ∧
      t.fw = s.fw ∧ t.cmdq = (promote s.cfg.cdcMin s.sysIn.promote s.cmdq).tail ∧ t.rspq = s.rspq ∧ t.psm = s.psm ∧
      t.bt = btEdge s.cfg s.sysIn (presentedTarget s) (presentedHost s) s.bt

/-- R73, R204, R206, R232, R233: an idle dispatcher takes a firmware command: the word address, the lane mask and the
shifted data, by the document's formulas. -/
def Obligations.FwCommandsDispatch : Prop :=
  ∀ (s : State) (a : FwAddr) (d : Word) (z : Size) (i : Instr) (w : Bool),
    (i = .brFwRead a d z ∧ w = false) ∨ (i = .brFwWrite a d z ∧ w = true) → s.sysRunning → s.disp.busy = false →
    ∃ t, exec i s = .next t ∧
      t.disp = { busy := true, discard := false,
                 cur := { address := a, data := d, operation := if w then .fwWrite else .fwRead, size := z } } ∧
      (t.fw.stb = true ∧ t.fw.we = w ∧ t.fw.adr.toNat = a.toNat / 4 ∧
        t.fw.sel.toNat = (2 ^ z.bytes - 1) * 2 ^ (a.toNat % 4 &&& (4 - z.bytes)) ∧
        t.fw.datW.toNat = d.toNat * 2 ^ (8 * (a.toNat % 4 &&& (4 - z.bytes))) % 2 ^ 32) ∧
      t.io = s.io ∧ t.cmdq = (promote s.cfg.cdcMin s.sysIn.promote s.cmdq).tail ∧ t.rspq = s.rspq ∧ t.psm = s.psm ∧
      t.bt = btEdge s.cfg s.sysIn (presentedTarget s) (presentedHost s) s.bt

/-- R204, R214: a busy dispatcher takes no command, whether or not its transaction completes at this edge. -/
def Obligations.BusyDispatcherHoldsCommands : Prop :=
  ∀ (s t : State) (c : Command), s.sysRunning → s.disp.busy = true → exec c.toBridge s = .next t →
    t.cmdq = promote s.cfg.cdcMin s.sysIn.promote s.cmdq ∧ t.disp.cur = s.disp.cur

/-- R207, R208, R220: the completion of the current command: the acknowledge and the data of the slave that answers, where
none acknowledges the fabric's error, the response it makes, the discarded response, the overflow fault, and the wait. -/
def Obligations.BridgeCompletion : Prop :=
  ∀ s : State, s.sysRunning → s.disp.busy = true →
    ∀ (ack err done : Bool) (ioData : Byte) (fwData : Word),
    -- the I/O slave that the address selects, or none
    (∀ o, lookupIo s.cfg.ioMap s.io.adr = .btT o → ack = decide (s.bt.tWin.st = .ack) ∧ ioData = s.bt.tWin.datR) →
    (∀ o, lookupIo s.cfg.ioMap s.io.adr = .btH o → ack = decide (s.bt.hWin.st = .ack) ∧ ioData = s.bt.hWin.datR) →
    (∀ n, lookupIo s.cfg.ioMap s.io.adr = .other n → s.cfg.ioRam = some n →
      ack = s.ioSlave.ack ∧ ioData = s.ioSlave.datR) →
    (∀ n, lookupIo s.cfg.ioMap s.io.adr = .other n → s.cfg.ioRam ≠ some n →
      ack = s.sysIn.ioAck ∧ ioData = s.sysIn.ioDatR) →
    (lookupIo s.cfg.ioMap s.io.adr = .unmapped → ack = false) →
    err = (s.ackExpected && !ack) →
    fwData = (if s.cfg.fwMem then s.fwSlave.datR else s.sysIn.fwDatR) →
    done = (if isIo s.disp.cur.operation then ack || err else if s.cfg.fwMem then s.fwSlave.ack else s.sysIn.fwAck) →
    (done = false → ∃ t, sysTick s = .next t ∧ t.disp = s.disp ∧ t.io = s.io ∧ t.fw = s.fw ∧ t.rspq = s.rspq) ∧
    (done = true → s.disp.discard = false → s.rspq.length = 2 → sysTick s = .fault .rspQueueOverflow) ∧
    (done = true → s.disp.discard = true ∨ s.rspq.length < 2 →
      ∃ (t : State) (r : Response), sysTick s = .next t ∧
        (isIo s.disp.cur.operation = true → r.error = err ∧ (ack = true → r.data = ioData.setWidth 32)) ∧
        (isIo s.disp.cur.operation = false →
          r.error = false ∧ r.data.toNat = fwData.toNat /
            2 ^ (8 * (s.disp.cur.address.toNat % 4 &&& (4 - s.disp.cur.size.bytes)))) ∧
        t.rspq = (if s.disp.discard then s.rspq else s.rspq ++ [{ payload := r, vis := false, age := 0 }]) ∧
        t.disp = { busy := false, discard := false, cur := s.disp.cur } ∧
        t.io = { s.io with stb := false } ∧ t.fw = { s.fw with stb := false } ∧
        t.cmdq = promote s.cfg.cdcMin s.sysIn.promote s.cmdq)

/-- R42, R211, R281: a system reset edge writes every system-domain register to its reset value and empties the queues and
FIFOs, whatever the windows or the dispatcher are offered; the host domain keeps its registers. -/
def Obligations.SystemResetEdge : Prop :=
  ∀ s : State, s.sysIn.sysRst = true →
    ∃ t, (sysTick s = .next t ∧
        (∀ we adr w, exec (decodeTarget we adr w) s = .next t) ∧
        (∀ we adr w, exec (decodeHost we adr w) s = .next t) ∧
        (∀ c : Command, exec c.toBridge s = .next t)) ∧
      (t.cmdq = [] ∧ t.rspq = [] ∧ t.ackExpected = false) ∧
      t.disp = { busy := false, discard := false, cur := { address := 0, data := 0, operation := .ioRead, size := .one } } ∧
      t.io = { stb := false, we := false, adr := 0, datW := 0, sel := true } ∧
      t.fw = { stb := false, we := false, adr := 0, datW := 0, sel := 0 } ∧
      t.bt.flags = { t2bAttn := false, b2tAttn := false, smsAttn := false, platRsvd := false,
                     targetBusy := false, bmcBusy := false } ∧
      (t.bt.hMask = 0 ∧ t.bt.hStatus = 0 ∧ t.bt.tEn = false ∧ t.bt.tPend = false) ∧
      (t.bt.fifoT2h = [] ∧ t.bt.fifoH2t = [] ∧ t.bt.clrT2h = false ∧ t.bt.clrH2t = false) ∧
      (t.bt.tWin = { st := .idle, datR := 0 } ∧ t.bt.hWin = { st := .idle, datR := 0 }) ∧
      (t.psm = s.psm ∧ t.cfg = s.cfg)

/-- R74, R75, R76, R221 and the document's §8: what a firmware write of size z at address a puts into the attached firmware
memory is what a read of that size at that address takes out. -/
def Obligations.LaneWriteReadBack : Prop :=
  ∀ (z : Size) (a : FwAddr) (d : Word) (m : Memory), m.wf = true →
    ((fromLanes z a (readWord (writeLanes (fwWordAddr a) (laneSelect z a) (toLanes z a d) m) (fwWordAddr a))) &&&
      sizeMask z) = d &&& sizeMask z

/-- R73, R74, R221 (the memories are test slaves, log 14): a firmware write's lanes are the bytes it stores, least significant
byte in the lowest, and no others; and a system edge stores those lanes exactly when the attached firmware memory
samples a write strobe, returns the word's lanes when it samples a read strobe, and otherwise leaves the memory as it
was; and the attached I/O memory likewise. -/
def Obligations.LaneWriteFrame : Prop :=
  (∀ (z : Size) (a : FwAddr) (d : Word) (m : Memory) (c : Nat), m.wf = true →
    (∀ k, k < z.bytes → c = 4 * (a.toNat / 4) + (a.toNat % 4 &&& (4 - z.bytes)) + k →
      Memory.read (writeLanes (fwWordAddr a) (laneSelect z a) (toLanes z a d) m) c = d.extractLsb' (8 * k) 8) ∧
    ((∀ k, k < z.bytes → c ≠ 4 * (a.toNat / 4) + (a.toNat % 4 &&& (4 - z.bytes)) + k) →
      Memory.read (writeLanes (fwWordAddr a) (laneSelect z a) (toLanes z a d) m) c = Memory.read m c)) ∧
  (∀ s t : State, s.sysRunning → s.fwSlave.mem.wf = true → sysTick s = .next t →
    ∀ samples, samples = (s.cfg.fwMem && !s.fwSlave.ack && s.fw.stb) →
    (samples = true → s.fw.we = true →
      t.fwSlave.ack = true ∧ t.fwSlave.datR = s.fwSlave.datR ∧
      (∀ k, k < 4 → Memory.read t.fwSlave.mem (4 * s.fw.adr.toNat + k) =
        if s.fw.sel.getLsbD k then s.fw.datW.extractLsb' (8 * k) 8
        else Memory.read s.fwSlave.mem (4 * s.fw.adr.toNat + k)) ∧
      (∀ c, c / 4 ≠ s.fw.adr.toNat → Memory.read t.fwSlave.mem c = Memory.read s.fwSlave.mem c)) ∧
    (samples = true → s.fw.we = false →
      t.fwSlave.ack = true ∧ t.fwSlave.mem = s.fwSlave.mem ∧
      (∀ k, k < 4 →
        t.fwSlave.datR.extractLsb' (8 * k) 8 = Memory.read s.fwSlave.mem (4 * s.fw.adr.toNat + k))) ∧
    (samples = false → s.cfg.fwMem = true → t.fwSlave = { s.fwSlave with ack := false }) ∧
    (s.cfg.fwMem = false → t.fwSlave = s.fwSlave)) ∧
  (∀ s t : State, s.sysRunning → s.ioSlave.mem.wf = true → sysTick s = .next t →
    ∀ samples : Prop, (samples ↔ s.ioSlave.ack = false ∧ s.io.stb = true ∧
      ∃ n, s.cfg.ioRam = some n ∧ lookupIo s.cfg.ioMap s.io.adr = .other n) →
    (samples → s.io.we = true →
      t.ioSlave.ack = true ∧ t.ioSlave.datR = s.ioSlave.datR ∧
      ∀ c, Memory.read t.ioSlave.mem c = if c = s.io.adr.toNat then s.io.datW else Memory.read s.ioSlave.mem c) ∧
    (samples → s.io.we = false →
      t.ioSlave = { ack := true, datR := Memory.read s.ioSlave.mem s.io.adr.toNat, mem := s.ioSlave.mem }) ∧
    (¬samples → s.cfg.ioRam ≠ none → t.ioSlave = { s.ioSlave with ack := false }) ∧
    (s.cfg.ioRam = none → t.ioSlave = s.ioSlave))

/-- R220, R304, R362, R7: an outstanding I/O transaction ends within two system edges, acknowledged or errored, so it ends in
every run under a fair clock schedule (`P_CLOCK_SCHEDULE` of R9); and a transaction of a slave of the environment that keeps
its contract (R220 to R222, R353), on either bus, or of an unmapped I/O address, does not complete at the first system
edge after its dispatch, with any host edges in between. -/
def Obligations.IoTransactionEndsInTwoEdges : Prop :=
  (∀ (s t1 t2 : State) (i1 i2 : SysIn), s.disp.busy = true → isIo s.disp.cur.operation = true → s.io.stb = true →
    i1.sysRst = false → i2.sysRst = false → tick (.sys i1) s = .next t1 → tick (.sys i2) t1 = .next t2 →
    t1.disp.busy = false ∨ t2.disp.busy = false) ∧
  (∀ (sched : ClockSchedule) (s : State) (r : Run sched s) (n : Nat),
    (∀ d, sched d → ClockSchedule.everyFair d) →
    (r.states n).disp.busy = true → isIo (r.states n).disp.cur.operation = true → (r.states n).io.stb = true →
    ∃ m, n < m ∧ (r.states m).disp.busy = false) ∧
  (∀ (s t u v : State) (i1 i2 : SysIn) (ts : List Tick), s.Inv → s.disp.busy = false → i1.sysRst = false →
    tick (.sys i1) s = .next t → t.disp.busy = true → isIo t.disp.cur.operation = false →
    sysInputs ts = [] → runTicks ts t = .next u → i2.sysRst = false →
    State.FwSlaveContract { u with sysIn := i2 } → tick (.sys i2) u = .next v →
    v.disp.busy = true ∧ v.fw.stb = true) ∧
  (∀ (s t u v : State) (i1 i2 : SysIn) (ts : List Tick), s.Inv → s.disp.busy = false → i1.sysRst = false →
    tick (.sys i1) s = .next t → t.disp.busy = true → isIo t.disp.cur.operation = true →
    lookupIo t.cfg.ioMap t.io.adr = .unmapped ∨
      (∃ n, lookupIo t.cfg.ioMap t.io.adr = .other n ∧ t.cfg.ioRam ≠ some n) →
    sysInputs ts = [] → runTicks ts t = .next u → i2.sysRst = false →
    State.IoSlaveContract { u with sysIn := i2 } → tick (.sys i2) u = .next v →
    v.disp.busy = true ∧ v.io.stb = true)

/-- R215, R220, R223, R230, R231, R240, R301: an I/O transaction on the bus, two edges after its strobe is first seen. One that
the map sends to a BT window is that window's access, with the bus's write enable and data, and ends without error; a
read returns that register's value, read before the edge that serves it (0 for an unlisted offset, the spec's choice
D21). One at an unmapped address, or at another slave that does not acknowledge, ends with the error; one that another
slave acknowledges in the window ends with that slave's data. -/
def Obligations.BtReadThroughBridge : Prop :=
  ∀ (s s1 : State) (i1 i2 : SysIn), s.disp.busy = true → s.disp.discard = false →
    isIo s.disp.cur.operation = true → s.io.stb = true → s.ackExpected = false → s.rspq.length < 2 →
    i1.sysRst = false → i2.sysRst = false → s1 = { s with sysIn := i1 } →
    (∀ v, s.io.we = false →
      (∃ o, lookupIo s.cfg.ioMap s.io.adr = .btT o ∧ s.bt.tWin.st = .idle ∧
        v = if o = 0 then statusByte s.cfg.layout s.bt.flags else if o = 1 then fifoHead s.bt.fifoH2t
            else if o = 2 then intcfgByte s.bt else 0) ∨
      (∃ o, lookupIo s.cfg.ioMap s.io.adr = .btH o ∧ s.bt.hWin.st = .idle ∧
        v = if o = 0 then s.bt.hMask.setWidth 8 else if o = 1 then s.bt.hStatus.setWidth 8
            else if o = 4 then statusByte s.cfg.layout s.bt.flags else if o = 5 then fifoHead s.bt.fifoT2h else 0) →
      ∃ t, runTicks [.sys i1, .sys i2] s = .next t ∧ t.disp.busy = false ∧
        t.rspq = s.rspq ++ [{ payload := { data := v.setWidth 32, error := false }, vis := false, age := 0 }]) ∧
    (∀ o, lookupIo s.cfg.ioMap s.io.adr = .btT o → s.bt.tWin.st = .idle →
      sysTick s1 = exec (decodeTarget s.io.we o s.io.datW) s1 ∧
      (mapsHost s.cfg = true → s1.servedHost = none) ∧
      ∃ t d, runTicks [.sys i1, .sys i2] s = .next t ∧ t.disp.busy = false ∧
        t.rspq = s.rspq ++ [{ payload := { data := d, error := false }, vis := false, age := 0 }]) ∧
    (∀ o, lookupIo s.cfg.ioMap s.io.adr = .btH o → s.bt.hWin.st = .idle →
      sysTick s1 = exec (decodeHost s.io.we o s.io.datW) s1 ∧
      (mapsTarget s.cfg = true → s1.servedTarget = none) ∧
      ∃ t d, runTicks [.sys i1, .sys i2] s = .next t ∧ t.disp.busy = false ∧
        t.rspq = s.rspq ++ [{ payload := { data := d, error := false }, vis := false, age := 0 }]) ∧
    (lookupIo s.cfg.ioMap s.io.adr = .unmapped ∨
        (∃ n, lookupIo s.cfg.ioMap s.io.adr = .other n ∧ s.cfg.ioRam ≠ some n ∧ i1.ioAck = false ∧ i2.ioAck = false) →
      ∃ t d, runTicks [.sys i1, .sys i2] s = .next t ∧ t.disp.busy = false ∧
        t.rspq = s.rspq ++ [{ payload := { data := d, error := true }, vis := false, age := 0 }] ∧
        (mapsTarget s.cfg = true → s1.servedTarget = none) ∧ (mapsHost s.cfg = true → s1.servedHost = none)) ∧
    (∀ n, lookupIo s.cfg.ioMap s.io.adr = .other n → s.cfg.ioRam ≠ some n → i1.ioAck = false → i2.ioAck = true →
      ∃ t, runTicks [.sys i1, .sys i2] s = .next t ∧ t.disp.busy = false ∧
        t.rspq = s.rspq ++ [{ payload := { data := i2.ioDatR.setWidth 32, error := false }, vis := false, age := 0 }])

/-! ## Invariants -/

/-- The invariant holds at power-on, for every choice of the parameters. -/
def Obligations.PowerOnInv : Prop := ∀ p : Params, (State.powerOn p).Inv

/-- Every step keeps the invariant: at most one item in flight (R212), one bus at a time (R209), no entry visible before
`P_CDC_MIN` edges (R202), coherent PSM registers (R141 to R155), the drive of each state (D7), FIFOs within their
depth (R39), no back-to-back pushes (R252), canonical memories, the attached firmware memory within its contract (R221, R222). -/
def Obligations.StepKeepsInv : Prop :=
  ∀ s t : State, s.Inv → step s = .next t → t.Inv

/-- R212, R305: from a state that meets the invariant a step never faults and is never refused. -/
def Obligations.StepNeverStops : Prop :=
  ∀ s : State, s.Inv → ∃ t, step s = .next t

/-- R209: in a state that meets the invariant, and after any edge from it, a strobe is 1 only for the outstanding command's
own bus, and never both strobes are 1. -/
def Obligations.OneBusAtATime : Prop :=
  ∀ s t : State, s.Inv → (t = s ∨ step s = .next t) →
    (t.io.stb = true → t.disp.busy = true ∧
      (t.disp.cur.operation = .ioRead ∨ t.disp.cur.operation = .ioWrite)) ∧
    (t.fw.stb = true → t.disp.busy = true ∧
      (t.disp.cur.operation = .fwRead ∨ t.disp.cur.operation = .fwWrite)) ∧
    ¬(t.io.stb = true ∧ t.fw.stb = true)

/-! ## BT accesses: what each does, beside the same edge without it -/

/-- R260, R264, R266, R267: the target window's reads of control, interrupt configuration and the unlisted offset, and its
write of the unlisted offset, acknowledge with their value and change nothing else of the edge. The 0 of the unlisted
offset (D21, I17) and the read data kept at a write (D51, I26) are the spec's own choices, log 30. -/
def Obligations.TargetReadsOnlyAnswer : Prop :=
  ∀ (s : State) (i : Instr) (v : Byte), s.sysRunning → s.bt.tWin.st = .idle → s.rspRoom →
    (i = .tCtrlRd ∧ v = statusByte s.cfg.layout s.bt.flags) ∨
    (i = .tIntcfgRd ∧ v.toNat = 2 * s.bt.tPend.toNat + s.bt.tEn.toNat) ∨
    (i = .tRsvdRd ∧ v = 0) ∨
    ((∃ w, i = .tRsvdWr w) ∧ v = s.bt.tWin.datR) →
    ∃ t u, exec i s = .next t ∧ withoutTarget s = .next u ∧
      t = { u with bt := { u.bt with tWin := { st := .ack, datR := v } } }

/-- R270, R272, R274, R278, R279: the host window's reads of mask, status, control and the unlisted offsets, and its writes
of the unlisted offsets, acknowledge with their value and change nothing else of the edge. The 0 of the unlisted offsets
(D21, I17) and the read data kept at a write (D51, I26) are the spec's own choices, log 30. -/
def Obligations.HostReadsOnlyAnswer : Prop :=
  ∀ (s : State) (i : Instr) (v : Byte), s.sysRunning → s.bt.hWin.st = .idle → s.rspRoom →
    (i = .hMaskRd ∧ v = s.bt.hMask.setWidth 8) ∨
    (i = .hStatusRd ∧ v = s.bt.hStatus.setWidth 8) ∨
    (i = .hCtrlRd ∧ v = statusByte s.cfg.layout s.bt.flags) ∨
    ((∃ off, i = .hRsvdRd off) ∧ v = 0) ∨
    ((∃ off w, i = .hRsvdWr off w) ∧ v = s.bt.hWin.datR) →
    ∃ t u, exec i s = .next t ∧ withoutHost s = .next u ∧
      t = { u with bt := { u.bt with hWin := { st := .ack, datR := v } } }

/-- R244, R247, R248, R261: the target's control write at an edge without a host control write, in the default layout: each
bit's action, the gated events, the clear pulse; nothing else of the edge changes. -/
def Obligations.TargetControlWrite : Prop :=
  ∀ (s : State) (w : Byte), s.sysRunning → s.bt.tWin.st = .idle → s.rspRoom →
    s.cfg.layout = .default → s.cfg.clearBit = 0 → s.hostCtrl = 0 →
    ∃ t u, exec (.tCtrlWr w) s = .next t ∧ withoutTarget s = .next u ∧
      t = { u with bt := { u.bt with
        flags := { t2bAttn := s.bt.flags.t2bAttn || w.getLsbD 2
                   b2tAttn := s.bt.flags.b2tAttn && !w.getLsbD 3
                   smsAttn := s.bt.flags.smsAttn && !w.getLsbD 4
                   platRsvd := s.bt.flags.platRsvd || w.getLsbD 5
                   targetBusy := Bool.xor s.bt.flags.targetBusy (w.getLsbD 6)
                   bmcBusy := s.bt.flags.bmcBusy }
        hStatus := u.bt.hStatus |||
          ((if s.bt.flags.targetBusy && w.getLsbD 6 && s.bt.hMask.getLsbD 1 then 0b10 else 0b00) |||
           (if !s.bt.flags.t2bAttn && w.getLsbD 2 && s.bt.hMask.getLsbD 0 then 0b01 else 0b00))
        clrT2h := w.getLsbD 0
        tWin := { st := .ack, datR := s.bt.tWin.datR } } }

/-- R244, R247, R249, R275: the host's control write at an edge without a target control write, in the default layout. -/
def Obligations.HostControlWrite : Prop :=
  ∀ (s : State) (w : Byte), s.sysRunning → s.bt.hWin.st = .idle → s.rspRoom →
    s.cfg.layout = .default → s.cfg.clearBit = 0 → s.targetCtrl = 0 →
    ∃ t u, exec (.hCtrlWr w) s = .next t ∧ withoutHost s = .next u ∧
      t = { u with bt := { u.bt with
        flags := { t2bAttn := s.bt.flags.t2bAttn && !w.getLsbD 2
                   b2tAttn := s.bt.flags.b2tAttn || w.getLsbD 3
                   smsAttn := s.bt.flags.smsAttn || w.getLsbD 4
                   platRsvd := s.bt.flags.platRsvd && !w.getLsbD 5
                   targetBusy := s.bt.flags.targetBusy
                   bmcBusy := Bool.xor s.bt.flags.bmcBusy (w.getLsbD 7) }
        tPend := u.bt.tPend ||
          (s.bt.tEn && ((!s.bt.flags.b2tAttn && w.getLsbD 3) || (!s.bt.flags.smsAttn && w.getLsbD 4)))
        clrH2t := w.getLsbD 0
        hWin := { st := .ack, datR := s.bt.hWin.datR } } }

/-- R243, R262, R276: a data read returns the head, or 0 when the FIFO is empty, and takes the head away; nothing else of
the edge changes. -/
def Obligations.DataReadsPop : Prop :=
  ∀ s : State, s.sysRunning → s.rspRoom →
    (s.bt.tWin.st = .idle →
      ∃ t u, exec .tDataRd s = .next t ∧ withoutTarget s = .next u ∧
        t = { u with bt := { u.bt with
          fifoH2t := if s.bt.fifoH2t = [] then u.bt.fifoH2t else u.bt.fifoH2t.tail
          tWin := { st := .ack, datR := s.bt.fifoH2t.headD 0 } } }) ∧
    (s.bt.hWin.st = .idle →
      ∃ t u, exec .hDataRd s = .next t ∧ withoutHost s = .next u ∧
        t = { u with bt := { u.bt with
          fifoT2h := if s.bt.fifoT2h = [] then u.bt.fifoT2h else u.bt.fifoT2h.tail
          hWin := { st := .ack, datR := s.bt.fifoT2h.headD 0 } } })

/-- R243, R252, R263, R277: a data write appends its byte when the FIFO held fewer than `P_BT_DEPTH` bytes and is not being
cleared; otherwise the byte is dropped and the write acknowledged all the same. Nothing else of the edge changes but
the model's own mark that this FIFO was pushed (log 13). -/
def Obligations.DataWritesPush : Prop :=
  ∀ (s : State) (w : Byte), s.sysRunning → s.rspRoom → s.PushedInv →
    (s.bt.tWin.st = .idle → ∀ taken, taken = (!s.bt.clrT2h && decide (s.bt.fifoT2h.length < s.cfg.btDepth)) →
      ∃ t u, exec (.tDataWr w) s = .next t ∧ withoutTarget s = .next u ∧
        t = { u with bt := { u.bt with
          fifoT2h := if taken then u.bt.fifoT2h ++ [w] else u.bt.fifoT2h
          pushedT2h := taken
          tWin := { st := .ack, datR := s.bt.tWin.datR } } }) ∧
    (s.bt.hWin.st = .idle → ∀ taken, taken = (!s.bt.clrH2t && decide (s.bt.fifoH2t.length < s.cfg.btDepth)) →
      ∃ t u, exec (.hDataWr w) s = .next t ∧ withoutHost s = .next u ∧
        t = { u with bt := { u.bt with
          fifoH2t := if taken then u.bt.fifoH2t ++ [w] else u.bt.fifoH2t
          pushedH2t := taken
          hWin := { st := .ack, datR := s.bt.hWin.datR } } })

/-- R248, R249, R265, R271, R273: the interrupt-configuration, mask and status writes; an event of the same edge, gated by
the enable before it, is added after the write. -/
def Obligations.InterruptRegisterWrites : Prop :=
  ∀ (s : State) (w : Byte), s.sysRunning → s.rspRoom →
    (s.bt.tWin.st = .idle →
      ∃ t u, exec (.tIntcfgWr w) s = .next t ∧ withoutTarget s = .next u ∧
        t = { u with bt := { u.bt with
          tEn := w.getLsbD 0
          tPend := if w.getLsbD 1 then
              s.bt.tEn && ((!s.bt.flags.b2tAttn && u.bt.flags.b2tAttn) || (!s.bt.flags.smsAttn && u.bt.flags.smsAttn))
            else u.bt.tPend
          tWin := { st := .ack, datR := s.bt.tWin.datR } } }) ∧
    (s.bt.hWin.st = .idle →
      ∃ t u, exec (.hMaskWr w) s = .next t ∧ withoutHost s = .next u ∧
        t = { u with bt := { u.bt with
          hMask := w.extractLsb' 0 2, hWin := { st := .ack, datR := s.bt.hWin.datR } } }) ∧
    (s.bt.hWin.st = .idle →
      ∃ t u, exec (.hStatusWr w) s = .next t ∧ withoutHost s = .next u ∧
        t = { u with bt := { u.bt with
          hStatus := w.extractLsb' 0 2 |||
            ((if s.bt.flags.targetBusy && !u.bt.flags.targetBusy && s.bt.hMask.getLsbD 1 then 0b10 else 0b00) |||
             (if !s.bt.flags.t2bAttn && u.bt.flags.t2bAttn && s.bt.hMask.getLsbD 0 then 0b01 else 0b00))
          hWin := { st := .ack, datR := s.bt.hWin.datR } } })

/-- R240, R363: an access presented to a window in ACK is not served; the window returns to IDLE and the edge is the edge
without the access. R223: so a master that keeps its handshake, its strobe served at one system edge, holds the strobe at
the next, which ends the acknowledge cycle, and drops it at the one after, with one access served in all three and any host
edges in between. -/
def Obligations.WindowInAckServesNothing : Prop :=
  ∀ s : State,
    (s.bt.tWin.st = .ack → ∀ we adr w, exec (decodeTarget we adr w) s = withoutTarget s ∧
      ∀ t, s.sysRunning → withoutTarget s = .next t → t.bt.tWin = { s.bt.tWin with st := .idle }) ∧
    (s.bt.hWin.st = .ack → ∀ we adr w, exec (decodeHost we adr w) s = withoutHost s ∧
      ∀ t, s.sysRunning → withoutHost s = .next t → t.bt.hWin = { s.bt.hWin with st := .idle }) ∧
    (∀ (t t1 u u1 : State) (i j k : SysIn) (ts us : List Tick),
      i.sysRst = false → tick (.sys i) s = .next t → sysInputs ts = [] → runTicks ts t = .next t1 →
      j.sysRst = false → tick (.sys j) t1 = .next u → sysInputs us = [] → runTicks us u = .next u1 → k.sysRst = false →
      (mapsTarget s.cfg = false → s.bt.tWin.st = .idle → i.tPort.stb = true →
        t1.TargetMasterContract j → u1.TargetMasterContract k →
        t1.bt.tWin.st = .ack ∧ j.tPort.stb = true ∧ State.servedTarget { t1 with sysIn := j } = none ∧
          u1.bt.tWin.st = .idle ∧ k.tPort.stb = false ∧ State.servedTarget { u1 with sysIn := k } = none) ∧
      (mapsHost s.cfg = false → s.bt.hWin.st = .idle → i.hPort.stb = true →
        t1.HostMasterContract j → u1.HostMasterContract k →
        t1.bt.hWin.st = .ack ∧ j.hPort.stb = true ∧ State.servedHost { t1 with sysIn := j } = none ∧
          u1.bt.hWin.st = .idle ∧ k.hPort.stb = false ∧ State.servedHost { u1 with sysIn := k } = none))

/-- R243, R246 to R249, R253: an edge at which neither window serves an access changes no flag, mask, status or enable; it
only ends the acknowledge cycles and carries out the clear pulses. -/
def Obligations.QuietBtEdge : Prop :=
  ∀ s t : State, s.sysRunning → s.servedTarget = none → s.servedHost = none → sysTick s = .next t →
    t.bt = { s.bt with
      fifoT2h := if s.bt.clrT2h then [] else s.bt.fifoT2h
      fifoH2t := if s.bt.clrH2t then [] else s.bt.fifoH2t
      clrT2h := false, clrH2t := false, pushedT2h := false, pushedH2t := false
      tWin := { s.bt.tWin with st := .idle }, hWin := { s.bt.hWin with st := .idle } }

/-! ## BT shared machinery -/

/-- R246: the next flags of any system edge, from the control bytes of both windows at that edge (0 for none); a set and a
clear of one flag at one edge take the draw, whatever it is. -/
def Obligations.ControlBitsCombine : Prop :=
  ∀ (s t : State) (wT wH : Byte), s.sysRunning → s.cfg.layout = .default → wT = s.targetCtrl → wH = s.hostCtrl →
    sysTick s = .next t →
    t.bt.flags.t2bAttn =
      (if wT.getLsbD 2 && wH.getLsbD 2 then s.sysIn.scRace.t2bAttn
       else if wT.getLsbD 2 then true else if wH.getLsbD 2 then false else s.bt.flags.t2bAttn) ∧
    t.bt.flags.b2tAttn =
      (if wH.getLsbD 3 && wT.getLsbD 3 then s.sysIn.scRace.b2tAttn
       else if wH.getLsbD 3 then true else if wT.getLsbD 3 then false else s.bt.flags.b2tAttn) ∧
    t.bt.flags.smsAttn =
      (if wH.getLsbD 4 && wT.getLsbD 4 then s.sysIn.scRace.smsAttn
       else if wH.getLsbD 4 then true else if wT.getLsbD 4 then false else s.bt.flags.smsAttn) ∧
    t.bt.flags.platRsvd =
      (if wT.getLsbD 5 && wH.getLsbD 5 then s.sysIn.scRace.platRsvd
       else if wT.getLsbD 5 then true else if wH.getLsbD 5 then false else s.bt.flags.platRsvd) ∧
    t.bt.flags.targetBusy = Bool.xor s.bt.flags.targetBusy (wT.getLsbD 6) ∧
    t.bt.flags.bmcBusy = Bool.xor s.bt.flags.bmcBusy (wH.getLsbD 7)

/-- R247, R248, R249: the pending bits, masks and enable of any system edge: a write of the edge first, then the events of
the edge, each counted when its flag changes and its enable was set before. -/
def Obligations.PendingBitsCombine : Prop :=
  ∀ (s t : State) (ta : TAccess) (ha : HAccess), s.sysRunning →
    ta = s.servedTarget.getD TAccess.idle → ha = s.servedHost.getD HAccess.idle → sysTick s = .next t →
    (t.bt.hStatus.getLsbD 0 =
      ((match ha.status with | some b => b.getLsbD 0 | none => s.bt.hStatus.getLsbD 0) ||
       (!s.bt.flags.t2bAttn && t.bt.flags.t2bAttn && s.bt.hMask.getLsbD 0))) ∧
    (t.bt.hStatus.getLsbD 1 =
      ((match ha.status with | some b => b.getLsbD 1 | none => s.bt.hStatus.getLsbD 1) ||
       (s.bt.flags.targetBusy && !t.bt.flags.targetBusy && s.bt.hMask.getLsbD 1))) ∧
    (t.bt.hMask = match ha.mask with | some b => b.extractLsb' 0 2 | none => s.bt.hMask) ∧
    (t.bt.tPend =
      ((match ta.intcfg with | some b => s.bt.tPend && !b.getLsbD 1 | none => s.bt.tPend) ||
       (((!s.bt.flags.b2tAttn && t.bt.flags.b2tAttn) || (!s.bt.flags.smsAttn && t.bt.flags.smsAttn)) && s.bt.tEn))) ∧
    (t.bt.tEn = match ta.intcfg with | some b => b.getLsbD 0 | none => s.bt.tEn)

/-- R254: a host pending bit, once set, stays set through any run in which no host status write has that bit 0 and no
system reset occurs, whatever becomes of the attention flag. -/
def Obligations.PendingUntilCleared : Prop :=
  ∀ (s t : State) (ts : List Tick) (k : Nat), k < 2 → s.bt.hStatus.getLsbD k = true →
    (∀ (ts1 ts2 : List Tick) (i : SysIn) (u : State), ts = ts1 ++ .sys i :: ts2 → runTicks ts1 s = .next u →
      i.sysRst = false ∧
      ∀ a b, ({ u with sysIn := i } : State).servedHost = some a → a.status = some b → b.getLsbD k = true) →
    runTicks ts s = .next t → t.bt.hStatus.getLsbD k = true

/-- R245, R250, R251: the status byte of the default layout, and the interrupt outputs. That bits 1:0 read 0 is the spec's own
choice (D22, I22), log 30. -/
def Obligations.StatusByteAndInterruptOutputs : Prop :=
  ∀ b : Bt,
    (statusByte .default b.flags).toNat =
      128 * b.flags.bmcBusy.toNat + 64 * b.flags.targetBusy.toNat + 32 * b.flags.platRsvd.toNat +
        16 * b.flags.smsAttn.toNat + 8 * b.flags.b2tAttn.toNat + 4 * b.flags.t2bAttn.toNat ∧
    (hostIrq b = true ↔ ∃ k, k < 2 ∧ b.hMask.getLsbD k = true ∧ b.hStatus.getLsbD k = true) ∧
    (targetIrq b = true ↔ b.tEn = true ∧ b.tPend = true)

/-- R244, R355: a control write with the clear bit set raises a pulse of one cycle; the next system edge empties the
writer's outbound FIFO, and a peer's data read served at that edge still returns the old head. -/
def Obligations.ClearPulse : Prop :=
  ∀ (s t u : State) (w : Byte) (i : SysIn), w.getLsbD s.cfg.clearBit.val = true → s.sysRunning → i.sysRst = false →
    (s.bt.tWin.st = .idle → exec (.tCtrlWr w) s = .next t → tick (.sys i) t = .next u →
      t.bt.clrT2h = true ∧ u.bt.clrT2h = false ∧ u.bt.fifoT2h = [] ∧
      (({ t with sysIn := i } : State).servedHost = some (accHDataRd t.bt) →
        u.bt.hWin = { st := .ack, datR := t.bt.fifoT2h.headD 0 })) ∧
    (s.bt.hWin.st = .idle → exec (.hCtrlWr w) s = .next t → tick (.sys i) t = .next u →
      t.bt.clrH2t = true ∧ u.bt.clrH2t = false ∧ u.bt.fifoH2t = [] ∧
      (({ t with sysIn := i } : State).servedTarget = some (accTDataRd t.bt) →
        u.bt.tWin = { st := .ack, datR := t.bt.fifoH2t.headD 0 }))

/-- R252: the write-ready dip is unobservable: from a state that meets the pushed-mark invariant, a step with `P_WRDY_DIP`
on and a step with it off give the same state, that parameter apart. -/
def Obligations.WriteReadyDipUnobservable : Prop :=
  ∀ (s t : State) (b : Bool), s.PushedInv → step s = .next t → step (s.withDip b) = .next (t.withDip b)

/-- R255: from an empty FIFO, bytes pushed through its writer's window come back in order through its reader's window: the
k-th pop returns the k-th of the first `P_BT_DEPTH` bytes, and 0 once they are used up; pushes beyond the depth are
dropped. Both FIFOs, both windows driven by environment masters that keep their handshake (R223) or hold the strobe for one
access per two edges (R363), with any host edges in between. -/
def Obligations.FifoRoundTrip : Prop :=
  ∀ (s t : State) (pushes pops last : List Tick) (bs ws : List Byte) (i : SysIn) (w : Byte),
    mapsTarget s.cfg = false → mapsHost s.cfg = false → s.PushedInv →
    s.bt.tWin.st = .idle → s.bt.hWin.st = .idle → sysInputs last = [i] →
    runTicks (pushes ++ pops ++ last) s = .next t →
    (s.bt.fifoT2h = [] → s.bt.clrT2h = false →
      AccessSequence (SysIn.targetAccesses true 1) SysIn.noHost (sysInputs pushes) bs →
      AccessSequence (SysIn.hostAccesses false 5) SysIn.noTarget (sysInputs pops) ws → SysIn.hostAccesses false 5 w i →
      t.bt.hWin.datR = (bs.take s.cfg.btDepth).getD ws.length 0) ∧
    (s.bt.fifoH2t = [] → s.bt.clrH2t = false →
      AccessSequence (SysIn.hostAccesses true 5) SysIn.noTarget (sysInputs pushes) bs →
      AccessSequence (SysIn.targetAccesses false 1) SysIn.noHost (sysInputs pops) ws → SysIn.targetAccesses false 1 w i →
      t.bt.tWin.datR = (bs.take s.cfg.btDepth).getD ws.length 0)

/-- R280: the ownership table. An access of one window, at an edge where the other window serves none, never takes the
other side's actions and never touches the other side's registers. -/
def Obligations.OwnershipKept : Prop :=
  ∀ s t : State, s.sysRunning → s.cfg.layout = .default →
    (∀ we adr w, s.servedHost = none → exec (decodeTarget we adr w) s = .next t →
      (s.bt.flags.t2bAttn = true → t.bt.flags.t2bAttn = true) ∧
      (s.bt.flags.platRsvd = true → t.bt.flags.platRsvd = true) ∧
      (t.bt.flags.b2tAttn = true → s.bt.flags.b2tAttn = true) ∧
      (t.bt.flags.smsAttn = true → s.bt.flags.smsAttn = true) ∧
      t.bt.flags.bmcBusy = s.bt.flags.bmcBusy ∧
      t.bt.hMask = s.bt.hMask ∧ t.bt.clrH2t = false ∧
      (∀ k, s.bt.hStatus.getLsbD k = true → t.bt.hStatus.getLsbD k = true) ∧
      (s.bt.clrT2h = false → s.bt.fifoT2h <+: t.bt.fifoT2h) ∧ t.bt.fifoH2t <:+ s.bt.fifoH2t) ∧
    (∀ we adr w, s.servedTarget = none → exec (decodeHost we adr w) s = .next t →
      (s.bt.flags.b2tAttn = true → t.bt.flags.b2tAttn = true) ∧
      (s.bt.flags.smsAttn = true → t.bt.flags.smsAttn = true) ∧
      (t.bt.flags.t2bAttn = true → s.bt.flags.t2bAttn = true) ∧
      (t.bt.flags.platRsvd = true → s.bt.flags.platRsvd = true) ∧
      t.bt.flags.targetBusy = s.bt.flags.targetBusy ∧
      t.bt.tEn = s.bt.tEn ∧ t.bt.clrT2h = false ∧
      (s.bt.tPend = true → t.bt.tPend = true) ∧
      (s.bt.clrH2t = false → s.bt.fifoH2t <+: t.bt.fifoH2t) ∧ t.bt.fifoT2h <:+ s.bt.fifoT2h)
end

