-- ==== Sys2Proof/Laws/Decode.lean ====
section
/-! SUPPORT. Nibble fields read back what they were written from; symbol streams split where they were joined. -/

namespace Sys2Proof

@[simp] theorem nibblesLsn_length (k v : Nat) : (nibblesLsn k v).length = k := by
  induction k generalizing v with
  | zero => rfl
  | succ k ih => simp [nibblesLsn, ih]

@[simp] theorem toNibbles_length (o : NibbleOrder) (k v : Nat) : (toNibbles o k v).length = k := by
  cases o <;> simp [toNibbles]

/-- The nibbles of a number give the number back, modulo the width of the field. -/
theorem ofNibblesLsn_nibblesLsn (k v : Nat) : ofNibblesLsn (nibblesLsn k v) = v % 16 ^ k := by
  induction k generalizing v with
  | zero => simp [nibblesLsn, ofNibblesLsn, Nat.mod_one]
  | succ k ih =>
    have h : v % 16 ^ (k + 1) = v % 16 + 16 * (v / 16 % 16 ^ k) := by
      rw [Nat.pow_succ, Nat.mul_comm (16 ^ k) 16, Nat.mod_mul]
    rw [h, nibblesLsn, ofNibblesLsn, ih, BitVec.toNat_ofNat]

/-- In either order of transmission. -/
theorem ofNibbles_toNibbles (o : NibbleOrder) (k v : Nat) : ofNibbles o (toNibbles o k v) = v % 16 ^ k := by
  cases o <;> simp [ofNibbles, toNibbles, ofNibblesLsn_nibblesLsn]

/-- A field read from the head of a stream is the field that was put there. -/
theorem takeSymbols_append (a r : List Nibble) : takeSymbols a.length (a ++ r) = some (a, r) := by
  induction a with
  | nil => rfl
  | cons x a ih => simp [takeSymbols, ih]

/-- The same, with the length given as a number. -/
theorem takeSymbols_eq {k : Nat} {a : List Nibble} (h : a.length = k) (r : List Nibble) :
    takeSymbols k (a ++ r) = some (a, r) := by
  rw [← h]; exact takeSymbols_append a r

/-- What `takeSymbols` takes is the head of the stream, of the length asked. -/
theorem takeSymbols_some {k : Nat} {l a r : List Nibble} (h : takeSymbols k l = some (a, r)) :
    l = a ++ r ∧ a.length = k := by
  induction k generalizing l a with
  | zero => simp only [takeSymbols, Option.some.injEq, Prod.mk.injEq] at h; simp [← h.1, ← h.2]
  | succ k ih =>
    cases l with
    | nil => simp [takeSymbols] at h
    | cons x xs =>
      simp only [takeSymbols] at h
      split at h
      · next a' r' e =>
        simp only [Option.some.injEq, Prod.mk.injEq] at h
        obtain ⟨h1, rfl⟩ := h
        obtain ⟨e1, e2⟩ := ih e
        simp [← h1, e1, e2]
      · simp at h

/-- A value whose high bits are 0 is its own low part, widened again. -/
theorem setWidth_of_high_zero {k m n : Nat} {x : BitVec n} (hn : n = k + m) (h : x.extractLsb' k m = 0) :
    (x.setWidth k).setWidth n = x := by
  subst hn
  have e := congrArg BitVec.toNat h
  have hlt := x.isLt
  rw [Nat.pow_add] at hlt
  simp only [BitVec.extractLsb'_toNat, Nat.shiftRight_eq_div_pow, BitVec.ofNat_eq_ofNat, BitVec.toNat_ofNat,
    Nat.zero_mod] at e
  rw [Nat.mod_eq_of_lt (Nat.div_lt_of_lt_mul hlt)] at e
  have hx : x.toNat < 2 ^ k := by
    rcases Nat.div_eq_zero_iff.1 e with h0 | h0
    · exact absurd h0 (by positivity)
    · exact h0
  apply BitVec.eq_of_toNat_eq
  simp [Nat.mod_eq_of_lt hx]

@[simp] theorem ofMsize_msize (s : Size) : Size.ofMsize s.msize = some s := by cases s <;> rfl

@[simp] theorem ofCode_code (s : Size) : Size.ofCode s.code = some s := by cases s <;> rfl

@[simp] theorem op_ofCode_code (o : Op) : Op.ofCode o.code = o := by cases o <;> rfl

@[simp] theorem idselAccepted_idselSymbol (p : Params) : idselAccepted p (idselSymbol p) = true := by
  unfold idselAccepted idselSymbol; cases p.fwIdsel <;> simp

end Sys2Proof
end

