-- ==== Sys2Proof/Laws/State.lean ====
section
/-! SUPPORT. One lemma per field for each shared operation that updates the state: what it writes is named, what it leaves is
left. Provers cite these instead of unfolding a record update. -/

namespace Sys2Proof.Machine

/-! ## The PSM's field updates -/

@[simp] theorem abortEntry_op (m : Psm) : (abortEntry m).op = m.op := rfl
@[simp] theorem abortEntry_size (m : Psm) : (abortEntry m).size = m.size := rfl
@[simp] theorem abortEntry_addr (m : Psm) : (abortEntry m).addr = m.addr := rfl
@[simp] theorem abortEntry_data (m : Psm) : (abortEntry m).data = m.data := rfl
@[simp] theorem abortEntry_ladOut (m : Psm) : (abortEntry m).ladOut = m.ladOut := rfl
@[simp] theorem abortEntry_fprev (m : Psm) : (abortEntry m).fprev = m.fprev := rfl
@[simp] theorem abortEntry_rprev (m : Psm) : (abortEntry m).rprev = m.rprev := rfl
@[simp] theorem abortEntry_st (m : Psm) : (abortEntry m).st = .start := rfl
@[simp] theorem abortEntry_cnt (m : Psm) : (abortEntry m).cnt = 0 := rfl
@[simp] theorem abortEntry_ladEn (m : Psm) : (abortEntry m).ladEn = false := rfl

@[simp] theorem received_ladOut (c : Command) (m : Psm) : (m.received c).ladOut = m.ladOut := rfl
@[simp] theorem received_ladEn (c : Command) (m : Psm) : (m.received c).ladEn = m.ladEn := rfl
@[simp] theorem received_fprev (c : Command) (m : Psm) : (m.received c).fprev = m.fprev := rfl
@[simp] theorem received_rprev (c : Command) (m : Psm) : (m.received c).rprev = m.rprev := rfl
@[simp] theorem received_st (c : Command) (m : Psm) : (m.received c).st = tar1State c.operation := rfl
@[simp] theorem received_cnt (c : Command) (m : Psm) : (m.received c).cnt = 0 := rfl
@[simp] theorem received_op (c : Command) (m : Psm) : (m.received c).op = c.operation := rfl
@[simp] theorem received_size (c : Command) (m : Psm) : (m.received c).size = c.size := rfl
@[simp] theorem received_addr (c : Command) (m : Psm) : (m.received c).addr = c.address := rfl
@[simp] theorem received_data (c : Command) (m : Psm) : (m.received c).data = c.data := rfl

/-- The received command is the one handed over. -/
@[simp] theorem received_command (c : Command) (m : Psm) : (m.received c).command = c := rfl


/-! ## Bus drives -/

@[simp] theorem driveBus_cfg (c : Command) (s : State) : (driveBus c s).cfg = s.cfg := by
  unfold driveBus; split <;> rfl
@[simp] theorem driveBus_psm (c : Command) (s : State) : (driveBus c s).psm = s.psm := by
  unfold driveBus; split <;> rfl
@[simp] theorem driveBus_cmdq (c : Command) (s : State) : (driveBus c s).cmdq = s.cmdq := by
  unfold driveBus; split <;> rfl
@[simp] theorem driveBus_rspq (c : Command) (s : State) : (driveBus c s).rspq = s.rspq := by
  unfold driveBus; split <;> rfl
@[simp] theorem driveBus_disp (c : Command) (s : State) : (driveBus c s).disp = s.disp := by
  unfold driveBus; split <;> rfl
@[simp] theorem driveBus_ackExpected (c : Command) (s : State) : (driveBus c s).ackExpected = s.ackExpected := by
  unfold driveBus; split <;> rfl
@[simp] theorem driveBus_bt (c : Command) (s : State) : (driveBus c s).bt = s.bt := by
  unfold driveBus; split <;> rfl
@[simp] theorem driveBus_fwWaited (c : Command) (s : State) : (driveBus c s).fwWaited = s.fwWaited := by
  unfold driveBus; split <;> rfl
@[simp] theorem driveBus_fwSlave (c : Command) (s : State) : (driveBus c s).fwSlave = s.fwSlave := by
  unfold driveBus; split <;> rfl
@[simp] theorem driveBus_ioSlave (c : Command) (s : State) : (driveBus c s).ioSlave = s.ioSlave := by
  unfold driveBus; split <;> rfl
@[simp] theorem driveBus_hostIn (c : Command) (s : State) : (driveBus c s).hostIn = s.hostIn := by
  unfold driveBus; split <;> rfl
@[simp] theorem driveBus_sysIn (c : Command) (s : State) : (driveBus c s).sysIn = s.sysIn := by
  unfold driveBus; split <;> rfl
@[simp] theorem driveBus_script (c : Command) (s : State) : (driveBus c s).script = s.script := by
  unfold driveBus; split <;> rfl
@[simp] theorem driveBus_freeTicks (c : Command) (s : State) : (driveBus c s).freeTicks = s.freeTicks := by
  unfold driveBus; split <;> rfl

/-- A drive writes the I/O bus of an I/O command only. -/
theorem driveBus_io (c : Command) (s : State) :
    (driveBus c s).io = if isIo c.operation then driveIo c else s.io := by
  unfold driveBus; split <;> rfl

/-- A drive writes the firmware bus of a firmware command only. -/
theorem driveBus_fw (c : Command) (s : State) :
    (driveBus c s).fw = if isIo c.operation then s.fw else driveFw c := by
  unfold driveBus; split <;> rfl

/-- A drive numbers a firmware command's transaction (log 33). -/
theorem driveBus_fwDrives (c : Command) (s : State) :
    (driveBus c s).fwDrives = if isIo c.operation then s.fwDrives else s.fwDrives + 1 := by
  unfold driveBus; split <;> rfl

/-- A drive numbers an I/O command's transaction (log 33). -/
theorem driveBus_ioDrives (c : Command) (s : State) :
    (driveBus c s).ioDrives = if isIo c.operation then s.ioDrives + 1 else s.ioDrives := by
  unfold driveBus; split <;> rfl

@[simp] theorem driveIo_stb (c : Command) : (driveIo c).stb = true := rfl
@[simp] theorem driveIo_sel (c : Command) : (driveIo c).sel = true := rfl
@[simp] theorem driveFw_stb (c : Command) : (driveFw c).stb = true := rfl

/-! ## Dispatch -/

@[simp] theorem dispatch_cfg (c : Command) (s : State) : (dispatch c s).cfg = s.cfg := by
  simp [dispatch]
@[simp] theorem dispatch_psm (c : Command) (s : State) : (dispatch c s).psm = s.psm := by
  simp [dispatch]
@[simp] theorem dispatch_rspq (c : Command) (s : State) : (dispatch c s).rspq = s.rspq := by
  simp [dispatch]
@[simp] theorem dispatch_ackExpected (c : Command) (s : State) : (dispatch c s).ackExpected = s.ackExpected := by
  simp [dispatch]
@[simp] theorem dispatch_bt (c : Command) (s : State) : (dispatch c s).bt = s.bt := by
  simp [dispatch]
@[simp] theorem dispatch_fwWaited (c : Command) (s : State) : (dispatch c s).fwWaited = s.fwWaited := by
  simp [dispatch]
@[simp] theorem dispatch_fwSlave (c : Command) (s : State) : (dispatch c s).fwSlave = s.fwSlave := by
  simp [dispatch]
@[simp] theorem dispatch_ioSlave (c : Command) (s : State) : (dispatch c s).ioSlave = s.ioSlave := by
  simp [dispatch]
@[simp] theorem dispatch_hostIn (c : Command) (s : State) : (dispatch c s).hostIn = s.hostIn := by
  simp [dispatch]
@[simp] theorem dispatch_sysIn (c : Command) (s : State) : (dispatch c s).sysIn = s.sysIn := by
  simp [dispatch]
@[simp] theorem dispatch_script (c : Command) (s : State) : (dispatch c s).script = s.script := by
  simp [dispatch]
@[simp] theorem dispatch_freeTicks (c : Command) (s : State) : (dispatch c s).freeTicks = s.freeTicks := by
  simp [dispatch]
@[simp] theorem dispatch_cmdq (c : Command) (s : State) : (dispatch c s).cmdq = s.cmdq.tail := by
  simp [dispatch]
@[simp] theorem dispatch_disp (c : Command) (s : State) :
    (dispatch c s).disp = { busy := true, discard := false, cur := c } := by
  simp [dispatch]
theorem dispatch_io (c : Command) (s : State) :
    (dispatch c s).io = if isIo c.operation then driveIo c else s.io := by
  simp [dispatch, driveBus_io]
theorem dispatch_fw (c : Command) (s : State) :
    (dispatch c s).fw = if isIo c.operation then s.fw else driveFw c := by
  simp [dispatch, driveBus_fw]

theorem dispatch_fwDrives (c : Command) (s : State) :
    (dispatch c s).fwDrives = if isIo c.operation then s.fwDrives else s.fwDrives + 1 := by
  simp [dispatch, driveBus_fwDrives]

theorem dispatch_ioDrives (c : Command) (s : State) :
    (dispatch c s).ioDrives = if isIo c.operation then s.ioDrives + 1 else s.ioDrives := by
  simp [dispatch, driveBus_ioDrives]

/-! ## Queue reset -/

/-- The four cases of the queue reset (R210). -/
theorem queueReset_cases (race : Bool) (s : State) :
    (s.disp.busy = true ∧
      queueReset race s = { s with disp := { s.disp with discard := true }, cmdq := [], rspq := [] }) ∨
    (s.disp.busy = false ∧ visibleHead s.cmdq = none ∧ queueReset race s = { s with cmdq := [], rspq := [] }) ∨
    (∃ c, s.disp.busy = false ∧ visibleHead s.cmdq = some c ∧ race = false ∧
      queueReset race s = { s with cmdq := [], rspq := [] }) ∨
    (∃ c, s.disp.busy = false ∧ visibleHead s.cmdq = some c ∧ race = true ∧
      queueReset race s = { driveBus c { s with disp := { busy := true, discard := true, cur := c } } with
        cmdq := [], rspq := [] }) := by
  unfold queueReset
  cases hb : s.disp.busy
  · cases hv : visibleHead s.cmdq with
    | none => simp
    | some c => cases race <;> simp
  · simp

@[simp] theorem queueReset_cfg (race : Bool) (s : State) : (queueReset race s).cfg = s.cfg := by
  obtain ⟨-, h⟩ | ⟨-, -, h⟩ | ⟨c, -, -, -, h⟩ | ⟨c, -, -, -, h⟩ := queueReset_cases race s <;> simp [h]
@[simp] theorem queueReset_psm (race : Bool) (s : State) : (queueReset race s).psm = s.psm := by
  obtain ⟨-, h⟩ | ⟨-, -, h⟩ | ⟨c, -, -, -, h⟩ | ⟨c, -, -, -, h⟩ := queueReset_cases race s <;> simp [h]
@[simp] theorem queueReset_ackExpected (race : Bool) (s : State) : (queueReset race s).ackExpected = s.ackExpected := by
  obtain ⟨-, h⟩ | ⟨-, -, h⟩ | ⟨c, -, -, -, h⟩ | ⟨c, -, -, -, h⟩ := queueReset_cases race s <;> simp [h]
@[simp] theorem queueReset_bt (race : Bool) (s : State) : (queueReset race s).bt = s.bt := by
  obtain ⟨-, h⟩ | ⟨-, -, h⟩ | ⟨c, -, -, -, h⟩ | ⟨c, -, -, -, h⟩ := queueReset_cases race s <;> simp [h]
@[simp] theorem queueReset_fwWaited (race : Bool) (s : State) : (queueReset race s).fwWaited = s.fwWaited := by
  obtain ⟨-, h⟩ | ⟨-, -, h⟩ | ⟨c, -, -, -, h⟩ | ⟨c, -, -, -, h⟩ := queueReset_cases race s <;> simp [h]
@[simp] theorem queueReset_fwSlave (race : Bool) (s : State) : (queueReset race s).fwSlave = s.fwSlave := by
  obtain ⟨-, h⟩ | ⟨-, -, h⟩ | ⟨c, -, -, -, h⟩ | ⟨c, -, -, -, h⟩ := queueReset_cases race s <;> simp [h]
@[simp] theorem queueReset_ioSlave (race : Bool) (s : State) : (queueReset race s).ioSlave = s.ioSlave := by
  obtain ⟨-, h⟩ | ⟨-, -, h⟩ | ⟨c, -, -, -, h⟩ | ⟨c, -, -, -, h⟩ := queueReset_cases race s <;> simp [h]
@[simp] theorem queueReset_hostIn (race : Bool) (s : State) : (queueReset race s).hostIn = s.hostIn := by
  obtain ⟨-, h⟩ | ⟨-, -, h⟩ | ⟨c, -, -, -, h⟩ | ⟨c, -, -, -, h⟩ := queueReset_cases race s <;> simp [h]
@[simp] theorem queueReset_sysIn (race : Bool) (s : State) : (queueReset race s).sysIn = s.sysIn := by
  obtain ⟨-, h⟩ | ⟨-, -, h⟩ | ⟨c, -, -, -, h⟩ | ⟨c, -, -, -, h⟩ := queueReset_cases race s <;> simp [h]
@[simp] theorem queueReset_script (race : Bool) (s : State) : (queueReset race s).script = s.script := by
  obtain ⟨-, h⟩ | ⟨-, -, h⟩ | ⟨c, -, -, -, h⟩ | ⟨c, -, -, -, h⟩ := queueReset_cases race s <;> simp [h]
@[simp] theorem queueReset_freeTicks (race : Bool) (s : State) : (queueReset race s).freeTicks = s.freeTicks := by
  obtain ⟨-, h⟩ | ⟨-, -, h⟩ | ⟨c, -, -, -, h⟩ | ⟨c, -, -, -, h⟩ := queueReset_cases race s <;> simp [h]
@[simp] theorem queueReset_cmdq (race : Bool) (s : State) : (queueReset race s).cmdq = [] := rfl
@[simp] theorem queueReset_rspq (race : Bool) (s : State) : (queueReset race s).rspq = [] := rfl

/-- After a queue reset a busy dispatcher discards (R210, R213). -/
theorem queueReset_discard (race : Bool) (s : State) (h : (queueReset race s).disp.busy = true) :
    (queueReset race s).disp.discard = true := by
  obtain ⟨-, e⟩ | ⟨hb, -, e⟩ | ⟨c, hb, -, -, e⟩ | ⟨c, -, -, -, e⟩ := queueReset_cases race s <;>
    simp_all

/-! ## System reset -/

@[simp] theorem sysReset_cmdq (s : State) : (sysReset s).cmdq = [] := rfl
@[simp] theorem sysReset_rspq (s : State) : (sysReset s).rspq = [] := rfl
@[simp] theorem sysReset_disp (s : State) : (sysReset s).disp = Dispatcher.reset := rfl
@[simp] theorem sysReset_io (s : State) : (sysReset s).io = IoBus.reset := rfl
@[simp] theorem sysReset_fw (s : State) : (sysReset s).fw = FwBus.reset := rfl
@[simp] theorem sysReset_ackExpected (s : State) : (sysReset s).ackExpected = false := rfl
@[simp] theorem sysReset_bt (s : State) : (sysReset s).bt = Bt.reset := rfl
@[simp] theorem sysReset_fwWaited (s : State) : (sysReset s).fwWaited = false := rfl
@[simp] theorem sysReset_fwDrives (s : State) : (sysReset s).fwDrives = s.fwDrives := rfl
@[simp] theorem sysReset_ioDrives (s : State) : (sysReset s).ioDrives = s.ioDrives := rfl
@[simp] theorem sysReset_fwSlave (s : State) : (sysReset s).fwSlave = FwSlave.reset := rfl
@[simp] theorem sysReset_ioSlave (s : State) : (sysReset s).ioSlave = IoSlave.reset := rfl
@[simp] theorem sysReset_cfg (s : State) : (sysReset s).cfg = s.cfg := rfl
@[simp] theorem sysReset_psm (s : State) : (sysReset s).psm = s.psm := rfl
@[simp] theorem sysReset_hostIn (s : State) : (sysReset s).hostIn = s.hostIn := rfl
@[simp] theorem sysReset_sysIn (s : State) : (sysReset s).sysIn = s.sysIn := rfl
@[simp] theorem sysReset_script (s : State) : (sysReset s).script = s.script := rfl
@[simp] theorem sysReset_freeTicks (s : State) : (sysReset s).freeTicks = s.freeTicks := rfl

end Sys2Proof.Machine
end

