-- ==== Sys2Proof/Laws/Edges.lean ====
section
/-! SUPPORT. What an edge can do, said once: the outcomes of a host edge, of the dispatcher's step and of a system edge; and
that the instruction an edge runs is the edge. -/

namespace Sys2Proof.Machine

/-! ## The host edge -/

/-- The response queue as the PSM sees it at this edge (R157 step 2). -/
def promotedResponses (s : State) : List (QEntry Response) := promote s.cfg.cdcMin s.hostIn.promote s.rspq

/-- What the PSM's rule does at this edge. -/
def psmOut (s : State) : PsmOut := psmRule s.cfg s.hostIn (visibleHead (promotedResponses s)) s.psm

/-- The state after the PSM's rule, with the command queue q, before a queue reset. -/
def afterPsm (s : State) (q : List (QEntry Command)) : State :=
  { s with
    psm := s.recordLevels (psmOut s).psm
    cmdq := q
    rspq := if (psmOut s).deq then (promotedResponses s).tail else promotedResponses s }

/-- A host edge overflows the command queue, or applies the PSM's rule and then the queue reset if it is due. -/
theorem hostEdge_eq (s : State) :
    hostEdge s =
      match enqueueCommand (psmOut s).enq s.cmdq with
      | none => .fault .cmdQueueOverflow
      | some q =>
        .next (if queueResetDue s.cfg s.hostIn s.psm then queueReset s.hostIn.race (afterPsm s q) else afterPsm s q) := by
  rfl

/-- If a host edge answers a next state, the PSM's rule enqueued into a queue with room, and the state is the rule's, with
the queue reset applied if it is due. -/
theorem hostEdge_next {s t : State} (h : hostEdge s = .next t) :
    ∃ q, enqueueCommand (psmOut s).enq s.cmdq = some q ∧
      t = if queueResetDue s.cfg s.hostIn s.psm then queueReset s.hostIn.race (afterPsm s q) else afterPsm s q := by
  rw [hostEdge_eq] at h
  split at h
  · cases h
  · next q hq => exact ⟨q, hq, by cases h; rfl⟩

/-- The PSM after a host edge: its rule's registers, with the sampled levels recorded. -/
theorem hostEdge_psm {s t : State} (h : hostEdge s = .next t) : t.psm = s.recordLevels (psmOut s).psm := by
  obtain ⟨q, -, rfl⟩ := hostEdge_next h
  split <;> simp [afterPsm]

/-- A host edge leaves the BT, the fabric and the test slaves alone. -/
theorem hostEdge_keeps {s t : State} (h : hostEdge s = .next t) :
    t.cfg = s.cfg ∧ t.ackExpected = s.ackExpected ∧ t.bt = s.bt ∧ t.fwSlave = s.fwSlave ∧ t.ioSlave = s.ioSlave ∧
      t.hostIn = s.hostIn ∧ t.sysIn = s.sysIn ∧ t.script = s.script ∧ t.freeTicks = s.freeTicks ∧
      t.fwWaited = s.fwWaited := by
  obtain ⟨q, -, rfl⟩ := hostEdge_next h
  split <;> simp [afterPsm]

/-! ## The system edge -/

/-- A completion overflows the response queue, finishes the transaction, or waits. -/
theorem complete_cases (a : IoAnswer) (f : FwAnswer) (s : State) :
    (answered a f s.disp.cur = false ∧ complete a f s = some s) ∨
    (answered a f s.disp.cur = true ∧ s.disp.discard = false ∧ 2 ≤ s.rspq.length ∧ complete a f s = none) ∨
    (∃ q, answered a f s.disp.cur = true ∧
      ((s.disp.discard = true ∧ q = s.rspq) ∨
       (s.disp.discard = false ∧ s.rspq.length < 2 ∧
         q = s.rspq ++ [{ payload := respond a f s.disp.cur, vis := false, age := 0 }])) ∧
      complete a f s = some { s with
        rspq := q
        disp := { s.disp with busy := false, discard := false }
        io := { s.io with stb := false }
        fw := { s.fw with stb := false } }) := by
  unfold complete
  cases ha : answered a f s.disp.cur
  · simp
  · cases hd : s.disp.discard
    · by_cases hl : 2 ≤ s.rspq.length
      · simp [pushEntry, hl]
      · right; right
        exact ⟨_, rfl, .inr ⟨rfl, by omega, rfl⟩, by simp [pushEntry, hl]⟩
    · right; right; exact ⟨_, rfl, .inl ⟨rfl, rfl⟩, by simp⟩

/-- The dispatcher's step leaves the PSM, the BT, the fabric and the test slaves alone. -/
theorem bridgeStep_keeps {a : IoAnswer} {f : FwAnswer} {c : Option Command} {s t : State}
    (h : bridgeStep a f c s = some t) :
    t.cfg = s.cfg ∧ t.psm = s.psm ∧ t.ackExpected = s.ackExpected ∧ t.bt = s.bt ∧ t.fwSlave = s.fwSlave ∧
      t.ioSlave = s.ioSlave ∧ t.hostIn = s.hostIn ∧ t.sysIn = s.sysIn ∧ t.script = s.script ∧
      t.freeTicks = s.freeTicks ∧ t.fwWaited = s.fwWaited := by
  unfold bridgeStep at h
  split at h
  · obtain ⟨-, e⟩ | ⟨-, -, -, e⟩ | ⟨q, -, -, e⟩ := complete_cases a f s <;> rw [e] at h <;> cases h <;> simp
  · split at h <;> cases h <;> simp

/-- The state after the dispatcher's step, with the other parts of the edge. -/
def afterBridge (p : Presented) (s s1 : State) : State :=
  { s1 with
    bt := btEdge s.cfg s.sysIn p.target p.host s.bt
    ackExpected := s.io.stb && !s.ackExpected
    fwWaited := s.fw.stb && s1.fw.stb
    fwSlave := fwSlaveEdge s
    ioSlave := ioSlaveEdge s }

/-- A system edge resets, overflows the response queue, or takes the dispatcher's step with the rest of the edge. -/
theorem sysEdge_eq (p : Presented) (s : State) :
    sysEdge p s =
      if s.sysIn.sysRst then .next (sysReset s)
      else
        match bridgeStep (ioAnswer s) (fwAnswer s) p.command { s with cmdq := promotedCommands s } with
        | none => .fault .rspQueueOverflow
        | some s1 => .next (afterBridge p s s1) := rfl

/-- The cases of a system edge that answers a next state. -/
theorem sysEdge_next {p : Presented} {s t : State} (h : sysEdge p s = .next t) :
    (s.sysIn.sysRst = true ∧ t = sysReset s) ∨
    (s.sysIn.sysRst = false ∧ ∃ s1,
      bridgeStep (ioAnswer s) (fwAnswer s) p.command { s with cmdq := promotedCommands s } = some s1 ∧
      t = afterBridge p s s1) := by
  rw [sysEdge_eq] at h
  split at h
  · next hr => left; exact ⟨hr, by cases h; rfl⟩
  · next hr =>
    right
    refine ⟨by simpa using hr, ?_⟩
    split at h
    · cases h
    · next s1 hs => exact ⟨s1, hs, by cases h; rfl⟩

/-- A system edge leaves the PSM alone. -/
theorem sysEdge_psm {p : Presented} {s t : State} (h : sysEdge p s = .next t) : t.psm = s.psm := by
  obtain ⟨-, rfl⟩ | ⟨-, s1, hs, rfl⟩ := sysEdge_next h
  · rfl
  · exact (bridgeStep_keeps hs).2.1

/-! ## The instruction an edge runs is the edge -/

/-- A received PSM is in its first turnaround cycle already. -/
theorem received_self {m : Psm} {c : Command} (hst : m.st = tar1State c.operation) (hcnt : m.cnt = 0)
    (hc : m.command = c) : m.received c = m := by
  subst hc; cases m; simp_all [Psm.received, Psm.command]

/-- The hand-off of the PSM's own command is the host edge. -/
theorem handOff_self {s : State} {c : Command} (hst : s.psm.st = tar1State c.operation) (hcnt : s.psm.cnt = 0)
    (hc : s.psm.command = c) : handOff c s = hostEdge s := by
  simp [handOff, received_self hst hcnt hc]

/-- The command record of a host-bus transaction's instruction. -/
theorem exec_toLpc {c : Command} {i : Instr} (h : c.toLpc = some i) (s : State) : exec i s = handOff c s := by
  obtain ⟨a, d, o, z⟩ := c
  cases o
  · simp only [Command.toLpc, Option.ite_none_right_eq_some, Option.some.injEq] at h
    obtain ⟨⟨rfl, ha, rfl⟩, rfl⟩ := h
    have : (a.setWidth 16).setWidth 28 = a := setWidth_of_high_zero (by rfl) ha
    simp [exec, execLpcIoRead, this]
  · simp only [Command.toLpc, Option.ite_none_right_eq_some, Option.some.injEq] at h
    obtain ⟨⟨rfl, ha, hd⟩, rfl⟩ := h
    have e1 : (a.setWidth 16).setWidth 28 = a := setWidth_of_high_zero (by rfl) ha
    have e2 : (d.setWidth 8).setWidth 32 = d := setWidth_of_high_zero (by rfl) hd
    simp [exec, execLpcIoWrite, e1, e2]
  · simp only [Command.toLpc, Option.ite_none_right_eq_some, Option.some.injEq] at h
    obtain ⟨rfl, rfl⟩ := h
    cases z <;> rfl
  · cases z <;> simp only [Command.toLpc, Option.ite_none_right_eq_some, Option.some.injEq] at h
    · obtain ⟨hd, rfl⟩ := h
      have e2 : (d.setWidth 8).setWidth 32 = d := setWidth_of_high_zero (by rfl) hd
      simp [exec, execLpcFwWrite1, e2]
    · obtain ⟨hd, rfl⟩ := h
      have e2 : (d.setWidth 16).setWidth 32 = d := setWidth_of_high_zero (by rfl) hd
      simp [exec, execLpcFwWrite2, e2]
    · subst h; rfl

/-- The transaction in the PSM's registers is handed over by the host edge itself. -/
theorem exec_psmInstr {s : State} {i : Instr} (h : s.psm.instr = some i) : exec i s = hostEdge s := by
  unfold Psm.instr at h
  split at h
  · next hc =>
    split at h <;> first | cases h | (rw [exec_toLpc h]; exact handOff_self (by simp_all [tar1State, Psm.command]) hc rfl)
  · cases h

/-- A host edge is its PSM rule with its queue reset, whether or not it runs an instruction. -/
theorem hostTick_eq (s : State) : hostTick s = hostEdge s := by
  unfold hostTick
  split
  · next i hi =>
    unfold hostInstr at hi
    split at hi
    · exact exec_psmInstr hi
    · cases hi
  · rfl

/-- A target-window instruction is the edge whose port presents its access. -/
theorem exec_decodeTarget (we : Bool) (adr : BitVec 2) (w : Byte) (s : State) :
    exec (decodeTarget we adr w) s = targetEdge (targetAccess s.cfg s.bt we adr w) s := by
  have : ∀ a : BitVec 2, a = 0 ∨ a = 1 ∨ a = 2 ∨ a = 3 := by decide
  cases we <;> obtain rfl | rfl | rfl | rfl := this adr <;> rfl

/-- A host-window instruction is the edge whose port presents its access. -/
theorem exec_decodeHost (we : Bool) (adr : BitVec 3) (w : Byte) (s : State) :
    exec (decodeHost we adr w) s = hostWindowEdge (hostAccess s.cfg s.bt we adr w) s := by
  have : ∀ a : BitVec 3, a = 0 ∨ a = 1 ∨ a = 2 ∨ a = 3 ∨ a = 4 ∨ a = 5 ∨ a = 6 ∨ a = 7 := by decide
  cases we <;> obtain rfl | rfl | rfl | rfl | rfl | rfl | rfl | rfl := this adr <;> rfl

/-- A bridge command's instruction is the edge that dispatches it. -/
theorem exec_toBridge (c : Command) (s : State) : exec c.toBridge s = dispatchEdge c s := by
  obtain ⟨a, d, o, z⟩ := c
  cases o <;> rfl

/-- The access the target window samples is the one its port presents. -/
theorem exec_sampledTarget {s : State} {i : Instr} (h : sampledTarget s = some i) :
    exec i s = sysEdge (presented s) s := by
  unfold sampledTarget at h
  split at h
  · next hc =>
    cases h
    rw [exec_decodeTarget]
    simp only [targetEdge, presented, presentedTarget, hc.2.2, if_true]
  · cases h

/-- The access the host window samples is the one its port presents. -/
theorem exec_sampledHost {s : State} {i : Instr} (h : sampledHost s = some i) :
    exec i s = sysEdge (presented s) s := by
  unfold sampledHost at h
  split at h
  · next hc =>
    cases h
    rw [exec_decodeHost]
    simp only [hostWindowEdge, presented, presentedHost, hc.2.2, if_true]
  · cases h

/-- The command the dispatcher takes is the one at its queue's visible head. -/
theorem exec_sampledCommand {s : State} {i : Instr} (h : sampledCommand s = some i) :
    exec i s = sysEdge (presented s) s := by
  unfold sampledCommand at h
  split at h
  · simp only [Option.map_eq_some_iff] at h
    obtain ⟨c, hc, rfl⟩ := h
    rw [exec_toBridge]
    simp only [dispatchEdge, presented, hc]
  · cases h

/-- A system edge is the same edge, whether or not it runs an instruction. -/
theorem sysTick_eq (s : State) : sysTick s = sysEdge (presented s) s := by
  unfold sysTick
  split
  · next i hi =>
    unfold sysInstr firstOf at hi
    split at hi
    · next j hj => exact exec_sampledTarget (hj.trans hi)
    · split at hi
      · next j hj => exact exec_sampledHost (hj.trans hi)
      · exact exec_sampledCommand hi
  · rfl

end Sys2Proof.Machine
end

