-- ==== Sys2Proof/Laws/Memory.lean ====
section
/-! SUPPORT. Laws of the test slaves' memories: every operation keeps the canonical form, a read after a write. -/

namespace Sys2Proof.Machine

/-- A tighter bound is a bound. -/
theorem wfAbove_mono {m : Memory} {a b : Nat} (h : a ≤ b) (hm : Memory.wfAbove (some b) m = true) :
    Memory.wfAbove (some a) m = true := by
  cases m with
  | nil => rfl
  | cons x m =>
    simp only [Memory.wfAbove, Bool.and_eq_true, decide_eq_true_eq] at hm ⊢
    exact ⟨⟨by omega, hm.1.2⟩, hm.2⟩

/-- A memory above a bound is canonical. -/
theorem wf_of_wfAbove {m : Memory} {a : Nat} (h : Memory.wfAbove (some a) m = true) : m.wf = true := by
  cases m with
  | nil => rfl
  | cons x m =>
    simp only [Memory.wf, Memory.wfAbove, Bool.and_eq_true, decide_eq_true_eq] at h ⊢
    exact ⟨⟨trivial, h.1.2⟩, h.2⟩

/-- Below its bound a memory lists nothing. -/
theorem read_below {m : Memory} {a b : Nat} (h : a ≤ b) (hm : Memory.wfAbove (some b) m = true) :
    Memory.read m a = Memory.unlisted := by
  induction m generalizing b with
  | nil => rfl
  | cons x m ih =>
    obtain ⟨c, v⟩ := x
    simp only [Memory.wfAbove, Bool.and_eq_true, decide_eq_true_eq] at hm
    obtain ⟨⟨h1, -⟩, h3⟩ := hm
    rw [Memory.read, if_neg (by omega)]
    exact ih (by omega : a ≤ c) h3

/-- A write keeps the canonical form above a bound the address is above. -/
theorem write_wfAbove {m : Memory} {a : Nat} {v : Byte} {b : Option Nat} (hb : ∀ x, b = some x → x < a)
    (hm : Memory.wfAbove b m = true) : Memory.wfAbove b (Memory.write m a v) = true := by
  induction m generalizing b with
  | nil =>
    unfold Memory.write
    split
    · rfl
    · next hv => cases b <;> simp_all [Memory.wfAbove]
  | cons x m ih =>
    obtain ⟨c, w⟩ := x
    simp only [Memory.wfAbove, Bool.and_eq_true, decide_eq_true_eq] at hm
    obtain ⟨⟨h1, h2⟩, h3⟩ := hm
    unfold Memory.write
    split
    · next hac =>
      split
      · simp [Memory.wfAbove, h1, h2, h3]
      · next hv => cases b <;> simp_all [Memory.wfAbove]
    · split
      · next hac =>
        subst hac
        split
        · cases b with
          | none => exact wf_of_wfAbove h3
          | some y => exact wfAbove_mono (le_of_lt (hb y rfl)) h3
        · next hv => simp [Memory.wfAbove, h1, hv, h3]
      · next h4 h5 =>
        have := ih (b := some c) (by intro x hx; cases hx; omega) h3
        simp [Memory.wfAbove, h1, h2, this]

/-- A write keeps the canonical form. -/
theorem write_wf {m : Memory} {a : Nat} {v : Byte} (hm : m.wf = true) : (Memory.write m a v).wf = true :=
  write_wfAbove (by intro x hx; cases hx) hm

/-- A read after a write, above a bound. -/
theorem read_write_above {m : Memory} {a c : Nat} {v : Byte} {b : Option Nat} (hm : Memory.wfAbove b m = true) :
    Memory.read (Memory.write m a v) c = if c = a then v else Memory.read m c := by
  induction m generalizing b with
  | nil =>
    unfold Memory.write
    split
    · next hv => simp [Memory.read, hv]
    · by_cases h : c = a
      · simp [Memory.read, h]
      · simp [Memory.read, h, Ne.symm h]
  | cons x m ih =>
    obtain ⟨d, w⟩ := x
    simp only [Memory.wfAbove, Bool.and_eq_true, decide_eq_true_eq] at hm
    obtain ⟨-, h3⟩ := hm
    unfold Memory.write
    split
    · next hac =>
      have hlow : Memory.read m a = Memory.unlisted := read_below (le_of_lt hac) h3
      split
      · next hv =>
        by_cases h : c = a
        · subst h; simp [Memory.read, hlow, hv]; omega
        · simp [h]
      · by_cases h : c = a
        · simp [Memory.read, h]
        · simp [Memory.read, h, Ne.symm h]
    · split
      · next hac =>
        subst hac
        split
        · next hv =>
          by_cases h : c = a
          · subst h; simp [hv, read_below (le_refl c) h3]
          · simp [Memory.read, h, Ne.symm h]
        · by_cases h : c = a
          · simp [Memory.read, h]
          · simp [Memory.read, h, Ne.symm h]
      · next h4 h5 =>
        rw [Memory.read, ih h3, Memory.read]
        by_cases h : d = c
        · subst h; simp; omega
        · simp [h]

/-- A read after a write: the written value at the address, what was there everywhere else. -/
theorem read_write {m : Memory} {a c : Nat} {v : Byte} (hm : m.wf = true) :
    Memory.read (Memory.write m a v) c = if c = a then v else Memory.read m c :=
  read_write_above hm

/-- Storing one lane keeps the canonical form. -/
theorem writeLane_wf {wa : FwWordAddr} {sel : BitVec 4} {d : Word} {i : Nat} {m : Memory} (hm : m.wf = true) :
    (writeLane wa sel d i m).wf = true := by
  unfold writeLane; split
  · exact write_wf hm
  · exact hm

/-- Storing the selected lanes keeps the canonical form. -/
theorem writeLanes_wf {wa : FwWordAddr} {sel : BitVec 4} {d : Word} {m : Memory} (hm : m.wf = true) :
    (writeLanes wa sel d m).wf = true :=
  writeLane_wf (writeLane_wf (writeLane_wf (writeLane_wf hm)))

/-- A read after one lane was stored. -/
theorem read_writeLane {wa : FwWordAddr} {sel : BitVec 4} {d : Word} {i c : Nat} {m : Memory} (hm : m.wf = true) :
    Memory.read (writeLane wa sel d i m) c =
      if sel.getLsbD i = true ∧ c = laneAddr wa i then d.extractLsb' (8 * i) 8 else Memory.read m c := by
  unfold writeLane
  split
  · next h => simp [read_write hm, h]
  · next h => simp [h]

/-- FWMEM keeps its canonical form at an edge. -/
theorem fwSlaveEdge_wf {s : State} (h : s.fwSlave.mem.wf = true) : (fwSlaveEdge s).mem.wf = true := by
  unfold fwSlaveEdge
  split
  · split
    · exact h
    · split
      · split
        · exact writeLanes_wf h
        · exact h
      · exact h
  · exact h

/-- The test RAM keeps its canonical form at an edge. -/
theorem ioSlaveEdge_wf {s : State} (h : s.ioSlave.mem.wf = true) : (ioSlaveEdge s).mem.wf = true := by
  unfold ioSlaveEdge
  split
  · split
    · exact h
    · split
      · split
        · exact write_wf h
        · exact h
      · exact h
  · exact h

end Sys2Proof.Machine
end

