-- ==== Sys2Proof/Laws/PerInstr.lean ====
section
/-! SUPPORT. Statements made of every instruction, one lemma per constructor: the number of host-driven symbols of a
transaction (30_encoding.md R108), none for an access or a bridge command. -/

namespace Sys2Proof.Laws.EncodedLength

/-- The host-driven symbol count of the formats (R108). -/
def symbolCount : Instr → Nat
  | .lpcIoRead _ => 8
  | .lpcIoWrite _ _ => 10
  | .lpcFwRead1 _ => 12
  | .lpcFwRead2 _ => 12
  | .lpcFwRead4 _ => 12
  | .lpcFwWrite1 _ _ => 14
  | .lpcFwWrite2 _ _ => 16
  | .lpcFwWrite4 _ _ => 20
  | .tCtrlRd => 0
  | .tCtrlWr _ => 0
  | .tDataRd => 0
  | .tDataWr _ => 0
  | .tIntcfgRd => 0
  | .tIntcfgWr _ => 0
  | .tRsvdRd => 0
  | .tRsvdWr _ => 0
  | .hMaskRd => 0
  | .hMaskWr _ => 0
  | .hStatusRd => 0
  | .hStatusWr _ => 0
  | .hCtrlRd => 0
  | .hCtrlWr _ => 0
  | .hDataRd => 0
  | .hDataWr _ => 0
  | .hRsvdRd _ => 0
  | .hRsvdWr _ _ => 0
  | .brIoRead _ _ _ => 0
  | .brIoWrite _ _ _ => 0
  | .brFwRead _ _ _ => 0
  | .brFwWrite _ _ _ => 0

/-- The symbols at the host bus of an encoding. -/
def symbols : Encoded → List Nibble
  | .lpc l => l
  | .target _ _ _ => []
  | .host _ _ _ => []
  | .bridge _ _ _ _ => []

/-- The encoder sends as many symbols as the format's table says. -/
def Statement (i : Instr) : Prop := ∀ p : Params, (symbols (encode p i)).length = symbolCount i

theorem lpcIoRead (a : IoAddr) : Statement (.lpcIoRead a) := by
  intro p; simp [encode, symbols, encodeIoRead, tarSymbols, symbolCount]
theorem lpcIoWrite (a : IoAddr) (d : Byte) : Statement (.lpcIoWrite a d) := by
  intro p; simp [encode, symbols, encodeIoWrite, tarSymbols, symbolCount]
theorem lpcFwRead1 (a : FwAddr) : Statement (.lpcFwRead1 a) := by
  intro p; simp [encode, symbols, encodeFwRead, tarSymbols, symbolCount]
theorem lpcFwRead2 (a : FwAddr) : Statement (.lpcFwRead2 a) := by
  intro p; simp [encode, symbols, encodeFwRead, tarSymbols, symbolCount]
theorem lpcFwRead4 (a : FwAddr) : Statement (.lpcFwRead4 a) := by
  intro p; simp [encode, symbols, encodeFwRead, tarSymbols, symbolCount]
theorem lpcFwWrite1 (a : FwAddr) (d : BitVec 8) : Statement (.lpcFwWrite1 a d) := by
  intro p; simp [encode, symbols, encodeFwWrite, tarSymbols, symbolCount, Size.bytes]
theorem lpcFwWrite2 (a : FwAddr) (d : BitVec 16) : Statement (.lpcFwWrite2 a d) := by
  intro p; simp [encode, symbols, encodeFwWrite, tarSymbols, symbolCount, Size.bytes]
theorem lpcFwWrite4 (a : FwAddr) (d : BitVec 32) : Statement (.lpcFwWrite4 a d) := by
  intro p; simp [encode, symbols, encodeFwWrite, tarSymbols, symbolCount, Size.bytes]
theorem tCtrlRd : Statement .tCtrlRd := fun _ => rfl
theorem tCtrlWr (w : Byte) : Statement (.tCtrlWr w) := fun _ => rfl
theorem tDataRd : Statement .tDataRd := fun _ => rfl
theorem tDataWr (w : Byte) : Statement (.tDataWr w) := fun _ => rfl
theorem tIntcfgRd : Statement .tIntcfgRd := fun _ => rfl
theorem tIntcfgWr (w : Byte) : Statement (.tIntcfgWr w) := fun _ => rfl
theorem tRsvdRd : Statement .tRsvdRd := fun _ => rfl
theorem tRsvdWr (w : Byte) : Statement (.tRsvdWr w) := fun _ => rfl
theorem hMaskRd : Statement .hMaskRd := fun _ => rfl
theorem hMaskWr (w : Byte) : Statement (.hMaskWr w) := fun _ => rfl
theorem hStatusRd : Statement .hStatusRd := fun _ => rfl
theorem hStatusWr (w : Byte) : Statement (.hStatusWr w) := fun _ => rfl
theorem hCtrlRd : Statement .hCtrlRd := fun _ => rfl
theorem hCtrlWr (w : Byte) : Statement (.hCtrlWr w) := fun _ => rfl
theorem hDataRd : Statement .hDataRd := fun _ => rfl
theorem hDataWr (w : Byte) : Statement (.hDataWr w) := fun _ => rfl
theorem hRsvdRd (off : BitVec 3) : Statement (.hRsvdRd off) := fun _ => rfl
theorem hRsvdWr (off : BitVec 3) (w : Byte) : Statement (.hRsvdWr off w) := fun _ => rfl
theorem brIoRead (address : FwAddr) (data : Word) (size : Size) : Statement (.brIoRead address data size) := fun _ => rfl
theorem brIoWrite (address : FwAddr) (data : Word) (size : Size) : Statement (.brIoWrite address data size) := fun _ => rfl
theorem brFwRead (address : FwAddr) (data : Word) (size : Size) : Statement (.brFwRead address data size) := fun _ => rfl
theorem brFwWrite (address : FwAddr) (data : Word) (size : Size) : Statement (.brFwWrite address data size) := fun _ => rfl

end Sys2Proof.Laws.EncodedLength
end

