-- ==== Sys2Proof/Laws/Queues.lean ====
section
/-! SUPPORT. What ageing and promotion, a push and a dequeue do to a crossing queue. -/

namespace Sys2Proof.Machine

variable {α : Type}

@[simp] theorem promoteFrom_length (c : Nat) (d : BitVec 2) (i : Nat) (a : Bool) (q : List (QEntry α)) :
    (promoteFrom c d i a q).length = q.length := by
  induction q generalizing i a with
  | nil => rfl
  | cons e q ih => simp [promoteFrom, ih]

@[simp] theorem promote_length (c : Nat) (d : BitVec 2) (q : List (QEntry α)) :
    (promote c d q).length = q.length := promoteFrom_length ..

@[simp] theorem promote_nil (c : Nat) (d : BitVec 2) : promote c d ([] : List (QEntry α)) = [] := rfl

/-- Promotion moves no payload. -/
theorem promoteFrom_payload (c : Nat) (d : BitVec 2) (i : Nat) (a : Bool) (q : List (QEntry α)) :
    (promoteFrom c d i a q).map QEntry.payload = q.map QEntry.payload := by
  induction q generalizing i a with
  | nil => rfl
  | cons e q ih => simp [promoteFrom, ih]

/-- Promotion keeps every age within `P_CDC_MIN` and makes no younger entry visible. -/
theorem promoteFrom_aged (c : Nat) (d : BitVec 2) (i : Nat) (a : Bool) (q : List (QEntry α))
    (h : ∀ e ∈ q, e.aged c) : ∀ e ∈ promoteFrom c d i a q, e.aged c := by
  induction q generalizing i a with
  | nil => simp [promoteFrom]
  | cons x q ih =>
    intro e he
    simp only [promoteFrom, List.mem_cons] at he
    obtain rfl | he := he
    · obtain ⟨h1, h2⟩ := h x (by simp)
      refine ⟨by simp, ?_⟩
      simp only [Bool.or_eq_true, Bool.and_eq_true, decide_eq_true_eq]
      rintro (hv | ⟨⟨hc, -⟩, -⟩)
      · have := h2 hv; omega
      · omega
    · exact ih _ _ (fun y hy => h y (by simp [hy])) e he

theorem promote_aged {c : Nat} {d : BitVec 2} {q : List (QEntry α)} (h : ∀ e ∈ q, e.aged c) :
    ∀ e ∈ promote c d q, e.aged c := promoteFrom_aged c d 0 true q h

/-- The two outcomes of a push. -/
theorem pushEntry_cases (q : List (QEntry α)) (x : α) :
    (2 ≤ q.length ∧ pushEntry q x = none) ∨
    (q.length < 2 ∧ pushEntry q x = some (q ++ [{ payload := x, vis := false, age := 0 }])) := by
  unfold pushEntry
  by_cases h : 2 ≤ q.length
  · simp [h]
  · right; exact ⟨by omega, by simp [h]⟩

/-- A new entry is of age 0 and invisible. -/
theorem aged_new (c : Nat) (x : α) : QEntry.aged c { payload := x, vis := false, age := 0 } := by
  simp [QEntry.aged]

/-- Taking a visible head takes an entry away. -/
theorem length_of_visibleHead {q : List (QEntry α)} {x : α} (h : visibleHead q = some x) :
    q.length = q.tail.length + 1 := by
  cases q with
  | nil => simp [visibleHead] at h
  | cons e q => simp

theorem mem_tail {q : List (QEntry α)} {e : QEntry α} (h : e ∈ q.tail) : e ∈ q := List.mem_of_mem_tail h

end Sys2Proof.Machine
end

