-- ==== Sys2Proof/Tests/Slice0.lean ====
section
/-! SUPPORT. Tests of the model against the spec's own encodings, examples and vectors (30_encoding.md, 95_test_vectors.md),
and for every obligation with hypotheses a theorem `witness_…` that meets them. -/

namespace Sys2Proof.Tests

open Sys2Proof Sys2Proof.Machine

/-! ## Helpers -/

/-- The outcome is a next state with the property. -/
def nextIs (o : Host.Outcome State Fault Refusal) (p : State → Bool) : Bool :=
  match o with
  | .next t => p t
  | .fault _ => false
  | .refused _ => false

/-- The outcome is a next state. -/
def isNext (o : Host.Outcome State Fault Refusal) : Bool := nextIs o (fun _ => true)

theorem exists_next {o : Host.Outcome State Fault Refusal} (h : isNext o = true) : ∃ t, o = .next t := by
  unfold isNext nextIs at h
  split at h
  · exact ⟨_, rfl⟩
  · cases h
  · cases h

theorem exists_nextIs {o : Host.Outcome State Fault Refusal} {p : State → Bool} (h : nextIs o p = true) :
    ∃ t, o = .next t ∧ p t = true := by
  unfold nextIs at h
  split at h
  · exact ⟨_, rfl, h⟩
  · cases h
  · cases h

/-- Reset with the BT changed. -/
def withBt (f : Bt → Bt) : State := { State.reset with bt := f State.reset.bt }

/-- Reset with the flags given as a status byte. -/
def withFlags (t2b b2t sms plat tbusy bbusy : Bool) : Bt → Bt := fun b =>
  { b with flags := { t2bAttn := t2b, b2tAttn := b2t, smsAttn := sms, platRsvd := plat, targetBusy := tbusy, bmcBusy := bbusy } }

/-- A host edge that samples a start symbol. -/
def startIn (n : Nibble) : HostIn := { HostIn.quiet with lframe := false, lad := n }

/-- A host edge that samples a symbol, neither line active. -/
def symbolIn (n : Nibble) : HostIn := { HostIn.quiet with lad := n }

/-- A host edge that samples the reset line. -/
def resetIn : HostIn := { HostIn.quiet with lreset := false }

/-- Reset with a PSM state, counter and operation, at a host edge with these inputs. -/
def hostAt (h : HostIn) (st : PsmState) (cnt : BitVec 3) (op : Op) : State :=
  { State.reset with hostIn := h, psm := { State.reset.psm with st := st, cnt := cnt, op := op } }

/-- The PSM in a SYNC state, driving long wait. -/
def syncing (st : PsmState) (op : Op) : State :=
  let s := hostAt HostIn.quiet st 0 op
  { s with psm := { s.psm with ladOut := 0b0110, ladEn := true } }

/-- A response at the visible head of the response queue. -/
def answeredBy (r : Response) (s : State) : State := { s with rspq := [{ payload := r, vis := true, age := 1 }] }

/-- A busy dispatcher with this command, its bus driven. -/
def busyWith (c : Command) : State := driveBus c { State.reset with disp := { busy := true, discard := false, cur := c } }

/-- A read of the target window's control register, by map M0. -/
def ioReadE4 : Command := { address := 0x00000E4, data := 0, operation := .ioRead, size := .one }

/-- A firmware read. -/
def fwRead2 : Command := { address := 0x0001002, data := 0, operation := .fwRead, size := .two }

/-- A map that reaches the host window, for R223. -/
def hostMapped : Params := { Params.default with ioMap := [(0x0100, .btH 0), (0x0105, .btH 5)] }

/-- A map that reaches no BT window: environment masters drive both (R223). -/
def unmapped : Params := { Params.default with ioMap := [] }

/-- A system edge with a target-window access by its environment master. -/
def targetIn (we : Bool) (adr : BitVec 2) (w : Byte) : SysIn :=
  { SysIn.quiet with tPort := { stb := true, we := we, adr := adr, datW := w } }

/-- A system edge with a host-window access by its environment master. -/
def hostWinIn (we : Bool) (adr : BitVec 3) (w : Byte) : SysIn :=
  { SysIn.quiet with hPort := { stb := true, we := we, adr := adr, datW := w } }

/-! ## WellFormed refuses ill-formed terms -/

theorem test_wf_hRsvdRd_refuses_control : (Instr.hRsvdRd 4).wf = false := by decide
theorem test_wf_hRsvdRd_accepts : (Instr.hRsvdRd 2).wf && (Instr.hRsvdRd 3).wf && (Instr.hRsvdRd 6).wf && (Instr.hRsvdRd 7).wf = true := by decide
theorem test_wf_hRsvdWr_refuses_data : (Instr.hRsvdWr 5 0xFF).wf = false := by decide
theorem test_wf_layout_refuses_repeated : (StatusLayout.wf { StatusLayout.default with bmcBusy := 6 }) = false := by decide
theorem test_wf_layout_refuses_low_bit : (StatusLayout.wf { StatusLayout.default with bmcBusy := 1 }) = false := by decide
theorem test_wf_params_refuses_depth_zero : (Params.wf { Params.default with btDepth := 0 }) = false := by decide
theorem test_wf_params_refuses_cdc_zero : (Params.wf { Params.default with cdcMin := 0 }) = false := by decide
theorem test_wf_params_default : Params.default.wf = true := by decide

/-! ## Decoding words written out from the spec's encodings -/

-- R110, R130 and V1: `IOR 0x03F8`
theorem test_decode_lpcIoRead :
    decode Params.default (.lpc [0b0000, 0b0000, 0b1000, 0b1111, 0b0011, 0b0000, 0b1111, 0b1111]) = .ok (.lpcIoRead 0x03F8) := by
  decide
-- R111, R161 (b): CT `0011` is also a write
theorem test_decode_lpcIoWrite :
    decode Params.default (.lpc [0b0000, 0b0011, 0b1000, 0b1111, 0b0011, 0b0000, 0b0001, 0b0011, 0b1111, 0b1111]) =
      .ok (.lpcIoWrite 0x03F8 0x13) := by decide
-- R112, V14
theorem test_decode_lpcFwRead1 :
    decode Params.default (.lpc [0b1101, 0b0000, 1, 2, 3, 4, 5, 6, 7, 0b0000, 0b1111, 0b1111]) = .ok (.lpcFwRead1 0x7654321) := by
  decide
theorem test_decode_lpcFwRead2 :
    decode Params.default (.lpc [0b1101, 0b1010, 2, 0, 0, 1, 0, 0, 0, 0b0001, 0b1111, 0b1111]) = .ok (.lpcFwRead2 0x0001002) := by
  decide
theorem test_decode_lpcFwRead4 :
    decode Params.default (.lpc [0b1101, 0b0000, 0xF, 0xF, 0xF, 0xF, 0xF, 0xF, 0xF, 0b0010, 0b1111, 0b1111]) =
      .ok (.lpcFwRead4 0xFFFFFFF) := by decide
-- R113, V15, V26
theorem test_decode_lpcFwWrite1 :
    decode Params.default (.lpc [0b1110, 0b0000, 1, 0, 0, 1, 0, 0, 0, 0b0000, 0xA, 0x5, 0b1111, 0b1111]) =
      .ok (.lpcFwWrite1 0x0001001 0xA5) := by decide
-- V2: `FWW.2 0x0001002, 0xBEEF` is `E 0 2 0 0 1 0 0 0 1 B E E F F F`
theorem test_decode_lpcFwWrite2 :
    decode Params.default (.lpc [0xE, 0, 2, 0, 0, 1, 0, 0, 0, 1, 0xB, 0xE, 0xE, 0xF, 0xF, 0xF]) =
      .ok (.lpcFwWrite2 0x0001002 0xBEEF) := by decide
-- V15: size 4, `C A F E F 0 0 D`
theorem test_decode_lpcFwWrite4 :
    decode Params.default (.lpc [0xE, 0, 0, 0, 0, 1, 0, 0, 0, 2, 0xC, 0xA, 0xF, 0xE, 0xF, 0, 0, 0xD, 0xF, 0xF]) =
      .ok (.lpcFwWrite4 0x0001000 0xCAFEF00D) := by decide
-- R120: the keys of the target window
theorem test_decode_target_window :
    decode Params.default (.target false 0b00 0) = .ok .tCtrlRd ∧
    decode Params.default (.target true 0b00 0x04) = .ok (.tCtrlWr 0x04) ∧
    decode Params.default (.target false 0b01 0) = .ok .tDataRd ∧
    decode Params.default (.target true 0b01 0x5A) = .ok (.tDataWr 0x5A) ∧
    decode Params.default (.target false 0b10 0) = .ok .tIntcfgRd ∧
    decode Params.default (.target true 0b10 0x03) = .ok (.tIntcfgWr 0x03) ∧
    decode Params.default (.target false 0b11 0) = .ok .tRsvdRd ∧
    decode Params.default (.target true 0b11 0xFF) = .ok (.tRsvdWr 0xFF) := by decide
-- R121: the keys of the host window
theorem test_decode_host_window :
    decode Params.default (.host false 0b000 0) = .ok .hMaskRd ∧
    decode Params.default (.host true 0b000 0xFF) = .ok (.hMaskWr 0xFF) ∧
    decode Params.default (.host false 0b001 0) = .ok .hStatusRd ∧
    decode Params.default (.host true 0b001 0x02) = .ok (.hStatusWr 0x02) ∧
    decode Params.default (.host false 0b100 0) = .ok .hCtrlRd ∧
    decode Params.default (.host true 0b100 0x08) = .ok (.hCtrlWr 0x08) ∧
    decode Params.default (.host false 0b101 0) = .ok .hDataRd ∧
    decode Params.default (.host true 0b101 0x42) = .ok (.hDataWr 0x42) ∧
    decode Params.default (.host false 0b010 0) = .ok (.hRsvdRd 2) ∧
    decode Params.default (.host true 0b111 0xFF) = .ok (.hRsvdWr 7 0xFF) := by decide
-- R123: IoRead=0, IoWrite=1, FwRead=2, FwWrite=3; size coding 1=0, 2=1, 4=2
theorem test_decode_bridge :
    decode Params.default (.bridge 0b00 0x03F8 0 0b00) = .ok (.brIoRead 0x03F8 0 .one) ∧
    decode Params.default (.bridge 0b01 0x03F8 0x13 0b00) = .ok (.brIoWrite 0x03F8 0x13 .one) ∧
    decode Params.default (.bridge 0b10 0x0001002 0 0b01) = .ok (.brFwRead 0x0001002 0 .two) ∧
    decode Params.default (.bridge 0b11 0x0001000 0xCAFEF00D 0b10) = .ok (.brFwWrite 0x0001000 0xCAFEF00D .four) := by decide
-- R114, V27 to V29, and the size code that R123 gives no meaning
theorem test_decode_refuses_by_name :
    decode Params.default (.lpc [0b1111, 0b1111]) = .error (.illegalStart 0b1111) ∧
    decode Params.default (.lpc [0b0000, 0b0100, 0, 0]) = .error (.unsupportedCycleType 0b0100) ∧
    decode Params.default (.lpc [0b1101, 0, 0, 0, 0, 0, 0, 0, 0, 0b0011]) = .error (.unsupportedMsize 0b0011) ∧
    decode { Params.default with fwIdsel := some 5 } (.lpc [0b1101, 4, 0]) = .error (.idselMismatch 4) ∧
    decode Params.default (.lpc [0b0000, 0b0000, 0, 0]) = .error .truncated ∧
    decode Params.default (.bridge 0b00 0 0 0b11) = .error .reservedSizeCode := by decide

/-! ## One step of each instruction, expected values from the spec's examples and vectors -/

-- R160: cmd = (address zext a, data 0, IoRead, size 1)
theorem test_lpcIoRead :
    nextIs (exec (.lpcIoRead 0xFFFF) State.reset) (fun t => decide (t.cmdq =
      [{ payload := { address := 0x000FFFF, data := 0, operation := .ioRead, size := .one }, vis := false, age := 0 }] ∧
      t.psm.st = .rdTar1 ∧ t.psm.cnt = 1)) = true := by decide
-- R161
theorem test_lpcIoWrite :
    nextIs (exec (.lpcIoWrite 0x03F8 0x13) State.reset) (fun t => decide (t.cmdq =
      [{ payload := { address := 0x00003F8, data := 0x00000013, operation := .ioWrite, size := .one }, vis := false, age := 0 }] ∧
      t.psm.st = .wrTar1)) = true := by decide
-- R162 to R164
theorem test_lpcFwRead1 :
    nextIs (exec (.lpcFwRead1 0x0001003) State.reset) (fun t => decide (t.cmdq.map QEntry.payload =
      [{ address := 0x0001003, data := 0, operation := .fwRead, size := .one }])) = true := by decide
theorem test_lpcFwRead2 :
    nextIs (exec (.lpcFwRead2 0x0001002) State.reset) (fun t => decide (t.cmdq.map QEntry.payload =
      [{ address := 0x0001002, data := 0, operation := .fwRead, size := .two }])) = true := by decide
theorem test_lpcFwRead4 :
    nextIs (exec (.lpcFwRead4 0x0001000) State.reset) (fun t => decide (t.cmdq.map QEntry.payload =
      [{ address := 0x0001000, data := 0, operation := .fwRead, size := .four }])) = true := by decide
-- R165 to R167
theorem test_lpcFwWrite1 :
    nextIs (exec (.lpcFwWrite1 0x0001001 0xA5) State.reset) (fun t => decide (t.cmdq.map QEntry.payload =
      [{ address := 0x0001001, data := 0x000000A5, operation := .fwWrite, size := .one }])) = true := by decide
theorem test_lpcFwWrite2 :
    nextIs (exec (.lpcFwWrite2 0x0001002 0xBEEF) State.reset) (fun t => decide (t.cmdq.map QEntry.payload =
      [{ address := 0x0001002, data := 0x0000BEEF, operation := .fwWrite, size := .two }])) = true := by decide
theorem test_lpcFwWrite4 :
    nextIs (exec (.lpcFwWrite4 0x0001000 0x12345678) State.reset) (fun t => decide (t.cmdq.map QEntry.payload =
      [{ address := 0x0001000, data := 0x12345678, operation := .fwWrite, size := .four }])) = true := by decide

-- V50 row 1
theorem test_tCtrlRd :
    nextIs (exec .tCtrlRd (withBt (withFlags false true false false false true)))
      (fun t => decide (t.bt.tWin = { st := .ack, datR := 0x88 })) = true := by decide
-- V50 row 2: status byte 0x64, no clear pulse
theorem test_tCtrlWr :
    nextIs (exec (.tCtrlWr 0xFC) State.reset)
      (fun t => decide (statusByte t.cfg.layout t.bt.flags = 0x64 ∧ t.bt.clrT2h = false ∧ t.bt.tWin.st = .ack)) = true := by decide
-- R261's example: the event is latched under the mask
theorem test_tCtrlWr_raises_host_irq :
    nextIs (exec (.tCtrlWr 0x04) (withBt (fun b => { b with hMask := 0b01 })))
      (fun t => decide (t.bt.hStatus = 0b01) && hostIrq t.bt) = true := by decide
-- V50: data read, and the empty FIFO
theorem test_tDataRd :
    nextIs (exec .tDataRd (withBt (fun b => { b with fifoH2t := [0x11, 0x22] })))
      (fun t => decide (t.bt.tWin.datR = 0x11 ∧ t.bt.fifoH2t = [0x22])) = true := by decide
theorem test_tDataRd_empty :
    nextIs (exec .tDataRd (withBt (fun b => { b with tWin := { st := .idle, datR := 0x77 } })))
      (fun t => decide (t.bt.tWin = { st := .ack, datR := 0x00 } ∧ t.bt.fifoH2t = [])) = true := by decide
-- V50: data write, and the full FIFO
theorem test_tDataWr :
    nextIs (exec (.tDataWr 0x5A) State.reset) (fun t => decide (t.bt.fifoT2h = [0x5A] ∧ t.bt.tWin.st = .ack)) = true := by decide
theorem test_tDataWr_full :
    nextIs (exec (.tDataWr 5) (withBt (fun b => { b with fifoT2h := [1, 2, 3, 4] })))
      (fun t => decide (t.bt.fifoT2h = [1, 2, 3, 4] ∧ t.bt.tWin.st = .ack)) = true := by decide
-- V50: interrupt configuration
theorem test_tIntcfgRd :
    nextIs (exec .tIntcfgRd (withBt (fun b => { b with tEn := true, tPend := true })))
      (fun t => decide (t.bt.tWin.datR = 0x03)) = true := by decide
theorem test_tIntcfgWr :
    nextIs (exec (.tIntcfgWr 0x03) (withBt (fun b => { b with tEn := true, tPend := true })))
      (fun t => decide (t.bt.tEn = true ∧ t.bt.tPend = false)) = true := by decide
theorem test_tIntcfgWr_disable :
    nextIs (exec (.tIntcfgWr 0x00) (withBt (fun b => { b with tEn := true, tPend := true })))
      (fun t => decide (t.bt.tEn = false ∧ t.bt.tPend = true ∧ targetIrq t.bt = false)) = true := by decide
-- V50: the unlisted offset
theorem test_tRsvdRd :
    nextIs (exec .tRsvdRd (withBt (withFlags true true true true true true))) (fun t => decide (t.bt.tWin.datR = 0x00)) = true := by
  decide
theorem test_tRsvdWr :
    nextIs (exec (.tRsvdWr 0xFF) State.reset)
      (fun t => decide (t.bt = { Bt.reset with tWin := { st := .ack, datR := 0 } })) = true := by decide

-- V51
theorem test_hMaskRd :
    nextIs (exec .hMaskRd (withBt (fun b => { b with hMask := 0b11 }))) (fun t => decide (t.bt.hWin.datR = 0x03)) = true := by decide
theorem test_hMaskWr :
    nextIs (exec (.hMaskWr 0xFF) State.reset) (fun t => decide (t.bt.hMask = 0b11)) = true := by decide
theorem test_hStatusRd :
    nextIs (exec .hStatusRd (withBt (fun b => { b with hStatus := 0b10 })))
      (fun t => decide (t.bt.hWin.datR = 0x02 ∧ t.bt.hStatus = 0b10)) = true := by decide
theorem test_hStatusWr :
    nextIs (exec (.hStatusWr 0x02) (withBt (fun b => { b with hStatus := 0b11 }))) (fun t => decide (t.bt.hStatus = 0b10)) = true := by
  decide
theorem test_hStatusWr_sets :
    nextIs (exec (.hStatusWr 0x01) (withBt (fun b => { b with hMask := 0b01 }))) (fun t => hostIrq t.bt) = true := by decide
theorem test_hCtrlRd :
    nextIs (exec .hCtrlRd (withBt (withFlags true false false true true false))) (fun t => decide (t.bt.hWin.datR = 0x64)) = true := by
  decide
-- V51: `BT.H.WR 4, 0xFC` on the flags of V50 row 2 leaves status byte 0xD8
theorem test_hCtrlWr :
    nextIs (exec (.hCtrlWr 0xFC) (withBt (withFlags true false false true true false)))
      (fun t => decide (statusByte t.cfg.layout t.bt.flags = 0xD8)) = true := by decide
-- R275's example
theorem test_hCtrlWr_raises_target_irq :
    nextIs (exec (.hCtrlWr 0x10) (withBt (fun b => { b with tEn := true }))) (fun t => targetIrq t.bt && t.bt.flags.smsAttn) = true := by
  decide
theorem test_hDataRd :
    nextIs (exec .hDataRd (withBt (fun b => { b with fifoT2h := [0xAA] })))
      (fun t => decide (t.bt.hWin.datR = 0xAA ∧ t.bt.fifoT2h = [])) = true := by decide
theorem test_hDataWr :
    nextIs (exec (.hDataWr 0x42) State.reset) (fun t => decide (t.bt.fifoH2t = [0x42])) = true := by decide
theorem test_hRsvdRd :
    nextIs (exec (.hRsvdRd 6) (withBt (fun b => { b with hMask := 0b11, hStatus := 0b11 })))
      (fun t => decide (t.bt.hWin.datR = 0x00)) = true := by decide
theorem test_hRsvdWr :
    nextIs (exec (.hRsvdWr 2 0xFF) State.reset)
      (fun t => decide (t.bt = { Bt.reset with hWin := { st := .ack, datR := 0 } })) = true := by decide

-- R230, V42 and R231: `io_adr = 0x03F8`, `io_dat_w = 0x13`, `io_we = 1`
theorem test_brIoRead :
    nextIs (exec (.brIoRead 0x00000E5 0 .one) State.reset)
      (fun t => decide (t.io = { stb := true, we := false, adr := 0x00E5, datW := 0, sel := true } ∧ t.fw.stb = false)) = true := by
  decide
theorem test_brIoWrite :
    nextIs (exec (.brIoWrite 0x00003F8 0x13 .one) State.reset)
      (fun t => decide (t.io = { stb := true, we := true, adr := 0x03F8, datW := 0x13, sel := true })) = true := by decide
-- R232, V40: size 2 at a[1:0] = 2
theorem test_brFwRead :
    nextIs (exec (.brFwRead 0x0001002 0 .two) State.reset)
      (fun t => decide (t.fw = { stb := true, we := false, adr := 0x0000400, datW := 0, sel := 0b1100 })) = true := by decide
-- R233, document §8
theorem test_brFwWrite :
    nextIs (exec (.brFwWrite 0x0001002 0xBEEF .two) State.reset)
      (fun t => decide (t.fw = { stb := true, we := true, adr := 0x0000400, datW := 0xBEEF0000, sel := 0b1100 })) = true := by decide
-- V40: size 1, a[1:0] = 3, data 0x44; V26: size 4 ignores a[1:0]
theorem test_brFwWrite_lanes :
    nextIs (exec (.brFwWrite 0x0000003 0x44 .one) State.reset) (fun t => decide (t.fw.sel = 0b1000 ∧ t.fw.datW = 0x44000000)) = true ∧
    nextIs (exec (.brFwWrite 0x0001002 0x12345678 .four) State.reset)
      (fun t => decide (t.fw.sel = 0b1111 ∧ t.fw.datW = 0x12345678)) = true := by decide

/-! ## The rules that belong to no single instruction -/

-- V13: after the first nibble `8`, addr = 0x0008000
theorem test_ioAddr_first_nibble :
    nextIs (hostTick (hostAt (symbolIn 8) .ioAddr 0 .ioRead)) (fun t => decide (t.psm.addr = 0x0008000)) = true := by decide
-- V41 and R208: a 2-byte read at lane 2
theorem test_completion_fw :
    nextIs (sysTick { busyWith fwRead2 with sysIn := { SysIn.quiet with fwAck := true, fwDatR := 0xAABBCCDD } })
      (fun t => decide (t.rspq.map QEntry.payload = [{ data := 0x0000AABB, error := false }] ∧ t.fw.stb = false)) = true := by decide
-- V21, V47: nobody acknowledges in the window
theorem test_io_error_window :
    nextIs (sysTick { busyWith { ioReadE4 with address := 0x0000080 } with ackExpected := true })
      (fun t => decide (t.rspq.map (fun e => e.payload.error) = [true] ∧ t.disp.busy = false)) = true := by decide
-- V44, `taken`
theorem test_queueReset_taken :
    decide ((queueReset true { State.reset with cmdq := [{ payload := ioReadE4, vis := true, age := 1 }] }).disp =
      { busy := true, discard := true, cur := ioReadE4 }) = true := by decide
-- V16: size 2 keeps 0x5678
theorem test_rdSync_narrows :
    nextIs (hostTick (answeredBy { data := 0x12345678, error := false }
        { syncing .rdSync .fwRead with psm := { (syncing .rdSync .fwRead).psm with size := .two } }))
      (fun t => decide (t.psm.data = 0x00005678 ∧ t.psm.wire = some 0b0000)) = true := by decide
-- 95_test_vectors.md, FWMEM: lanes 2 and 3 of word 0x400
theorem test_fwmem_write :
    writeLanes 0x400 0b1100 0xBEEF0000 [] = [(0x1002, 0xEF), (0x1003, 0xBE)] := by decide
-- the canonical form: writing the unlisted value removes the entry
theorem test_memory_canonical : Memory.write [(1, 5), (3, 7)] 1 0 = [(3, 7)] := by decide

-- R353, I15: after a system reset abandons transaction 1, its late acknowledge meets transaction 2 and is outside the contract
theorem test_late_ack_outside_contract :
    let s : State := { busyWith fwRead2 with fwWaited := true, fwDrives := 2 }
    ¬State.FwSlaveContract { s with sysIn := { SysIn.quiet with fwAck := true, fwAckOf := 1 } } ∧
      State.FwSlaveContract { s with sysIn := { SysIn.quiet with fwAck := true, fwAckOf := 2 } } := by
  unfold State.FwSlaveContract; decide
-- R221: an acknowledge in the first strobe cycle is outside the contract
theorem test_first_cycle_ack_outside_contract :
    ¬State.FwSlaveContract { busyWith fwRead2 with sysIn := { SysIn.quiet with fwAck := true, fwAckOf := 1 } } := by
  unfold State.FwSlaveContract; decide
-- R353, R222: the same of an I/O acknowledge that meets the window of a later transaction
theorem test_late_io_ack_outside_contract :
    let s : State := { busyWith { ioReadE4 with address := 0x0000080 } with ackExpected := true, ioDrives := 2 }
    ¬State.IoSlaveContract { s with sysIn := { SysIn.quiet with ioAck := true, ioAckOf := 1 } } ∧
      State.IoSlaveContract { s with sysIn := { SysIn.quiet with ioAck := true, ioAckOf := 2 } } := by
  unfold State.IoSlaveContract; decide
-- the transaction a drive starts has a number of its own, which a system reset does not give back
theorem test_drives_are_numbered :
    (busyWith ioReadE4).ioDrives = 1 ∧ (busyWith ioReadE4).fwDrives = 0 ∧ (busyWith fwRead2).fwDrives = 1 ∧
      (sysReset (busyWith ioReadE4)).ioDrives = 1 ∧ (driveBus ioReadE4 (sysReset (busyWith ioReadE4))).ioDrives = 2 := by
  decide
-- R223: a master may neither drop its strobe in the acknowledge cycle nor hold it into the cycle after
theorem test_master_strobe_dropped_early :
    ¬State.TargetMasterContract
      { State.reset with cfg := unmapped, sysIn := targetIn true 1 9, bt := { Bt.reset with tWin := { st := .ack, datR := 0 } } }
      SysIn.quiet := by
  unfold State.TargetMasterContract Window.MasterHandshake; decide
theorem test_master_strobe_held_too_long :
    ¬State.HostMasterContract { State.reset with sysIn := hostWinIn false 4 0 } (hostWinIn false 4 0) := by
  unfold State.HostMasterContract Window.MasterHandshake; decide
-- S4 of 95_test_vectors.md: four system edges between two host edges, and never two host edges in a row
theorem test_s4_admits :
    ClockSchedule.s4.admits [.host HostIn.quiet, .sys SysIn.quiet, .sys SysIn.quiet, .sys SysIn.quiet, .sys SysIn.quiet,
      .host HostIn.quiet] := by
  refine ⟨fun n => if (n + 0) % 5 = 0 then .host else .sys, ⟨0, fun _ => rfl⟩, fun n t h => ?_⟩
  obtain rfl | rfl | rfl | rfl | rfl | rfl | hn : n = 0 ∨ n = 1 ∨ n = 2 ∨ n = 3 ∨ n = 4 ∨ n = 5 ∨ 6 ≤ n := by omega
  all_goals first | (cases h; rfl) | skip
  rw [List.getElem?_eq_none (by simpa using hn)] at h; cases h
theorem test_s4_refuses : ¬ClockSchedule.s4.admits [.host HostIn.quiet, .host HostIn.quiet] := by
  rintro ⟨d, ⟨phase, hd⟩, h⟩
  have h0 := (hd 0).symm.trans (h 0 _ rfl)
  have h1 := (hd 1).symm.trans (h 1 _ rfl)
  simp only [Tick.domain, ite_eq_left_iff, reduceCtorEq, imp_false, Decidable.not_not] at h0 h1
  omega

-- an opcode-table word runs as the very next step (log 10): LPC_FW_WRITE_4 (0xE2), T_INTCFG_WR, H_DATA_WR, BR_FW_WRITE
theorem test_withFetchWord_runs :
    nextIs (step (State.reset.withFetchWord 8 0xE2)) (fun t => decide (t.cmdq.map (fun e => e.payload.size) = [.four])) = true ∧
    nextIs (step (State.reset.withFetchWord 8 6)) (fun t => decide (t.bt.tWin.st = .ack)) = true ∧
    nextIs (step (State.reset.withFetchWord 8 13)) (fun t => decide (t.bt.fifoH2t = [0])) = true ∧
    nextIs (step (State.reset.withFetchWord 2 3)) (fun t => t.fw.stb && t.fw.we) = true := by decide

/-! ## Witnesses: for each obligation with hypotheses, states and operands that meet them

Obligations without hypotheses need none: SpecWordsDecode, PowerOnInv, StatusByteAndInterruptOutputs. -/

theorem witness_PowerOnState : State.reset = State.powerOn Params.default ∧ Params.default.frameLevel = false := ⟨rfl, rfl⟩

theorem witness_DecodeOfEncode : (Instr.hRsvdWr 7 0xFF).wf = true ∧ (Instr.lpcFwWrite4 0xFFFFFFF 0xFFFFFFFF).wf = true := by decide

theorem witness_EveryIgnoredSymbolDecodes :
    idselAccepted Params.default 0xF = true ∧ idselAccepted { Params.default with fwIdsel := some 5 } 5 = true ∧
    (0b0001 : Nibble).extractLsb' 1 3 = 0b000 ∧ (0b0011 : Nibble).extractLsb' 1 3 = 0b001 ∧
    (0xFF : Word).toNat < 256 ^ Size.one.bytes ∧ (0xFFFFFFFF : Word).toNat < 256 ^ Size.four.bytes := by decide

theorem witness_IllegalSymbolsRefused :
    ((0b0001 : Nibble) ≠ 0b0000 ∧ (0b0001 : Nibble) ≠ 0b1101 ∧ (0b0001 : Nibble) ≠ 0b1110) ∧
    4 ≤ (0b0100 : Nibble).toNat ∧ 4 ≤ (0b1111 : Nibble).toNat ∧
    (idselAccepted Params.default 0 = true ∧ ([1, 2, 3, 4, 5, 6, 7] : List Nibble).length = 7 ∧ 3 ≤ (0b0011 : Nibble).toNat) := by
  decide

-- the six symbols of `IOR 0x03F8` before its turnaround, with a system edge in between
theorem witness_ReceivedTransactionIsDecoded :
    decode State.reset.cfg (.lpc ([0, 0, 8, 0xF, 3, 0] ++ [0xF, 0xF])) = .ok (.lpcIoRead 0x03F8) ∧
    carries State.reset.cfg (hostInputs [.host (startIn 0), .sys SysIn.quiet, .host (symbolIn 0), .host (symbolIn 8),
      .host (symbolIn 0xF), .host (symbolIn 3), .host (symbolIn 0)]) [0, 0, 8, 0xF, 3, 0] ∧
    ∃ t, runTicks [.host (startIn 0), .sys SysIn.quiet, .host (symbolIn 0), .host (symbolIn 8),
      .host (symbolIn 0xF), .host (symbolIn 3), .host (symbolIn 0)] State.reset = .next t := by
  refine ⟨by decide, ⟨by decide, by decide, by decide, by decide, ?_⟩, exists_next (by decide)⟩
  intro g hg
  simp only [hostInputs, List.mem_cons, List.not_mem_nil, or_false] at hg
  obtain rfl | rfl | rfl | rfl | rfl := hg <;> exact ⟨rfl, rfl⟩

theorem witness_IllegalSymbolsAbort_start :
    let s := hostAt (startIn 0b1111) .ioAddr 2 .ioRead
    framing s.cfg s.hostIn = true ∧ resetting s.cfg s.hostIn = false ∧
      s.hostIn.lad ≠ 0b0000 ∧ s.hostIn.lad ≠ 0b1101 ∧ s.hostIn.lad ≠ 0b1110 := by decide

theorem witness_IllegalSymbolsAbort_cycleType :
    let s := hostAt (symbolIn 0b0100) .cycleType 0 .ioRead
    s.hostNormal ∧ s.psm.st = .cycleType ∧ 4 ≤ s.hostIn.lad.toNat := ⟨⟨rfl, rfl⟩, rfl, by decide⟩

theorem witness_IllegalSymbolsAbort_msize :
    let s := hostAt (symbolIn 0b0011) .fwMsize 0 .fwRead
    s.hostNormal ∧ s.psm.st = .fwMsize ∧ 3 ≤ s.hostIn.lad.toNat := ⟨⟨rfl, rfl⟩, rfl, by decide⟩

theorem witness_ResetEdge :
    let s := hostAt resetIn .wrData 3 .fwWrite
    resetting s.cfg s.hostIn = true := by decide

theorem witness_StartDecodeEdge :
    (let s := hostAt (startIn 0b0000) .rdSync 0 .fwRead
     framing s.cfg s.hostIn = true ∧ resetting s.cfg s.hostIn = false ∧ s.hostIn.lad = 0b0000) ∧
    (let s := hostAt (startIn 0b1101) .rdSync 0 .fwRead
     framing s.cfg s.hostIn = true ∧ resetting s.cfg s.hostIn = false ∧ s.hostIn.lad = 0b1101) ∧
    (let s := hostAt (startIn 0b1110) .rdSync 0 .fwRead
     framing s.cfg s.hostIn = true ∧ resetting s.cfg s.hostIn = false ∧ s.hostIn.lad = 0b1110) ∧
    (let s := hostAt (startIn 0b0001) .rdSync 0 .fwRead
     framing s.cfg s.hostIn = true ∧ resetting s.cfg s.hostIn = false ∧ s.hostIn.lad = 0b0001) := by decide

theorem witness_AbortInAnyState :
    let s := { busyWith ioReadE4 with hostIn := startIn 0b1111 }
    let u := { busyWith ioReadE4 with hostIn := resetIn }
    framing s.cfg s.hostIn = true ∧ s.disp.busy = true ∧ resetting u.cfg u.hostIn = true ∧ u.disp.busy = true := by decide

theorem witness_QueueResetLastsTwoEdges :
    framing (busyWith ioReadE4).cfg (startIn 0b1111) = true ∧
    ∃ s1, tick (.host (startIn 0b1111)) (busyWith ioReadE4) = .next s1 ∧ hostInputs [.sys SysIn.quiet] = [] ∧
      ∃ s2, runTicks [.sys SysIn.quiet] s1 = .next s2 ∧ ∃ s3, tick (.host HostIn.quiet) s2 = .next s3 := by
  refine ⟨rfl, ?_⟩
  obtain ⟨s1, h1, p1⟩ := exists_nextIs (o := tick (.host (startIn 0b1111)) (busyWith ioReadE4))
    (p := fun s1 => nextIs (runTicks [.sys SysIn.quiet] s1) (fun s2 => isNext (tick (.host HostIn.quiet) s2))) (by decide)
  obtain ⟨s2, h2, p2⟩ := exists_nextIs p1
  exact ⟨s1, h1, rfl, s2, h2, exists_next p2⟩

-- V44: a busy dispatcher; a visible head, taken and dropped; an invisible head
theorem witness_QueueResetEdge :
    (let s := { busyWith ioReadE4 with hostIn := startIn 0b1111 }
     queueResetDue s.cfg s.hostIn s.psm = true ∧ s.disp.busy = true ∧ ∃ t, hostTick s = .next t) ∧
    (let s := { State.reset with
       hostIn := { startIn 0b1111 with race := true }
       cmdq := [{ payload := ioReadE4, vis := true, age := 1 }] }
     queueResetDue s.cfg s.hostIn s.psm = true ∧ s.disp.busy = false ∧ visibleHead s.cmdq = some ioReadE4 ∧
       s.hostIn.race = true ∧ ∃ t, hostTick s = .next t) ∧
    (let s := { State.reset with
       hostIn := { startIn 0b1111 with race := true }
       cmdq := [{ payload := fwRead2, vis := true, age := 1 }] }
     queueResetDue s.cfg s.hostIn s.psm = true ∧ s.disp.busy = false ∧ visibleHead s.cmdq = some fwRead2 ∧
       s.hostIn.race = true ∧ ∃ t, hostTick s = .next t) ∧
    (let s := { State.reset with
       psm := { State.reset.psm with fprev := false }
       cmdq := [{ payload := fwRead2, vis := true, age := 1 }] }
     queueResetDue s.cfg s.hostIn s.psm = true ∧ s.disp.busy = false ∧ s.hostIn.race = false ∧ ∃ t, hostTick s = .next t) :=
  ⟨⟨rfl, rfl, exists_next (by decide)⟩, ⟨rfl, rfl, rfl, rfl, exists_next (by decide)⟩,
   ⟨rfl, rfl, rfl, rfl, exists_next (by decide)⟩, ⟨rfl, rfl, rfl, exists_next (by decide)⟩⟩

theorem witness_QueueResetLeavesNothing :
    let s := { busyWith ioReadE4 with hostIn := startIn 0b1111 }
    queueResetDue s.cfg s.hostIn s.psm = true ∧ hostInputs [.sys SysIn.quiet] = [] ∧
      ∃ t, hostTick s = .next t ∧ ∃ u, runTicks [.sys SysIn.quiet] t = .next u := by
  refine ⟨rfl, rfl, ?_⟩
  obtain ⟨t, h, p⟩ := exists_nextIs (o := hostTick { busyWith ioReadE4 with hostIn := startIn 0b1111 })
    (p := fun t => isNext (runTicks [.sys SysIn.quiet] t)) (by decide)
  exact ⟨t, h, exists_next p⟩

theorem witness_PsmDecodingStates_start :
    let s := hostAt HostIn.quiet .start 0 .ioRead
    s.hostNormal ∧ s.psm.st = .start := ⟨⟨rfl, rfl⟩, rfl⟩

theorem witness_PsmDecodingStates_cycleType :
    (let s := hostAt (symbolIn 0b0001) .cycleType 0 .ioRead
     s.hostNormal ∧ s.psm.st = .cycleType ∧ s.hostIn.lad.extractLsb' 1 3 = 0b000) ∧
    (let s := hostAt (symbolIn 0b0011) .cycleType 0 .ioRead
     s.hostNormal ∧ s.psm.st = .cycleType ∧ s.hostIn.lad.extractLsb' 1 3 = 0b001) ∧
    (let s := hostAt (symbolIn 0b0100) .cycleType 0 .ioRead
     s.hostNormal ∧ s.psm.st = .cycleType ∧ s.hostIn.lad.extractLsb' 1 3 ≠ 0b000 ∧ s.hostIn.lad.extractLsb' 1 3 ≠ 0b001) :=
  ⟨⟨⟨rfl, rfl⟩, rfl, rfl⟩, ⟨⟨rfl, rfl⟩, rfl, rfl⟩, ⟨⟨rfl, rfl⟩, rfl, by decide, by decide⟩⟩

theorem witness_PsmDecodingStates_idsel :
    (let s := hostAt (symbolIn 9) .fwIdsel 0 .fwRead
     s.hostNormal ∧ s.psm.st = .fwIdsel ∧ s.cfg.fwIdsel = none) ∧
    (let s := { hostAt (symbolIn 9) .fwIdsel 0 .fwRead with cfg := { Params.default with fwIdsel := some 5 } }
     s.hostNormal ∧ s.psm.st = .fwIdsel ∧ s.cfg.fwIdsel = some 5 ∧ s.hostIn.lad ≠ 5) :=
  ⟨⟨⟨rfl, rfl⟩, rfl, rfl⟩, ⟨⟨rfl, rfl⟩, rfl, rfl, by decide⟩⟩

theorem witness_PsmDecodingStates_msize :
    (let s := hostAt (symbolIn 0b0000) .fwMsize 0 .fwWrite
     s.hostNormal ∧ s.psm.st = .fwMsize ∧ s.hostIn.lad = 0b0000) ∧
    (let s := hostAt (symbolIn 0b0001) .fwMsize 0 .fwWrite
     s.hostNormal ∧ s.psm.st = .fwMsize ∧ s.hostIn.lad = 0b0001) ∧
    (let s := hostAt (symbolIn 0b0010) .fwMsize 0 .fwWrite
     s.hostNormal ∧ s.psm.st = .fwMsize ∧ s.hostIn.lad = 0b0010) ∧
    (let s := hostAt (symbolIn 0b0011) .fwMsize 0 .fwWrite
     s.hostNormal ∧ s.psm.st = .fwMsize ∧ s.hostIn.lad = 0b0011) :=
  ⟨⟨⟨rfl, rfl⟩, rfl, rfl⟩, ⟨⟨rfl, rfl⟩, rfl, rfl⟩, ⟨⟨rfl, rfl⟩, rfl, rfl⟩, ⟨rfl, rfl⟩, rfl, rfl⟩

theorem witness_PsmAddressStates :
    (let s := { hostAt (symbolIn 8) .ioAddr 2 .ioRead with cfg := { Params.default with addrOrder := .lsnFirst } }
     s.hostNormal ∧ s.psm.st = .ioAddr ∧ s.psm.cnt ≠ 3 ∧ s.cfg.addrOrder = .lsnFirst) ∧
    (let s := { hostAt (symbolIn 8) .ioAddr 3 .ioRead with cfg := { Params.default with addrOrder := .msnFirst } }
     s.hostNormal ∧ s.psm.st = .ioAddr ∧ s.psm.cnt = 3 ∧ s.cfg.addrOrder = .msnFirst) ∧
    (let s := { hostAt (symbolIn 8) .fwAddr 5 .fwRead with cfg := { Params.default with addrOrder := .lsnFirst } }
     s.hostNormal ∧ s.psm.st = .fwAddr ∧ s.psm.cnt ≠ 6 ∧ s.cfg.addrOrder = .lsnFirst) ∧
    (let s := { hostAt (symbolIn 8) .fwAddr 6 .fwRead with cfg := { Params.default with addrOrder := .msnFirst } }
     s.hostNormal ∧ s.psm.st = .fwAddr ∧ s.psm.cnt = 6 ∧ s.cfg.addrOrder = .msnFirst) :=
  ⟨⟨⟨rfl, rfl⟩, rfl, by decide, rfl⟩,
    ⟨⟨rfl, rfl⟩, rfl, by decide, rfl⟩,
    ⟨⟨rfl, rfl⟩, rfl, by decide, rfl⟩,
    ⟨⟨rfl, rfl⟩, rfl, by decide, rfl⟩⟩

theorem witness_PsmWriteDataState :
    (let s := hostAt (symbolIn 3) .wrData 0 .ioWrite
     s.hostNormal ∧ s.psm.st = .wrData ∧ s.psm.cnt.toNat ≠ 2 * s.psm.size.bytes - 1 ∧ s.cfg.wdataOrder = .msnFirst) ∧
    (let s := { hostAt (symbolIn 3) .wrData 1 .ioWrite with cfg := { Params.default with wdataOrder := .lsnFirst } }
     s.hostNormal ∧ s.psm.st = .wrData ∧ s.psm.cnt.toNat = 2 * s.psm.size.bytes - 1 ∧ s.cfg.wdataOrder = .lsnFirst) :=
  ⟨⟨⟨rfl, rfl⟩, rfl, by decide, rfl⟩, ⟨⟨rfl, rfl⟩, rfl, by decide, rfl⟩⟩

theorem witness_PsmTurnaroundBeforeSync :
    (let s := hostAt HostIn.quiet .rdTar1 0 .ioRead
     s.hostNormal ∧ s.noQueueReset ∧ s.psm.st = .rdTar1 ∧ s.cmdq.length < 2 ∧ s.psm.cnt = 0) ∧
    (let s := hostAt HostIn.quiet .rdTar1 1 .ioRead
     s.hostNormal ∧ s.noQueueReset ∧ s.psm.st = .rdTar1 ∧ s.cmdq.length < 2 ∧ s.psm.cnt ≠ 0) ∧
    (let s := hostAt HostIn.quiet .wrTar1 0 .fwWrite
     s.hostNormal ∧ s.noQueueReset ∧ s.psm.st = .wrTar1 ∧ s.cmdq.length < 2 ∧ s.psm.cnt = 0) ∧
    (let s := hostAt HostIn.quiet .wrTar1 1 .fwWrite
     s.hostNormal ∧ s.noQueueReset ∧ s.psm.st = .wrTar1 ∧ s.cmdq.length < 2 ∧ s.psm.cnt ≠ 0) :=
  ⟨⟨⟨rfl, rfl⟩, rfl, rfl, by decide, by decide⟩,
    ⟨⟨rfl, rfl⟩, rfl, rfl, by decide, by decide⟩,
    ⟨⟨rfl, rfl⟩, rfl, rfl, by decide, by decide⟩,
    ⟨⟨rfl, rfl⟩, rfl, rfl, by decide, by decide⟩⟩

theorem witness_PsmReadSync :
    (let s := syncing .rdSync .ioRead
     s.hostNormal ∧ s.noQueueReset ∧ s.psm.st = .rdSync ∧ visibleHead (promote s.cfg.cdcMin s.hostIn.promote s.rspq) = none) ∧
    (let s := answeredBy { data := 0x13, error := false } (syncing .rdSync .ioRead)
     s.hostNormal ∧ s.noQueueReset ∧ s.psm.st = .rdSync ∧
       visibleHead (promote s.cfg.cdcMin s.hostIn.promote s.rspq) = some { data := 0x13, error := false }) ∧
    (let s := answeredBy { data := 0, error := true } (syncing .rdSync .ioRead)
     s.hostNormal ∧ s.noQueueReset ∧ s.psm.st = .rdSync ∧
       visibleHead (promote s.cfg.cdcMin s.hostIn.promote s.rspq) = some { data := 0, error := true }) :=
  ⟨⟨⟨rfl, rfl⟩, rfl, rfl, rfl⟩, ⟨⟨rfl, rfl⟩, rfl, rfl, rfl⟩, ⟨⟨rfl, rfl⟩, rfl, rfl, rfl⟩⟩

theorem witness_PsmWriteSync :
    (let s := syncing .wrSync .ioWrite
     s.hostNormal ∧ s.noQueueReset ∧ s.psm.st = .wrSync ∧ visibleHead (promote s.cfg.cdcMin s.hostIn.promote s.rspq) = none) ∧
    (let s := answeredBy { data := 0x13, error := false } (syncing .wrSync .ioWrite)
     s.hostNormal ∧ s.noQueueReset ∧ s.psm.st = .wrSync ∧
       visibleHead (promote s.cfg.cdcMin s.hostIn.promote s.rspq) = some { data := 0x13, error := false }) ∧
    (let s := answeredBy { data := 0, error := true } (syncing .wrSync .ioWrite)
     s.hostNormal ∧ s.noQueueReset ∧ s.psm.st = .wrSync ∧
       visibleHead (promote s.cfg.cdcMin s.hostIn.promote s.rspq) = some { data := 0, error := true }) :=
  ⟨⟨⟨rfl, rfl⟩, rfl, rfl, rfl⟩, ⟨⟨rfl, rfl⟩, rfl, rfl, rfl⟩, ⟨⟨rfl, rfl⟩, rfl, rfl, rfl⟩⟩

theorem witness_PsmReadDataAndRelease :
    (let s := hostAt HostIn.quiet .rdData 0 .ioRead
     s.hostNormal ∧ s.psm.st = .rdData ∧ s.psm.cnt.toNat < 2 * s.psm.size.bytes ∧ s.psm.cnt.toNat ≠ 2 * s.psm.size.bytes - 1 ∧
       s.cfg.rdataOrder = .lsnFirst) ∧
    (let s := { hostAt HostIn.quiet .rdData 1 .ioRead with cfg := { Params.default with rdataOrder := .msnFirst } }
     s.hostNormal ∧ s.psm.st = .rdData ∧ s.psm.cnt.toNat < 2 * s.psm.size.bytes ∧ s.psm.cnt.toNat = 2 * s.psm.size.bytes - 1 ∧
       s.cfg.rdataOrder = .msnFirst) ∧
    (let s := hostAt HostIn.quiet .tar2 0 .ioRead
     s.hostNormal ∧ s.psm.st = .tar2 ∧ s.psm.cnt = 0) ∧
    (let s := hostAt HostIn.quiet .tar2 1 .ioRead
     s.hostNormal ∧ s.psm.st = .tar2 ∧ s.psm.cnt ≠ 0) :=
  ⟨⟨⟨rfl, rfl⟩, rfl, by decide, by decide, rfl⟩, ⟨⟨rfl, rfl⟩, rfl, by decide, by decide, rfl⟩, ⟨⟨rfl, rfl⟩, rfl, rfl⟩,
    ⟨⟨rfl, rfl⟩, rfl, by decide⟩⟩

theorem witness_ReadDataOnTheWire_msnFirst :
    let s := { hostAt HostIn.quiet .rdData 0 .ioRead with
      cfg := { Params.default with rdataOrder := .msnFirst }
      psm := { (hostAt HostIn.quiet .rdData 0 .ioRead).psm with ladEn := true } }
    s.psm.st = .rdData ∧ s.psm.cnt = 0 ∧ s.psm.ladEn = true ∧ HostIn.normal s.cfg HostIn.quiet ∧
      s.cfg.rdataOrder = .msnFirst ∧ ∃ t, runTicks [.host HostIn.quiet] s = .next t :=
  ⟨rfl, rfl, rfl, ⟨rfl, rfl⟩, rfl, exists_next (by decide)⟩

-- a 1-byte read from its ready cycle: one, two, three and four host edges
theorem witness_ReadDataOnTheWire :
    let s := { hostAt HostIn.quiet .rdData 0 .ioRead with psm := { (hostAt HostIn.quiet .rdData 0 .ioRead).psm with ladEn := true } }
    (s.psm.st = .rdData ∧ s.psm.cnt = 0 ∧ s.psm.ladEn = true) ∧
    (∀ h ∈ hostInputs [.host HostIn.quiet, .host HostIn.quiet, .host HostIn.quiet, .host HostIn.quiet], HostIn.normal s.cfg h) ∧
    (∃ t, runTicks [.host HostIn.quiet] s = .next t) ∧
    (∃ t, runTicks [.host HostIn.quiet, .sys SysIn.quiet, .host HostIn.quiet] s = .next t) ∧
    (∃ t, runTicks [.host HostIn.quiet, .host HostIn.quiet, .host HostIn.quiet] s = .next t) ∧
    (∃ t, runTicks [.host HostIn.quiet, .host HostIn.quiet, .host HostIn.quiet, .host HostIn.quiet] s = .next t) := by
  refine ⟨⟨rfl, rfl, rfl⟩, ?_, exists_next (by decide), exists_next (by decide), exists_next (by decide), exists_next (by decide)⟩
  intro h hh
  simp only [hostInputs, List.mem_cons, List.not_mem_nil, or_false] at hh
  obtain rfl | rfl | rfl | rfl := hh <;> exact ⟨rfl, rfl⟩

/-- The reset state meets the invariant. -/
theorem reset_inv : State.reset.Inv :=
  { occupancy := by unfold State.OccupancyInv; decide
    bus := by unfold State.BusInv; decide
    crossing := ⟨fun _ h => (List.not_mem_nil h).elim, fun _ h => (List.not_mem_nil h).elim⟩
    coherent := trivial
    drives := fun h => by cases h
    fifo := by unfold State.FifoInv; decide
    pushed := by unfold State.PushedInv; decide
    memory := by unfold State.MemoryInv; decide
    slave := by unfold State.SlaveInv; decide }

/-- A PSM polling for a response that stands in the queue, in a state that meets the invariant. -/
theorem syncing_inv : (answeredBy { data := 0x13, error := false } (syncing .rdSync .ioRead)).Inv :=
  { occupancy := by unfold State.OccupancyInv; decide
    bus := by unfold State.BusInv; decide
    crossing := by
      refine ⟨fun _ h => (List.not_mem_nil h).elim, fun e h => ?_⟩
      simp only [answeredBy, List.mem_singleton] at h
      subst h
      exact ⟨Nat.le_refl _, fun _ => rfl⟩
    coherent := ⟨rfl, rfl, fun _ => ⟨rfl, by decide⟩⟩
    drives := ⟨rfl, rfl⟩
    fifo := by unfold State.FifoInv; decide
    pushed := by unfold State.PushedInv; decide
    memory := by unfold State.MemoryInv; decide
    slave := by unfold State.SlaveInv; decide }

theorem witness_SyncSymbols :
    let s := answeredBy { data := 0x13, error := false } (syncing .rdSync .ioRead)
    s.Inv ∧ s.hostNormal ∧ s.psm.st = .rdSync ∧ ∃ t, hostTick s = .next t :=
  ⟨syncing_inv, ⟨rfl, rfl⟩, rfl, exists_next (by decide)⟩

theorem witness_LpcReadsHandOver :
    State.reset.hostNormal ∧ State.reset.noQueueReset ∧ State.reset.cmdq.length < 2 := ⟨⟨rfl, rfl⟩, rfl, by decide⟩

theorem witness_LpcWritesHandOver :
    let s := { State.reset with cmdq := [{ payload := ioReadE4, vis := false, age := 0 }] }
    s.hostNormal ∧ s.noQueueReset ∧ s.cmdq.length < 2 ∧
      (∃ b : BitVec 16, Instr.lpcFwWrite2 0x0001002 0xBEEF = .lpcFwWrite2 0x0001002 b ∧ (0xBEEF : Word) = b.setWidth 32) :=
  ⟨⟨rfl, rfl⟩, rfl, by decide, 0xBEEF, rfl, by decide⟩

theorem witness_LpcHandOverStopped :
    ioReadE4.toLpc = some (.lpcIoRead 0x00E4) ∧
    (let s := { State.reset with
       cmdq := [{ payload := ioReadE4, vis := false, age := 0 }, { payload := ioReadE4, vis := false, age := 0 }] }
     s.hostNormal ∧ s.cmdq.length = 2) ∧
    (let s := hostAt (startIn 0b1101) .rdTar1 0 .ioRead; framing s.cfg s.hostIn = true) ∧
    (let s := hostAt resetIn .rdTar1 0 .ioRead; resetting s.cfg s.hostIn = true) := ⟨rfl, ⟨⟨rfl, rfl⟩, rfl⟩, rfl, rfl⟩

theorem witness_HandedOverCommandIsInstr :
    (let s := hostAt HostIn.quiet .rdTar1 0 .fwRead
     s.psm.Coherent ∧ s.psm.st = .rdTar1 ∧ s.psm.cnt = 0) ∧
    (let s := hostAt HostIn.quiet .wrTar1 0 .ioWrite
     s.psm.Coherent ∧ s.psm.st = .wrTar1 ∧ s.psm.cnt = 0) :=
  ⟨⟨⟨by decide, rfl, fun h => absurd h (by decide), rfl⟩, rfl, rfl⟩, ⟨⟨by decide, rfl, fun _ => ⟨rfl, by decide⟩, by decide⟩, rfl, rfl⟩⟩

theorem witness_HostEdgeFrame :
    let s := hostAt HostIn.quiet .rdTar1 0 .ioRead
    s.noQueueReset ∧ ∃ t, hostTick s = .next t := ⟨rfl, exists_next (by decide)⟩

theorem witness_SystemEdgeLeavesHostDomain :
    (∃ t, sysTick { State.reset with sysIn := { SysIn.quiet with sysRst := true } } = .next t) ∧
    (State.reset.sysRunning ∧ ∃ t, sysTick State.reset = .next t) ∧
    ∃ t, step { State.reset with script := [.host (startIn 0)] } = .next t :=
  ⟨exists_next (by decide), ⟨rfl, exists_next (by decide)⟩, exists_next (by decide)⟩

theorem witness_StepRunsDecodedInstruction_host :
    let s := { hostAt HostIn.quiet .rdTar1 0 .ioRead with script := [.host HostIn.quiet] }
    let s1 := { s with script := [] }
    nextTick s = (.host HostIn.quiet, s1) ∧ hostInstr { s1 with hostIn := HostIn.quiet } = some (.lpcIoRead 0) := by decide

theorem witness_StepRunsDecodedInstruction_host_none :
    let s := { State.reset with script := [.host (startIn 0)] }
    let s1 := { s with script := [] }
    nextTick s = (.host (startIn 0), s1) ∧ hostInstr { s1 with hostIn := startIn 0 } = none := by decide

theorem witness_StepRunsDecodedInstruction_sys :
    let s := { State.reset with
      cfg := unmapped
      cmdq := [{ payload := fwRead2, vis := true, age := 1 }]
      script := [.sys { targetIn true 1 0x41 with hPort := { stb := true, we := false, adr := 5, datW := 0 } }] }
    let u := { targetIn true 1 0x41 with hPort := { stb := true, we := false, adr := 5, datW := 0 } }
    let s1 := { s with script := [] }
    nextTick s = (.sys u, s1) ∧ sampledTarget { s1 with sysIn := u } = some (.tDataWr 0x41) ∧
      sampledHost { s1 with sysIn := u } = some .hDataRd ∧
      sampledCommand { s1 with sysIn := u } = some (.brFwRead 0x0001002 0 .two) := by decide

theorem witness_StepRunsDecodedInstruction_sys_none :
    let s := { State.reset with script := [.sys SysIn.quiet] }
    let s1 := { s with script := [] }
    nextTick s = (.sys SysIn.quiet, s1) ∧ sysInstr { s1 with sysIn := SysIn.quiet } = none := by decide

-- V43, `P_CDC_MIN` = 2: the second entry stays behind an invisible one
theorem witness_EntriesAgeAndBecomeVisible :
    let q : List (QEntry Command) := [{ payload := ioReadE4, vis := false, age := 1 }, { payload := fwRead2, vis := false, age := 0 }]
    promote 2 0b11 q = [{ payload := ioReadE4, vis := true, age := 2 }, { payload := fwRead2, vis := false, age := 1 }] ∧
      q[1]? = some { payload := fwRead2, vis := false, age := 0 } := by decide

theorem witness_IoCommandsDispatch : State.reset.sysRunning ∧ State.reset.disp.busy = false := ⟨rfl, rfl⟩

theorem witness_FwCommandsDispatch : State.reset.sysRunning ∧ State.reset.disp.busy = false := ⟨rfl, rfl⟩

theorem witness_BusyDispatcherHoldsCommands :
    (busyWith ioReadE4).sysRunning ∧ (busyWith ioReadE4).disp.busy = true ∧
      ∃ t, exec fwRead2.toBridge (busyWith ioReadE4) = .next t := ⟨rfl, rfl, exists_next (by decide)⟩

/-- The premises of BridgeCompletion on the selected I/O slave's acknowledge and data. -/
def slaveAnswers (s : State) (ack : Bool) (d : Byte) : Prop :=
  (∀ o, lookupIo s.cfg.ioMap s.io.adr = .btT o → ack = decide (s.bt.tWin.st = .ack) ∧ d = s.bt.tWin.datR) ∧
  (∀ o, lookupIo s.cfg.ioMap s.io.adr = .btH o → ack = decide (s.bt.hWin.st = .ack) ∧ d = s.bt.hWin.datR) ∧
  (∀ n, lookupIo s.cfg.ioMap s.io.adr = .other n → s.cfg.ioRam = some n → ack = s.ioSlave.ack ∧ d = s.ioSlave.datR) ∧
  (∀ n, lookupIo s.cfg.ioMap s.io.adr = .other n → s.cfg.ioRam ≠ some n → ack = s.sysIn.ioAck ∧ d = s.sysIn.ioDatR) ∧
  (lookupIo s.cfg.ioMap s.io.adr = .unmapped → ack = false)

theorem slaveAnswers_target {s : State} {o : BitVec 2} (h : lookupIo s.cfg.ioMap s.io.adr = .btT o) :
    slaveAnswers s (decide (s.bt.tWin.st = .ack)) s.bt.tWin.datR := by
  simp [slaveAnswers, h]

theorem slaveAnswers_host {s : State} {o : BitVec 3} (h : lookupIo s.cfg.ioMap s.io.adr = .btH o) :
    slaveAnswers s (decide (s.bt.hWin.st = .ack)) s.bt.hWin.datR := by
  simp [slaveAnswers, h]

theorem slaveAnswers_ram {s : State} {n : Nat} (h : lookupIo s.cfg.ioMap s.io.adr = .other n) (hr : s.cfg.ioRam = some n) :
    slaveAnswers s s.ioSlave.ack s.ioSlave.datR := by
  simp [slaveAnswers, h, hr]

theorem slaveAnswers_env {s : State} {n : Nat} (h : lookupIo s.cfg.ioMap s.io.adr = .other n) (hr : s.cfg.ioRam = none) :
    slaveAnswers s s.sysIn.ioAck s.sysIn.ioDatR := by
  simp [slaveAnswers, h, hr]

theorem slaveAnswers_unmapped {s : State} (h : lookupIo s.cfg.ioMap s.io.adr = .unmapped) (d : Byte) :
    slaveAnswers s false d := by
  simp [slaveAnswers, h]

/-- A read at an address that M0 leaves unmapped. -/
def ioRead80 : Command := { ioReadE4 with address := 0x0000080 }

/-- Slave 7 at 0x0080: the environment's, or the attached RAM. -/
def slaveMapped (ram : Option Nat) : Params := { Params.default with ioMap := [(0x0080, .other 7)], ioRam := ram }

-- an I/O transaction: it waits, a window acknowledges, the environment's slave and the attached RAM acknowledge
theorem witness_BridgeCompletion_io :
    (let s := busyWith ioReadE4
     s.sysRunning ∧ s.disp.busy = true ∧ slaveAnswers s false s.bt.tWin.datR ∧ (s.ackExpected && !false) = false) ∧
    (let s := { busyWith ioReadE4 with bt := { State.reset.bt with tWin := { st := .ack, datR := 0x88 } } }
     slaveAnswers s true 0x88 ∧ s.disp.discard = false ∧ s.rspq.length < 2) ∧
    (let s := { busyWith { ioReadE4 with address := 0x0000105 } with
       cfg := hostMapped, bt := { State.reset.bt with hWin := { st := .ack, datR := 0x42 } } }
     slaveAnswers s true 0x42) ∧
    (let s := { busyWith ioRead80 with
       cfg := slaveMapped none, sysIn := { SysIn.quiet with ioAck := true, ioDatR := 0x13 } }
     slaveAnswers s true 0x13) ∧
    (let s := { busyWith ioRead80 with cfg := slaveMapped (some 7), ioSlave := { ack := true, datR := 0x31, mem := [] } }
     slaveAnswers s true 0x31) :=
  ⟨⟨rfl, rfl, slaveAnswers_target (o := 0) rfl, rfl⟩, ⟨slaveAnswers_target (o := 0) rfl, rfl, by decide⟩,
    slaveAnswers_host (o := 5) rfl, slaveAnswers_env (n := 7) rfl rfl, slaveAnswers_ram (n := 7) rfl rfl⟩

-- an errored I/O transaction: it responds, it overflows, it is discarded
theorem witness_BridgeCompletion_error :
    (let s := { busyWith ioRead80 with ackExpected := true }
     s.sysRunning ∧ s.disp.busy = true ∧ slaveAnswers s false 0 ∧ (s.ackExpected && !false) = true ∧ s.disp.discard = false ∧
       s.rspq.length < 2) ∧
    (let s := { busyWith ioRead80 with
       ackExpected := true
       rspq := [{ payload := { data := 0, error := false }, vis := false, age := 0 },
                { payload := { data := 0, error := false }, vis := false, age := 0 }] }
     slaveAnswers s false 0 ∧ (s.ackExpected && !false) = true ∧ s.disp.discard = false ∧ s.rspq.length = 2) ∧
    (let s := { busyWith ioRead80 with ackExpected := true, disp := { busy := true, discard := true, cur := ioRead80 } }
     slaveAnswers s false 0 ∧ (s.ackExpected && !false) = true ∧ s.disp.discard = true) :=
  ⟨⟨rfl, rfl, slaveAnswers_unmapped rfl 0, rfl, rfl, by decide⟩, ⟨slaveAnswers_unmapped rfl 0, rfl, rfl, rfl⟩,
    ⟨slaveAnswers_unmapped rfl 0, rfl, rfl⟩⟩

-- a firmware transaction, answered by the environment and by the attached memory
theorem witness_BridgeCompletion_fw :
    (let s := { busyWith fwRead2 with sysIn := { SysIn.quiet with fwAck := true, fwDatR := 0xAABBCCDD } }
     s.sysRunning ∧ s.disp.busy = true ∧ slaveAnswers s false 0 ∧ isIo s.disp.cur.operation = false ∧
       (if s.cfg.fwMem then s.fwSlave.ack else s.sysIn.fwAck) = true ∧
       (if s.cfg.fwMem then s.fwSlave.datR else s.sysIn.fwDatR) = 0xAABBCCDD) ∧
    (let s := { busyWith fwRead2 with
       cfg := { Params.default with fwMem := true }, fwSlave := { ack := true, datR := 0xBEEF1234, mem := [] } }
     s.disp.busy = true ∧ (if s.cfg.fwMem then s.fwSlave.ack else s.sysIn.fwAck) = true ∧
       (if s.cfg.fwMem then s.fwSlave.datR else s.sysIn.fwDatR) = 0xBEEF1234) :=
  ⟨⟨rfl, rfl, slaveAnswers_unmapped rfl 0, rfl, rfl, rfl⟩, rfl, rfl, rfl⟩

theorem witness_SystemResetEdge :
    ({ busyWith ioReadE4 with sysIn := { SysIn.quiet with sysRst := true } } : State).sysIn.sysRst = true := rfl

theorem witness_LaneWriteReadBack : Memory.wf [(0x1002, 0x11), (0x1003, 0x22)] = true := by decide

theorem witness_LaneWriteFrame : Memory.wf [(0x1002, 0x11), (0x1003, 0x22)] = true ∧
    (∃ k, k < Size.two.bytes ∧ 0x1003 = 4 * ((0x0001003 : FwAddr).toNat / 4) + ((0x0001003 : FwAddr).toNat % 4 &&& (4 - Size.two.bytes)) + k) ∧
    (∀ k, k < Size.two.bytes → 0x1001 ≠ 4 * ((0x0001003 : FwAddr).toNat / 4) + ((0x0001003 : FwAddr).toNat % 4 &&& (4 - Size.two.bytes)) + k) := by
  refine ⟨by decide, ⟨1, by decide, by decide⟩, by decide⟩

-- a system edge at which the attached firmware memory samples a write, a read, and nothing
theorem witness_LaneWriteFrame_fwEdge :
    let s : State := { busyWith { fwRead2 with data := 0xBEEF, operation := .fwWrite } with
      cfg := { Params.default with fwMem := true } }
    let r : State := { busyWith fwRead2 with cfg := { Params.default with fwMem := true } }
    s.sysRunning ∧ s.fwSlave.mem.wf = true ∧ isNext (sysTick s) = true ∧
      (s.cfg.fwMem && !s.fwSlave.ack && s.fw.stb) = true ∧ s.fw.we = true ∧
      isNext (sysTick r) = true ∧ (r.cfg.fwMem && !r.fwSlave.ack && r.fw.stb) = true ∧ r.fw.we = false ∧
      isNext (sysTick State.reset) = true ∧
      (State.reset.cfg.fwMem && !State.reset.fwSlave.ack && State.reset.fw.stb) = false :=
  ⟨rfl, rfl, by decide, rfl, rfl, by decide, rfl, rfl, by decide, rfl⟩

-- a system edge at which the attached I/O RAM samples a write
theorem witness_LaneWriteFrame_ioEdge :
    let s : State := { busyWith { ioRead80 with data := 0x13, operation := .ioWrite } with cfg := slaveMapped (some 7) }
    s.sysRunning ∧ s.ioSlave.mem.wf = true ∧ isNext (sysTick s) = true ∧ s.ioSlave.ack = false ∧ s.io.stb = true ∧
      s.io.we = true ∧ ∃ n, s.cfg.ioRam = some n ∧ lookupIo s.cfg.ioMap s.io.adr = .other n :=
  ⟨rfl, rfl, by decide, rfl, rfl, rfl, 7, rfl, rfl⟩

theorem witness_IoTransactionEndsInTwoEdges :
    let s := busyWith { ioReadE4 with address := 0x0000080 }
    s.disp.busy = true ∧ isIo s.disp.cur.operation = true ∧ s.io.stb = true ∧
      ∃ t1, tick (.sys SysIn.quiet) s = .next t1 ∧ ∃ t2, tick (.sys SysIn.quiet) t1 = .next t2 := by
  refine ⟨rfl, rfl, rfl, ?_⟩
  obtain ⟨t1, h1, p1⟩ := exists_nextIs (o := tick (.sys SysIn.quiet) (busyWith { ioReadE4 with address := 0x0000080 }))
    (p := fun t1 => isNext (tick (.sys SysIn.quiet) t1)) (by decide)
  exact ⟨t1, h1, exists_next p1⟩

/-- The state an edge leads to, or itself. -/
def nextOr (s : State) (o : Host.Outcome State Fault Refusal) : State :=
  match o with
  | .next t => t
  | .fault _ => s
  | .refused _ => s

theorem next_nextOr {s : State} {o : Host.Outcome State Fault Refusal} (h : isNext o = true) : o = .next (nextOr s o) := by
  unfold isNext nextIs at h
  split at h
  · rfl
  · cases h
  · cases h

/-- System and host edges in turn, all inputs quiet. -/
def alternating (n : Nat) : Tick := if n % 2 = 0 then .sys SysIn.quiet else .host HostIn.quiet

/-- An outstanding read at an unmapped address, under alternating edges. -/
def alternatingState : Nat → State
  | 0 => busyWith ioRead80
  | n + 1 => nextOr (alternatingState n) (tick (alternating n) (alternatingState n))

/-- From the fifth edge on nothing changes any more. -/
theorem alternatingState_settles (n : Nat) : alternatingState (n + 5) = alternatingState 5 := by
  induction n with
  | zero => rfl
  | succ n ih =>
    rw [show n + 1 + 5 = (n + 5) + 1 by omega, alternatingState, ih]
    obtain h | h : alternating (n + 5) = .sys SysIn.quiet ∨ alternating (n + 5) = .host HostIn.quiet := by
      unfold alternating; split
      · exact .inl rfl
      · exact .inr rfl
    · rw [h]; rfl
    · rw [h]; rfl

theorem alternating_isNext (n : Nat) : isNext (tick (alternating n) (alternatingState n)) = true := by
  obtain h | ⟨m, rfl⟩ : n < 5 ∨ ∃ m, n = m + 5 := by
    by_cases h : n < 5
    · exact .inl h
    · exact .inr ⟨n - 5, by omega⟩
  · obtain rfl | rfl | rfl | rfl | rfl : n = 0 ∨ n = 1 ∨ n = 2 ∨ n = 3 ∨ n = 4 := by omega
    all_goals rfl
  · rw [alternatingState_settles]
    unfold alternating; split <;> rfl

/-- A run under a fair schedule that starts with an I/O transaction outstanding. -/
def fairRun : Run ClockSchedule.everyFair (busyWith ioRead80) where
  ticks := alternating
  states := alternatingState
  start := rfl
  edge n := next_nextOr (alternating_isNext n)
  schedule := by
    intro c n
    cases c
    · refine ⟨2 * n + 1, by omega, ?_⟩
      simp [alternating, Tick.domain]
    · refine ⟨2 * n, by omega, ?_⟩
      simp [alternating, Tick.domain]

theorem witness_IoTransactionEndsInTwoEdges_run :
    (∀ d, ClockSchedule.everyFair d → ClockSchedule.everyFair d) ∧ (fairRun.states 0).disp.busy = true ∧
      isIo (fairRun.states 0).disp.cur.operation = true ∧ (fairRun.states 0).io.stb = true := ⟨fun _ h => h, rfl, rfl, rfl⟩

/-- A command at the visible head of the command queue, the PSM polling for its response. -/
def queuedRead (p : Params) (c : Command) : State :=
  { syncing .rdSync c.operation with cfg := p, cmdq := [{ payload := c, vis := true, age := p.cdcMin }] }

theorem queuedRead_inv {p : Params} {c : Command} (hr : isRead c.operation = true) : (queuedRead p c).Inv :=
  { occupancy := by unfold State.OccupancyInv State.occupancy; exact Nat.le_refl 1
    bus := ⟨rfl, rfl, rfl, fun h => by cases h⟩
    crossing := by
      refine ⟨fun e h => ?_, fun _ h => (List.not_mem_nil h).elim⟩
      simp only [queuedRead, List.mem_singleton] at h
      subst h
      exact ⟨Nat.le_refl _, fun _ => rfl⟩
    coherent := ⟨rfl, hr, fun _ => ⟨rfl, by show BitVec.extractLsb' 16 12 (0 : BitVec 28) = 0; decide⟩⟩
    drives := ⟨rfl, rfl⟩
    fifo := ⟨Nat.zero_le _, Nat.zero_le _⟩
    pushed := by unfold State.PushedInv; exact ⟨fun h => absurd h Bool.false_ne_true, fun h => absurd h Bool.false_ne_true⟩
    memory := ⟨rfl, rfl⟩
    slave := by unfold State.SlaveInv; exact ⟨fun h => absurd h Bool.false_ne_true, fun _ h => absurd h Bool.false_ne_true⟩ }

theorem witness_IoTransactionEndsInTwoEdges_fw :
    let s := queuedRead Params.default fwRead2
    s.Inv ∧ s.disp.busy = false ∧ sysInputs [Tick.host HostIn.quiet] = [] ∧
      ∃ t, tick (.sys SysIn.quiet) s = .next t ∧ t.disp.busy = true ∧ isIo t.disp.cur.operation = false ∧
        ∃ u, runTicks [.host HostIn.quiet] t = .next u ∧ State.FwSlaveContract { u with sysIn := SysIn.quiet } ∧
          ∃ v, tick (.sys SysIn.quiet) u = .next v := by
  refine ⟨queuedRead_inv rfl, rfl, rfl, _, next_nextOr (s := State.reset) (by decide), by decide, by decide, _,
    next_nextOr (s := State.reset) (by decide), ?_, exists_next (by decide)⟩
  intro _ h; cases h

/-- An I/O read under these parameters is dispatched, and its slave keeps the contract at the next system edge. -/
def ioDispatched (p : Params) : Prop :=
  ∃ t, tick (.sys SysIn.quiet) (queuedRead p ioRead80) = .next t ∧ t.disp.busy = true ∧
    isIo t.disp.cur.operation = true ∧ t.cfg = p ∧ t.io.adr = 0x0080 ∧
    ∃ u, runTicks [.host HostIn.quiet] t = .next u ∧ State.IoSlaveContract { u with sysIn := SysIn.quiet } ∧
      ∃ v, tick (.sys SysIn.quiet) u = .next v

-- at an unmapped address, and at a slave of the environment
theorem witness_IoTransactionEndsInTwoEdges_io :
    (queuedRead Params.default ioRead80).Inv ∧ ioDispatched Params.default ∧
      lookupIo Params.default.ioMap 0x0080 = .unmapped ∧
    (queuedRead (slaveMapped none) ioRead80).Inv ∧ ioDispatched (slaveMapped none) ∧
      lookupIo (slaveMapped none).ioMap 0x0080 = .other 7 ∧ (slaveMapped none).ioRam ≠ some 7 := by
  refine ⟨queuedRead_inv rfl, ?_, rfl, queuedRead_inv rfl, ?_, rfl, by decide⟩
  all_goals
    refine ⟨_, next_nextOr (s := State.reset) (by decide), by decide, by decide, by decide, by decide, _,
      next_nextOr (s := State.reset) (by decide), ?_, exists_next (by decide)⟩
    intro h; cases h

-- the control offset through map M0, the data offset (the last one that is not 0, 1 or 2 is offset 3), and the host window
theorem witness_BtReadThroughBridge :
    (let s := busyWith ioReadE4
     s.disp.busy = true ∧ s.disp.discard = false ∧ isIo s.disp.cur.operation = true ∧ s.io.stb = true ∧ s.io.we = false ∧
       s.ackExpected = false ∧ s.rspq.length < 2 ∧ lookupIo s.cfg.ioMap s.io.adr = .btT 0 ∧ s.bt.tWin.st = .idle) ∧
    (let s := busyWith { ioReadE4 with address := 0x00000E7 }
     s.disp.busy = true ∧ lookupIo s.cfg.ioMap s.io.adr = .btT 3 ∧ s.bt.tWin.st = .idle) ∧
    (let s := { busyWith { ioReadE4 with address := 0x0000105 } with cfg := hostMapped }
     s.disp.busy = true ∧ isIo s.disp.cur.operation = true ∧ s.io.stb = true ∧ s.io.we = false ∧
       lookupIo s.cfg.ioMap s.io.adr = .btH 5 ∧ s.bt.hWin.st = .idle ∧ mapsHost s.cfg = true) := by decide

-- a write through the map, an unmapped address, a slave of the environment
theorem witness_BtReadThroughBridge_others :
    (let s := busyWith { ioReadE4 with address := 0x00000E5, data := 0x99, operation := .ioWrite }
     s.disp.busy = true ∧ isIo s.disp.cur.operation = true ∧ s.io.stb = true ∧ s.io.we = true ∧ s.io.datW = 0x99 ∧
       s.ackExpected = false ∧ lookupIo s.cfg.ioMap s.io.adr = .btT 1 ∧ s.bt.tWin.st = .idle) ∧
    (let s := busyWith ioRead80
     s.disp.busy = true ∧ s.ackExpected = false ∧ lookupIo s.cfg.ioMap s.io.adr = .unmapped ∧ mapsTarget s.cfg = true) ∧
    (let s := { busyWith ioRead80 with cfg := slaveMapped none }
     s.disp.busy = true ∧ lookupIo s.cfg.ioMap s.io.adr = .other 7 ∧ s.cfg.ioRam ≠ some 7 ∧
       SysIn.quiet.ioAck = false ∧ ({ SysIn.quiet with ioAck := true } : SysIn).ioAck = true) := by decide

theorem witness_StepKeepsInv :
    State.reset.Inv ∧ ({ State.reset with script := [.sys (targetIn true 0 0x04)] } : State).Inv ∧
      ∃ t, step { State.reset with script := [.sys (targetIn true 0 0x04)] } = .next t :=
  ⟨reset_inv, { reset_inv with }, exists_next (by decide)⟩

theorem witness_StepNeverStops : (answeredBy { data := 0x13, error := false } (syncing .rdSync .ioRead)).Inv := syncing_inv

theorem witness_OneBusAtATime : State.reset.Inv ∧
    ∃ t, step { State.reset with script := [.sys SysIn.quiet] } = .next t := ⟨reset_inv, exists_next (by decide)⟩

/-- TargetReadsOnlyAnswer: a value for each clause. -/
theorem witness_TargetReadsOnlyAnswer :
    let s := withBt (fun b => { b with tPend := true, tEn := true })
    s.sysRunning ∧ s.bt.tWin.st = .idle ∧ s.rspRoom ∧ (0x03 : Byte).toNat = 2 * s.bt.tPend.toNat + s.bt.tEn.toNat :=
  ⟨rfl, rfl, by unfold State.rspRoom; decide, rfl⟩

/-- HostReadsOnlyAnswer: its clauses name their value outright. -/
theorem witness_HostReadsOnlyAnswer :
    let s := withBt (fun b => { b with hMask := 0b11, hStatus := 0b10 })
    s.sysRunning ∧ s.bt.hWin.st = .idle ∧ s.rspRoom ∧ (0x03 : Byte) = s.bt.hMask.setWidth 8 ∧
      (0x02 : Byte) = s.bt.hStatus.setWidth 8 ∧ (0x00 : Byte) = statusByte s.cfg.layout s.bt.flags :=
  ⟨rfl, rfl, by unfold State.rspRoom; decide, rfl, rfl, by decide⟩

/-- TargetControlWrite: the default layout, and no control write of the host window. -/
theorem witness_TargetControlWrite :
    State.reset.sysRunning ∧ State.reset.bt.tWin.st = .idle ∧ State.reset.rspRoom ∧
      State.reset.cfg.layout = .default ∧ State.reset.cfg.clearBit = 0 ∧ State.reset.hostCtrl = 0 :=
  ⟨rfl, rfl, by unfold State.rspRoom; decide, rfl, rfl, rfl⟩

/-- HostControlWrite: the default layout, and no control write of the target window. -/
theorem witness_HostControlWrite :
    State.reset.sysRunning ∧ State.reset.bt.hWin.st = .idle ∧ State.reset.rspRoom ∧
      State.reset.cfg.layout = .default ∧ State.reset.cfg.clearBit = 0 ∧ State.reset.targetCtrl = 0 :=
  ⟨rfl, rfl, by unfold State.rspRoom; decide, rfl, rfl, rfl⟩

/-- DataReadsPop: an empty FIFO on one side, one byte on the other. -/
theorem witness_DataReadsPop :
    let s := withBt (fun b => { b with fifoH2t := [], fifoT2h := [7] })
    s.sysRunning ∧ s.rspRoom ∧ s.bt.tWin.st = .idle ∧ s.bt.hWin.st = .idle :=
  ⟨rfl, by unfold State.rspRoom; decide, rfl, rfl⟩

/-- DataWritesPush: the last free place of one FIFO, a full one on the other side, and a pending clear. -/
theorem witness_DataWritesPush :
    (let s := withBt (fun b => { b with fifoT2h := [1, 2, 3], fifoH2t := [1, 2, 3, 4] })
     s.sysRunning ∧ s.rspRoom ∧ s.PushedInv ∧ s.bt.tWin.st = .idle ∧ s.bt.hWin.st = .idle ∧
       true = (!s.bt.clrT2h && decide (s.bt.fifoT2h.length < s.cfg.btDepth)) ∧
       false = (!s.bt.clrH2t && decide (s.bt.fifoH2t.length < s.cfg.btDepth))) ∧
    (let s := withBt (fun b => { b with clrT2h := true })
     s.sysRunning ∧ s.rspRoom ∧ s.PushedInv ∧ s.bt.tWin.st = .idle ∧
       false = (!s.bt.clrT2h && decide (s.bt.fifoT2h.length < s.cfg.btDepth))) :=
  ⟨⟨rfl, by unfold State.rspRoom; decide, by unfold State.PushedInv; decide, rfl, rfl, rfl, rfl⟩,
   ⟨rfl, by unfold State.rspRoom; decide, by unfold State.PushedInv; decide, rfl, rfl⟩⟩

/-- InterruptRegisterWrites: a clearing write and one that clears nothing. -/
theorem witness_InterruptRegisterWrites :
    State.reset.sysRunning ∧ State.reset.rspRoom ∧ State.reset.bt.tWin.st = .idle ∧ State.reset.bt.hWin.st = .idle ∧
      (0x02 : Byte).getLsbD 1 = true ∧ (0x01 : Byte).getLsbD 1 = false :=
  ⟨rfl, by unfold State.rspRoom; decide, rfl, rfl, rfl, rfl⟩

theorem witness_WindowInAckServesNothing :
    (let s := withBt (fun b => { b with tWin := { st := .ack, datR := 0x11 } })
     s.bt.tWin.st = .ack ∧ s.sysRunning ∧ ∃ t, withoutTarget s = .next t) ∧
    (let s := withBt (fun b => { b with hWin := { st := .ack, datR := 0x11 } })
     s.bt.hWin.st = .ack ∧ s.sysRunning ∧ ∃ t, withoutHost s = .next t) :=
  ⟨⟨rfl, rfl, exists_next (by decide)⟩, ⟨rfl, rfl, exists_next (by decide)⟩⟩

/-- A master's handshake through its three edges, the first of them taken from s (R223). -/
def handshakeKept (contract : State → SysIn → Prop) (i : SysIn) (s : State) : Prop :=
  contract s i ∧ ∃ t, tick (.sys i) s = .next t ∧ contract t i ∧
    ∃ u, tick (.sys i) t = .next u ∧ contract u SysIn.quiet

theorem witness_WindowInAckServesNothing_masters :
    let s := { State.reset with cfg := unmapped }
    (mapsTarget s.cfg = false ∧ s.bt.tWin.st = .idle ∧ handshakeKept State.TargetMasterContract (targetIn true 1 9) s) ∧
    (mapsHost s.cfg = false ∧ s.bt.hWin.st = .idle ∧ handshakeKept State.HostMasterContract (hostWinIn false 4 0) s) := by
  refine ⟨⟨rfl, rfl, ?_, _, next_nextOr (s := State.reset) (by decide), ?_, _, next_nextOr (s := State.reset) (by decide), ?_⟩,
    ⟨rfl, rfl, ?_, _, next_nextOr (s := State.reset) (by decide), ?_, _, next_nextOr (s := State.reset) (by decide), ?_⟩⟩
  all_goals
    first | unfold State.TargetMasterContract | unfold State.HostMasterContract
    unfold Window.MasterHandshake
    decide

theorem witness_QuietBtEdge :
    let s := withBt (fun b => { b with clrT2h := true, fifoT2h := [1], hWin := { st := .ack, datR := 5 } })
    s.sysRunning ∧ s.servedTarget = none ∧ s.servedHost = none ∧ ∃ t, sysTick s = .next t :=
  ⟨rfl, rfl, rfl, exists_next (by decide)⟩

-- both windows write control at one edge: a set meets a clear (R246)
theorem witness_ControlBitsCombine :
    let s := { State.reset with
      cfg := unmapped
      sysIn := { targetIn true 0 0x3C with hPort := { stb := true, we := true, adr := 4, datW := 0x3C } } }
    s.sysRunning ∧ s.cfg.layout = .default ∧ s.targetCtrl = 0x3C ∧ s.hostCtrl = 0x3C ∧ ∃ t, sysTick s = .next t :=
  ⟨rfl, rfl, rfl, rfl, exists_next (by decide)⟩

-- a host status write and a target interrupt-configuration write at one edge
theorem witness_PendingBitsCombine :
    let s := { State.reset with
      cfg := unmapped
      sysIn := { targetIn true 2 0x02 with hPort := { stb := true, we := true, adr := 1, datW := 0x01 } } }
    s.sysRunning ∧ (s.servedTarget.getD TAccess.idle).intcfg = some 0x02 ∧
      (s.servedHost.getD HAccess.idle).status = some 0x01 ∧ ∃ t, sysTick s = .next t :=
  ⟨rfl, rfl, rfl, exists_next (by decide)⟩

theorem witness_PendingUntilCleared :
    let s := withBt (fun b => { b with hStatus := 0b10 })
    s.bt.hStatus.getLsbD 1 = true ∧
    (∀ (ts1 ts2 : List Tick) (i : SysIn) (u : State), [Tick.sys (hostWinIn false 1 0)] = ts1 ++ .sys i :: ts2 →
      runTicks ts1 s = .next u →
      i.sysRst = false ∧
      ∀ a b, ({ u with sysIn := i } : State).servedHost = some a → a.status = some b → b.getLsbD 1 = true) ∧
    ∃ t, runTicks [.sys (hostWinIn false 1 0)] s = .next t := by
  refine ⟨by decide, ?_, exists_next (by decide)⟩
  intro ts1 ts2 i u h hr
  cases ts1 with
  | nil =>
    simp only [List.nil_append, List.cons.injEq, Tick.sys.injEq] at h
    obtain ⟨rfl, -⟩ := h
    cases hr
    refine ⟨rfl, ?_⟩
    intro a b ha hb
    have e : ({ withBt (fun b => { b with hStatus := 0b10 }) with sysIn := hostWinIn false 1 0 } : State).servedHost =
        some (accHStatusRd (withBt (fun b => { b with hStatus := 0b10 })).bt) := by decide
    rw [e] at ha
    cases ha
    cases hb
  | cons x xs => simp at h

theorem witness_ClearPulse :
    (∃ t, State.reset.bt.tWin.st = .idle ∧ exec (.tCtrlWr 0x01) State.reset = .next t ∧
      ∃ u, tick (.sys (hostWinIn false 5 0)) t = .next u) ∧
    (∃ t, State.reset.bt.hWin.st = .idle ∧ exec (.hCtrlWr 0x01) State.reset = .next t ∧
      ∃ u, tick (.sys SysIn.quiet) t = .next u) ∧
    (0x01 : Byte).getLsbD State.reset.cfg.clearBit.val = true ∧ State.reset.sysRunning := by
  refine ⟨?_, ?_, by decide, rfl⟩
  · obtain ⟨t, h, p⟩ := exists_nextIs (o := exec (.tCtrlWr 0x01) State.reset)
      (p := fun t => isNext (tick (.sys (hostWinIn false 5 0)) t)) (by decide)
    exact ⟨t, rfl, h, exists_next p⟩
  · obtain ⟨t, h, p⟩ := exists_nextIs (o := exec (.hCtrlWr 0x01) State.reset)
      (p := fun t => isNext (tick (.sys SysIn.quiet) t)) (by decide)
    exact ⟨t, rfl, h, exists_next p⟩

-- the dip could only bite at occupancy depth - 1, right after a push, on a push: the mark excludes the push
theorem witness_WriteReadyDipUnobservable :
    let s := { withBt (fun b => { b with fifoT2h := [1, 2, 3], pushedT2h := true, tWin := { st := .ack, datR := 0 } }) with
      cfg := unmapped
      script := [.sys { targetIn true 1 9 with dipT2h := true }] }
    s.PushedInv ∧ ∃ t, step s = .next t :=
  ⟨by unfold State.PushedInv; decide, exists_next (by decide)⟩

/-- The three system edges of one access by a master that keeps its handshake (R223): served, strobe held, strobe dropped. -/
def handshake (i : SysIn) : List Tick := [.sys i, .sys i, .sys SysIn.quiet]

-- one byte pushed and one popped by masters that keep their handshake, and the last pop; each way
theorem witness_FifoRoundTrip :
    let s := { State.reset with cfg := unmapped }
    let hPop := hostWinIn false 5 0
    let tPop := targetIn false 1 0
    (mapsTarget s.cfg = false ∧ mapsHost s.cfg = false ∧ s.PushedInv ∧ s.bt.tWin.st = .idle ∧ s.bt.hWin.st = .idle) ∧
    (sysInputs [.sys hPop] = [hPop] ∧
      (∃ t, runTicks (handshake (targetIn true 1 0xAA) ++ handshake hPop ++ [.sys hPop]) s = .next t) ∧
      s.bt.fifoT2h = [] ∧ s.bt.clrT2h = false ∧
      AccessSequence (SysIn.targetAccesses true 1) SysIn.noHost (sysInputs (handshake (targetIn true 1 0xAA))) [0xAA] ∧
      AccessSequence (SysIn.hostAccesses false 5) SysIn.noTarget (sysInputs (handshake hPop)) [0] ∧
      SysIn.hostAccesses false 5 0 hPop) ∧
    (sysInputs [.sys tPop] = [tPop] ∧
      (∃ t, runTicks (handshake (hostWinIn true 5 0x42) ++ handshake tPop ++ [.sys tPop]) s = .next t) ∧
      s.bt.fifoH2t = [] ∧ s.bt.clrH2t = false ∧
      AccessSequence (SysIn.hostAccesses true 5) SysIn.noTarget (sysInputs (handshake (hostWinIn true 5 0x42))) [0x42] ∧
      AccessSequence (SysIn.targetAccesses false 1) SysIn.noHost (sysInputs (handshake tPop)) [0] ∧
      SysIn.targetAccesses false 1 0 tPop) :=
  have one {access acked i b} (h : access b i) (h' : acked i) :
      AccessSequence access acked (sysInputs (handshake i)) [b] :=
    .access h h' (.idle ⟨rfl, rfl⟩ ⟨rfl, rfl⟩ .done)
  ⟨⟨rfl, rfl, by unfold State.PushedInv; decide, rfl, rfl⟩,
   ⟨rfl, exists_next (by decide), rfl, rfl, one ⟨rfl, rfl, rfl⟩ ⟨rfl, rfl⟩, one ⟨rfl, rfl, rfl⟩ ⟨rfl, rfl⟩, ⟨rfl, rfl, rfl⟩⟩,
   ⟨rfl, exists_next (by decide), rfl, rfl, one ⟨rfl, rfl, rfl⟩ ⟨rfl, rfl⟩, one ⟨rfl, rfl, rfl⟩ ⟨rfl, rfl⟩, ⟨rfl, rfl, rfl⟩⟩⟩

theorem witness_OwnershipKept :
    State.reset.sysRunning ∧ State.reset.cfg.layout = .default ∧ State.reset.servedHost = none ∧
      State.reset.servedTarget = none ∧ (∃ t, exec (decodeTarget true 0 0xFF) State.reset = .next t) ∧
      ∃ t, exec (decodeHost true 4 0xFF) State.reset = .next t :=
  ⟨rfl, rfl, rfl, rfl, exists_next (by decide), exists_next (by decide)⟩

end Sys2Proof.Tests
end

section
/-! PROOF. O29: a step is the edge it takes, and so is exec of every instruction at a decode point of that edge. -/

namespace Sys2Proof.Machine

/-- The transaction the PSM hands over at a host edge is run by that edge (R157). -/
theorem exec_hostInstr {s : State} {i : Instr} (h : hostInstr s = some i) : exec i s = hostEdge s := by
  rw [← hostTick_eq]
  simp only [hostTick, h]

/-- A step whose next tick is a host edge records the tick's inputs and runs that edge. -/
theorem step_of_nextTick_host {s s1 : State} {h : HostIn} (hn : nextTick s = (.host h, s1)) :
    step s = hostEdge { s1 with hostIn := h } := by
  simp only [step, tick, hn, hostTick_eq]

/-- A step whose next tick is a system edge records the tick's inputs and runs that edge with what is presented at it. -/
theorem step_of_nextTick_sys {s s1 : State} {u : SysIn} (hn : nextTick s = (.sys u, s1)) :
    step s = sysEdge (presented { s1 with sysIn := u }) { s1 with sysIn := u } := by
  simp only [step, tick, hn, sysTick_eq]

/-- Settles O29: the step and exec of each sampled instruction are the same edge, so they are equal, also where several
decode points take an instruction at one system edge (log 8). -/
theorem stepRunsDecodedInstruction : Obligations.StepRunsDecodedInstruction := by
  intro s s1
  constructor
  · intro h hn
    have hstep := step_of_nextTick_host hn
    exact ⟨fun i hi => hstep.trans (exec_hostInstr hi).symm, fun _ => hstep⟩
  · intro u hn
    have hstep := step_of_nextTick_sys hn
    exact ⟨fun i hi => hstep.trans (exec_sampledTarget hi).symm,
      fun i hi => hstep.trans (exec_sampledHost hi).symm,
      fun i hi => hstep.trans (exec_sampledCommand hi).symm,
      fun _ => hstep⟩

end Sys2Proof.Machine
end

section
/-! PROOF. O27 and O35: what a host edge without a queue reset leaves unchanged, and the one outcome of a system reset
edge. -/

namespace Sys2Proof.Machine

/-- The PSM's rule leaves the command queue as it is, or appends the command it hands over (R201). -/
theorem enqueueCommand_some {e : Option Command} {q q' : List (QEntry Command)} (h : enqueueCommand e q = some q') :
    (e = none ∧ q' = q) ∨
    (∃ c, e = some c ∧ q.length < 2 ∧ q' = q ++ [{ payload := c, vis := false, age := 0 }]) := by
  cases e with
  | none =>
    obtain rfl : q = q' := Option.some.inj h
    exact .inl ⟨rfl, rfl⟩
  | some c =>
    replace h : pushEntry q c = some q' := h
    obtain ⟨-, hp⟩ | ⟨hl, hp⟩ := pushEntry_cases q c
    · cases hp.symm.trans h
    · cases hp.symm.trans h
      exact .inr ⟨c, rfl, hl, rfl⟩

/-- A host edge without a queue reset ends in the state its PSM rule leaves. -/
theorem hostEdge_next_of_noQueueReset {s t : State} (hq : s.noQueueReset) (h : hostEdge s = .next t) :
    ∃ q, enqueueCommand (psmOut s).enq s.cmdq = some q ∧ t = afterPsm s q := by
  obtain ⟨q, he, rfl⟩ := hostEdge_next h
  replace hq : queueResetDue s.cfg s.hostIn s.psm = false := hq
  exact ⟨q, he, by simp [hq]⟩

/-- Settles O27: without a queue reset the edge is the PSM's rule, which writes the PSM and the two queues only. -/
theorem hostEdgeFrame : Obligations.HostEdgeFrame := by
  intro s t hq ht
  rw [hostTick_eq] at ht
  obtain ⟨q, he, rfl⟩ := hostEdge_next_of_noQueueReset hq ht
  refine ⟨rfl, ?_, rfl, rfl⟩
  obtain ⟨-, hkept⟩ | ⟨c, -, -, happended⟩ := enqueueCommand_some he
  · exact .inl hkept
  · exact .inr ⟨c, happended⟩

/-- A system reset edge resets, whatever is presented at it (R42, R281). -/
theorem sysEdge_of_sysRst {s : State} (hr : s.sysIn.sysRst = true) (p : Presented) :
    sysEdge p s = .next (sysReset s) := by
  rw [sysEdge_eq, if_pos hr]

/-- Settles O35: the tick, and every access or command offered in its place, is a system edge, and at a system reset every
system edge ends in `sysReset s`, whose registers are the reset values. -/
theorem systemResetEdge : Obligations.SystemResetEdge := by
  intro s hr
  have hedge := sysEdge_of_sysRst hr
  refine ⟨sysReset s, ⟨?tick, ?target, ?host, ?command⟩, ⟨rfl, rfl, rfl⟩, rfl, rfl, rfl, rfl, ⟨rfl, rfl, rfl, rfl⟩,
    ⟨rfl, rfl, rfl, rfl⟩, ⟨rfl, rfl⟩, rfl, rfl⟩
  case tick => rw [sysTick_eq, hedge]
  case target => intro we adr w; rw [exec_decodeTarget, targetEdge, hedge]
  case host => intro we adr w; rw [exec_decodeHost, hostWindowEdge, hedge]
  case command => intro c; rw [exec_toBridge, dispatchEdge, hedge]

end Sys2Proof.Machine
end

section
/-! PROOF. O36 and O37: the lanes of a firmware access, and what the attached test slaves store and return at a system
edge. -/

namespace Sys2Proof.Machine

/-! ## The lane arithmetic of R73 to R75 -/

/-- The firmware word of a byte address (R73). -/
theorem fwWordAddr_toNat (a : FwAddr) : (fwWordAddr a).toNat = a.toNat / 4 := by
  have := a.isLt
  simp only [fwWordAddr, BitVec.extractLsb'_toNat, Nat.shiftRight_eq_div_pow]
  omega

/-- The lane offset in numbers (R73). -/
theorem laneOffset_eq (z : Size) (a : FwAddr) : laneOffset z a = a.toNat % 4 &&& (4 - z.bytes) := by
  have hmask : (alignMask z).toNat = 4 - z.bytes := by cases z <;> rfl
  simp only [laneOffset, BitVec.toNat_and, BitVec.extractLsb'_toNat, hmask, Nat.shiftRight_zero, Nat.reducePow]

/-- An access stays within its word: its lanes are aligned to its size. -/
theorem laneOffset_add_bytes_le (z : Size) (a : FwAddr) : laneOffset z a + z.bytes ≤ 4 := by
  have haligned : ∀ x : BitVec 2, (x &&& alignMask z).toNat + z.bytes ≤ 4 := by cases z <;> decide
  exact haligned _

theorem laneMask_getLsbD (z : Size) (i : Nat) : (laneMask z).getLsbD i = decide (i < z.bytes) := by
  by_cases hi : i < 4
  · have hbits : ∀ j : Fin 4, (laneMask z).getLsbD j = decide (j.val < z.bytes) := by cases z <;> decide
    exact hbits ⟨i, hi⟩
  · have hbytes : z.bytes ≤ 4 := by cases z <;> decide
    rw [BitVec.getLsbD_of_ge _ _ (by omega), decide_eq_false (by omega)]

theorem sizeMask_getLsbD (z : Size) (i : Nat) : (sizeMask z).getLsbD i = decide (i < 8 * z.bytes) := by
  by_cases hi : i < 32
  · have hbits : ∀ j : Fin 32, (sizeMask z).getLsbD j = decide (j.val < 8 * z.bytes) := by cases z <;> decide
    exact hbits ⟨i, hi⟩
  · have hbytes : z.bytes ≤ 4 := by cases z <;> decide
    rw [BitVec.getLsbD_of_ge _ _ (by omega), decide_eq_false (by omega)]

/-- The selected lanes are the `z.bytes` lanes from the lane offset on (R73). -/
theorem laneSelect_getLsbD (z : Size) (a : FwAddr) (i : Nat) :
    (laneSelect z a).getLsbD i = decide (laneOffset z a ≤ i ∧ i < laneOffset z a + z.bytes) := by
  have hle := laneOffset_add_bytes_le z a
  rw [laneSelect, BitVec.getLsbD_shiftLeft, laneMask_getLsbD, Bool.eq_iff_iff]
  simp only [Bool.and_eq_true, Bool.not_eq_true', decide_eq_true_eq, decide_eq_false_iff_not]
  omega

/-- Write data has its byte k on lane k above the lane offset (R74). -/
theorem toLanes_extractLsb' (z : Size) (a : FwAddr) (d : Word) {k : Nat} (hk : k < z.bytes) :
    (toLanes z a d).extractLsb' (8 * (laneOffset z a + k)) 8 = d.extractLsb' (8 * k) 8 := by
  have hle := laneOffset_add_bytes_le z a
  apply BitVec.eq_of_getLsbD_eq
  intro i hi
  have hpos : 8 * (laneOffset z a + k) + i - 8 * laneOffset z a = 8 * k + i := by omega
  have hwidth : 8 * (laneOffset z a + k) + i < 32 := by omega
  have hlane : ¬8 * (laneOffset z a + k) + i < 8 * laneOffset z a := by omega
  simp only [toLanes, BitVec.getLsbD_extractLsb', BitVec.getLsbD_shiftLeft, hpos, hwidth, hlane, decide_true, decide_false,
    Bool.not_false, Bool.and_true, Bool.true_and]

/-! ## The words of a memory -/

/-- A byte address is a lane of its word. -/
theorem laneAddr_div_mod {wa : FwWordAddr} {c : Nat} (hc : c / 4 = wa.toNat) : laneAddr wa (c % 4) = c := by
  rw [laneAddr]
  omega

/-- Storing the selected lanes puts each on its address of the word and leaves every other address as it was (R221). -/
theorem read_writeLanes {wa : FwWordAddr} {sel : BitVec 4} {d : Word} {m : Memory} (hm : m.wf = true) (c : Nat) :
    Memory.read (writeLanes wa sel d m) c =
      if c / 4 = wa.toNat ∧ sel.getLsbD (c % 4) = true then d.extractLsb' (8 * (c % 4)) 8 else Memory.read m c := by
  have h0 := writeLane_wf (wa := wa) (sel := sel) (d := d) (i := 0) hm
  have h1 := writeLane_wf (wa := wa) (sel := sel) (d := d) (i := 1) h0
  have h2 := writeLane_wf (wa := wa) (sel := sel) (d := d) (i := 2) h1
  rw [writeLanes, read_writeLane h2, read_writeLane h1, read_writeLane h0, read_writeLane hm]
  by_cases hw : c / 4 = wa.toNat
  · have hlane : ∀ i, i < 4 → (c = laneAddr wa i ↔ c % 4 = i) := by intro i hi; rw [laneAddr]; omega
    have hmod : c % 4 < 4 := by omega
    simp only [hlane 0 (by omega), hlane 1 (by omega), hlane 2 (by omega), hlane 3 (by omega), hw, true_and]
    generalize c % 4 = j at hmod
    interval_cases j <;> simp
  · have hlane : ∀ i, i < 4 → c ≠ laneAddr wa i := by intro i hi; rw [laneAddr]; omega
    simp [hlane, hw]

/-- Lane k of a word after the selected lanes were stored. -/
theorem read_writeLanes_lane {wa : FwWordAddr} {sel : BitVec 4} {d : Word} {m : Memory} (hm : m.wf = true)
    {k : Nat} (hk : k < 4) :
    Memory.read (writeLanes wa sel d m) (laneAddr wa k) =
      if sel.getLsbD k then d.extractLsb' (8 * k) 8 else Memory.read m (laneAddr wa k) := by
  have hdiv : laneAddr wa k / 4 = wa.toNat := by rw [laneAddr]; omega
  have hmod : laneAddr wa k % 4 = k := by rw [laneAddr]; omega
  rw [read_writeLanes hm, hdiv, hmod]
  simp only [true_and]

/-- A word read has lane k in bits 8k+7 to 8k (R74). -/
theorem readWord_extractLsb' (m : Memory) (wa : FwWordAddr) {k : Nat} (hk : k < 4) :
    (readWord m wa).extractLsb' (8 * k) 8 = Memory.read m (laneAddr wa k) := by
  rw [readWord]
  interval_cases k
  · exact BitVec.extractLsb'_append_eq_right
  · rw [BitVec.extractLsb'_append_eq_of_le (by omega)]
    exact BitVec.extractLsb'_append_eq_right
  · iterate 2 rw [BitVec.extractLsb'_append_eq_of_le (by omega)]
    exact BitVec.extractLsb'_append_eq_right
  · iterate 2 rw [BitVec.extractLsb'_append_eq_of_le (by omega)]
    exact BitVec.extractLsb'_append_eq_left

/-! ## A firmware write of a command -/

/-- A firmware write stores byte k of its data at lane k above the lane offset (R73, R74). -/
theorem read_fwWrite_lane (z : Size) (a : FwAddr) (d : Word) {m : Memory} (hm : m.wf = true) {k : Nat} (hk : k < z.bytes) :
    Memory.read (writeLanes (fwWordAddr a) (laneSelect z a) (toLanes z a d) m)
      (laneAddr (fwWordAddr a) (laneOffset z a + k)) = d.extractLsb' (8 * k) 8 := by
  have hle := laneOffset_add_bytes_le z a
  have hsel : (laneSelect z a).getLsbD (laneOffset z a + k) = true := by
    rw [laneSelect_getLsbD, decide_eq_true_eq]
    omega
  rw [read_writeLanes_lane hm (by omega), if_pos hsel, toLanes_extractLsb' z a d hk]

/-- A firmware write leaves every address that is none of its bytes as it was (R221). -/
theorem read_fwWrite_other (z : Size) (a : FwAddr) (d : Word) {m : Memory} (hm : m.wf = true) {c : Nat}
    (hc : ∀ k, k < z.bytes → c ≠ laneAddr (fwWordAddr a) (laneOffset z a + k)) :
    Memory.read (writeLanes (fwWordAddr a) (laneSelect z a) (toLanes z a d) m) c = Memory.read m c := by
  rw [read_writeLanes hm, if_neg]
  rintro ⟨hword, hsel⟩
  rw [laneSelect_getLsbD, decide_eq_true_eq] at hsel
  obtain ⟨hlow, hhigh⟩ := hsel
  apply hc (c % 4 - laneOffset z a) (by omega)
  rw [Nat.add_sub_cancel' hlow, laneAddr_div_mod hword]

/-- Settles O36: byte by byte of the size, the lane read back holds the byte of the data stored there (R74, R75). -/
theorem laneWriteReadBack : Obligations.LaneWriteReadBack := by
  intro z a d m hm
  have hle := laneOffset_add_bytes_le z a
  apply BitVec.eq_of_getLsbD_eq
  intro i _
  rw [BitVec.getLsbD_and, BitVec.getLsbD_and, sizeMask_getLsbD]
  by_cases hi : i < 8 * z.bytes
  · have hk : i / 8 < z.bytes := by omega
    have hbyte := (readWord_extractLsb' _ (fwWordAddr a) (by omega)).trans (read_fwWrite_lane z a d hm hk)
    have hbit := congrArg (·.getLsbD (i % 8)) hbyte
    have hfrom : 8 * (laneOffset z a + i / 8) + i % 8 = 8 * laneOffset z a + i := by omega
    have hmod : i % 8 < 8 := by omega
    simp only [BitVec.getLsbD_extractLsb', hmod, hfrom, Nat.div_add_mod, decide_true, Bool.true_and] at hbit
    rw [fromLanes, BitVec.getLsbD_ushiftRight, hbit]
  · simp only [hi, decide_false, Bool.and_false]

/-! ## The system edge of the test slaves -/

/-- A system edge without reset takes each test slave through its own edge. -/
theorem sysTick_slaves {s t : State} (hr : s.sysRunning) (h : sysTick s = .next t) :
    t.fwSlave = fwSlaveEdge s ∧ t.ioSlave = ioSlaveEdge s := by
  rw [sysTick_eq] at h
  obtain ⟨hrst, -⟩ | ⟨-, s1, -, rfl⟩ := sysEdge_next h
  · exact absurd (hr.symm.trans hrst) Bool.false_ne_true
  · exact ⟨rfl, rfl⟩

/-- FWMEM, attached and not acknowledging, stores the selected lanes at a write strobe. -/
theorem fwSlaveEdge_write {s : State} (h : (s.cfg.fwMem && !s.fwSlave.ack && s.fw.stb) = true) (hwe : s.fw.we = true) :
    fwSlaveEdge s =
      { s.fwSlave with ack := true, mem := writeLanes s.fw.adr s.fw.sel s.fw.datW s.fwSlave.mem } := by
  simp only [Bool.and_eq_true, Bool.not_eq_true'] at h
  obtain ⟨⟨hmem, hack⟩, hstb⟩ := h
  simp [fwSlaveEdge, hmem, hack, hstb, hwe]

/-- At a read strobe it returns the word. -/
theorem fwSlaveEdge_read {s : State} (h : (s.cfg.fwMem && !s.fwSlave.ack && s.fw.stb) = true) (hwe : s.fw.we = false) :
    fwSlaveEdge s = { s.fwSlave with ack := true, datR := readWord s.fwSlave.mem s.fw.adr } := by
  simp only [Bool.and_eq_true, Bool.not_eq_true'] at h
  obtain ⟨⟨hmem, hack⟩, hstb⟩ := h
  simp [fwSlaveEdge, hmem, hack, hstb, hwe]

/-- Attached but sampling no strobe, it drops its acknowledge and keeps the rest. -/
theorem fwSlaveEdge_idle {s : State} (h : (s.cfg.fwMem && !s.fwSlave.ack && s.fw.stb) = false) (hmem : s.cfg.fwMem = true) :
    fwSlaveEdge s = { s.fwSlave with ack := false } := by
  cases hack : s.fwSlave.ack
  · have hstb : s.fw.stb = false := by simpa [hmem, hack] using h
    simp [fwSlaveEdge, hmem, hack, hstb]
    rw [← hack]
  · simp [fwSlaveEdge, hmem, hack]

theorem fwSlaveEdge_unattached {s : State} (hmem : s.cfg.fwMem = false) : fwSlaveEdge s = s.fwSlave := by
  simp [fwSlaveEdge, hmem]

/-- The test RAM samples its strobe: it is attached, the map selects it, and it is not acknowledging. -/
def State.ioRamSamples (s : State) : Prop :=
  s.ioSlave.ack = false ∧ s.io.stb = true ∧ ∃ n, s.cfg.ioRam = some n ∧ lookupIo s.cfg.ioMap s.io.adr = .other n

/-- The map selects the test RAM when it sends the address to the slave the RAM is attached as. -/
theorem ioRamSelected_iff (s : State) :
    ioRamSelected s = true ↔ ∃ n, s.cfg.ioRam = some n ∧ lookupIo s.cfg.ioMap s.io.adr = .other n := by
  unfold ioRamSelected
  split <;> next h => simp [h]

/-- The test RAM stores the byte at a write strobe. -/
theorem ioSlaveEdge_write {s : State} (h : s.ioRamSamples) (hwe : s.io.we = true) :
    ioSlaveEdge s =
      { s.ioSlave with ack := true, mem := Memory.write s.ioSlave.mem s.io.adr.toNat s.io.datW } := by
  obtain ⟨hack, hstb, n, hram, hmap⟩ := h
  have hsel := (ioRamSelected_iff s).mpr ⟨n, hram, hmap⟩
  simp [ioSlaveEdge, hram, hack, hstb, hsel, hwe]

/-- At a read strobe it returns the byte. -/
theorem ioSlaveEdge_read {s : State} (h : s.ioRamSamples) (hwe : s.io.we = false) :
    ioSlaveEdge s = { s.ioSlave with ack := true, datR := Memory.read s.ioSlave.mem s.io.adr.toNat } := by
  obtain ⟨hack, hstb, n, hram, hmap⟩ := h
  have hsel := (ioRamSelected_iff s).mpr ⟨n, hram, hmap⟩
  simp [ioSlaveEdge, hram, hack, hstb, hsel, hwe]

/-- Attached but sampling no strobe, it drops its acknowledge and keeps the rest. -/
theorem ioSlaveEdge_idle {s : State} (h : ¬s.ioRamSamples) (hram : s.cfg.ioRam ≠ none) :
    ioSlaveEdge s = { s.ioSlave with ack := false } := by
  have hatt : s.cfg.ioRam.isSome = true := Option.isSome_iff_ne_none.mpr hram
  cases hack : s.ioSlave.ack
  · have hquiet : (s.io.stb && ioRamSelected s) = false := by
      rw [Bool.eq_false_iff, Ne, Bool.and_eq_true, ioRamSelected_iff]
      exact fun hs => h ⟨hack, hs⟩
    simp [ioSlaveEdge, hatt, hack, hquiet]
    rw [← hack]
  · simp [ioSlaveEdge, hatt, hack]

theorem ioSlaveEdge_unattached {s : State} (hram : s.cfg.ioRam = none) : ioSlaveEdge s = s.ioSlave := by
  simp [ioSlaveEdge, hram]

/-- Settles O37: the bytes a firmware write stores and the ones it leaves; then one equation of each test slave's edge per
case of what it samples. -/
theorem laneWriteFrame : Obligations.LaneWriteFrame := by
  refine ⟨?lanes, ?fwEdge, ?ioEdge⟩
  case lanes =>
    intro z a d m c hm
    have haddr : ∀ k, 4 * (a.toNat / 4) + (a.toNat % 4 &&& (4 - z.bytes)) + k =
        laneAddr (fwWordAddr a) (laneOffset z a + k) := by
      intro k
      rw [laneAddr, fwWordAddr_toNat, laneOffset_eq, Nat.add_assoc]
    simp only [haddr]
    refine ⟨?_, read_fwWrite_other z a d hm⟩
    rintro k hk rfl
    exact read_fwWrite_lane z a d hm hk
  case fwEdge =>
    rintro s t hr hm ht samples rfl
    rw [(sysTick_slaves hr ht).1]
    refine ⟨fun hs hwe => ?write, fun hs hwe => ?read, fwSlaveEdge_idle, fwSlaveEdge_unattached⟩
    case write =>
      rw [fwSlaveEdge_write hs hwe]
      refine ⟨rfl, rfl, fun k hk => read_writeLanes_lane hm hk, fun c hc => ?_⟩
      exact (read_writeLanes hm c).trans (if_neg fun h => hc h.1)
    case read =>
      rw [fwSlaveEdge_read hs hwe]
      exact ⟨rfl, rfl, fun k hk => readWord_extractLsb' _ _ hk⟩
  case ioEdge =>
    intro s t hr hm ht samples hsamples
    rw [(sysTick_slaves hr ht).2]
    refine ⟨fun hs hwe => ?write, fun hs hwe => ioSlaveEdge_read (hsamples.mp hs) hwe,
      fun hs => ioSlaveEdge_idle (mt hsamples.mpr hs), ioSlaveEdge_unattached⟩
    case write =>
      rw [ioSlaveEdge_write (hsamples.mp hs) hwe]
      exact ⟨rfl, rfl, fun c => read_write hm⟩

end Sys2Proof.Machine
end

section
/-! PROOF. O2, O3, O4 and O5: the decoder on the symbols of each transaction format, whatever its ignored symbols, on the
keys of the windows and on the codes of the bridge commands; and what it refuses. -/

namespace Sys2Proof

/-! ## Fields of a symbol stream -/

/-- A field at the head of a stream is read back as the symbols sent (R105). -/
@[simp] theorem takeSymbols_toNibbles (o : NibbleOrder) (k v : Nat) (r : List Nibble) :
    takeSymbols k (toNibbles o k v ++ r) = some (toNibbles o k v, r) :=
  takeSymbols_eq (toNibbles_length o k v) r

/-- The two turnaround symbols, whatever they are, end a stream (R107). -/
@[simp] theorem takeSymbols_turnaround (t1 t2 : Nibble) : takeSymbols 2 [t1, t2] = some ([t1, t2], []) := rfl

/-- A number that fits its field is read back (R105). -/
theorem ofNibbles_toNibbles_of_lt (o : NibbleOrder) {k v : Nat} (h : v < 16 ^ k) : ofNibbles o (toNibbles o k v) = v := by
  rw [ofNibbles_toNibbles, Nat.mod_eq_of_lt h]

/-- A word sent as its w / 4 nibbles is read back (R105). -/
theorem ofNat_ofNibbles_toNibbles (o : NibbleOrder) {k w : Nat} (hw : w = 4 * k) (x : BitVec w) :
    BitVec.ofNat w (ofNibbles o (toNibbles o k x.toNat)) = x := by
  have hfits : x.toNat < 16 ^ k := calc
    x.toNat < 2 ^ w := x.isLt
    _ = 16 ^ k := by rw [hw, Nat.pow_mul]
  rw [ofNibbles_toNibbles_of_lt o hfits, BitVec.ofNat_toNat, BitVec.setWidth_eq]

/-! ## The cycle-type and MSIZE symbols -/

/-- `000x` is an I/O read (R102). -/
theorem cycleType_read {ct : Nibble} (h : ct.extractLsb' 1 3 = 0b000) : cycleType ct = some true := by
  simp [cycleType, h]

/-- `001x` is an I/O write (R102). -/
theorem cycleType_write {ct : Nibble} (h : ct.extractLsb' 1 3 = 0b001) : cycleType ct = some false := by
  simp [cycleType, h]

/-- `01xx` and `1xxx` are no cycle type of the core (R102, R114). -/
theorem cycleType_unsupported : ∀ {ct : Nibble}, 4 ≤ ct.toNat → cycleType ct = none := by decide

/-- An MSIZE symbol of 3 or more names no size (R103, R114). -/
theorem ofMsize_unsupported : ∀ {m : Nibble}, 3 ≤ m.toNat → Size.ofMsize m = none := by decide

/-! ## The four transaction formats, their ignored symbols at any value (R109) -/

/-- LPC-IO-R (R110). -/
theorem decode_ioRead (p : Params) {ct : Nibble} (hct : cycleType ct = some true) (a : IoAddr) (t1 t2 : Nibble) :
    decode p (.lpc ([0b0000, ct] ++ toNibbles p.addrOrder 4 a.toNat ++ [t1, t2])) = .ok (.lpcIoRead a) := by
  have ha := ofNat_ofNibbles_toNibbles p.addrOrder (k := 4) rfl a
  simp [decode, decodeLpc, decodeIo, hct, ha]

/-- LPC-IO-W (R111). -/
theorem decode_ioWrite (p : Params) {ct : Nibble} (hct : cycleType ct = some false) (a : IoAddr) (d : Byte)
    (t1 t2 : Nibble) :
    decode p (.lpc ([0b0000, ct] ++ toNibbles p.addrOrder 4 a.toNat ++ toNibbles p.wdataOrder 2 d.toNat ++ [t1, t2])) =
      .ok (.lpcIoWrite a d) := by
  have ha := ofNat_ofNibbles_toNibbles p.addrOrder (k := 4) rfl a
  have hd := ofNat_ofNibbles_toNibbles p.wdataOrder (k := 2) rfl d
  simp [decode, decodeLpc, decodeIo, hct, ha, hd]

/-- LPC-FW-R (R112). -/
theorem decode_fwRead {p : Params} {idsel : Nibble} (hi : idselAccepted p idsel = true) (z : Size) (a : FwAddr)
    (t1 t2 : Nibble) :
    decode p (.lpc ([0b1101, idsel] ++ toNibbles p.addrOrder 7 a.toNat ++ [z.msize] ++ [t1, t2])) =
      .ok (fwReadInstr z a) := by
  have ha := ofNat_ofNibbles_toNibbles p.addrOrder (k := 7) rfl a
  simp [decode, decodeLpc, decodeFw, hi, ha]

/-- LPC-FW-W (R113). -/
theorem decode_fwWrite {p : Params} {idsel : Nibble} (hi : idselAccepted p idsel = true) (z : Size) (a : FwAddr)
    {v : Nat} (hv : v < 256 ^ z.bytes) (t1 t2 : Nibble) :
    decode p (.lpc ([0b1110, idsel] ++ toNibbles p.addrOrder 7 a.toNat ++ [z.msize] ++
      toNibbles p.wdataOrder (2 * z.bytes) v ++ [t1, t2])) = .ok (fwWriteInstr z a v) := by
  have ha := ofNat_ofNibbles_toNibbles p.addrOrder (k := 7) rfl a
  have hd : ofNibbles p.wdataOrder (toNibbles p.wdataOrder (2 * z.bytes) v) = v :=
    ofNibbles_toNibbles_of_lt _ (by rwa [Nat.pow_mul])
  simp [decode, decodeLpc, decodeFw, hi, ha, hd]

/-- Settles O4: the format's own symbols decide the transaction; no hypothesis of the format lemmas speaks of the others. -/
theorem everyIgnoredSymbolDecodes : Obligations.EveryIgnoredSymbolDecodes := by
  intro p ct idsel t1 t2 hi
  exact ⟨fun a hct => decode_ioRead p (cycleType_read hct) a t1 t2,
    fun a d hct => decode_ioWrite p (cycleType_write hct) a d t1 t2,
    fun z a => decode_fwRead hi z a t1 t2,
    fun z a d hd => decode_fwWrite hi z a hd t1 t2⟩

/-! ## The encoder's own symbols, keys and codes -/

/-- A firmware write as the encoder sends it: the platform's IDSEL, all-ones turnaround (R113, R130). -/
theorem decode_encodeFwWrite (p : Params) (z : Size) (a : FwAddr) {v : Nat} (hv : v < 256 ^ z.bytes) :
    decode p (.lpc (encodeFwWrite p z a v)) = .ok (fwWriteInstr z a v) :=
  decode_fwWrite (idselAccepted_idselSymbol p) z a hv _ _

/-- A firmware read as the encoder sends it (R112, R130). -/
theorem decode_encodeFwRead (p : Params) (z : Size) (a : FwAddr) :
    decode p (.lpc (encodeFwRead p z a)) = .ok (fwReadInstr z a) :=
  decode_fwRead (idselAccepted_idselSymbol p) z a _ _

/-- A host-window key with an unlisted offset is the reserved access of that offset (R121, R278, R279). -/
theorem decodeHost_unlisted {off : BitVec 3} (h : hostOffsetUnlisted off = true) (we : Bool) (w : Byte) :
    decodeHost we off w = if we then .hRsvdWr off w else .hRsvdRd off := by
  have hoff : ∀ o : BitVec 3, hostOffsetUnlisted o = true → o = 2 ∨ o = 3 ∨ o = 6 ∨ o = 7 := by decide
  cases we <;> obtain rfl | rfl | rfl | rfl := hoff off h <;> rfl

/-- The codes of a command record decode to its bridge command (R123). -/
theorem decodeBridge_code (c : Command) :
    decodeBridge c.operation.code c.address c.data c.size.code = .ok c.toBridge := by
  simp [decodeBridge]

/-- Settles O2: the lemma of its format for each transaction, of its offset for a reserved host access and of its record for a
bridge command; the other windows' keys are constants, and the decoder computes. -/
theorem decodeOfEncode : Obligations.DecodeOfEncode := by
  intro p i hwf
  cases i with
  | lpcIoRead a => exact decode_ioRead p (cycleType_read rfl) a _ _
  | lpcIoWrite a d => exact decode_ioWrite p (cycleType_write rfl) a d _ _
  | lpcFwRead1 a => exact decode_encodeFwRead p .one a
  | lpcFwRead2 a => exact decode_encodeFwRead p .two a
  | lpcFwRead4 a => exact decode_encodeFwRead p .four a
  | lpcFwWrite1 a d => simp [encode, decode_encodeFwWrite p .one a d.isLt, fwWriteInstr]
  | lpcFwWrite2 a d => simp [encode, decode_encodeFwWrite p .two a d.isLt, fwWriteInstr]
  | lpcFwWrite4 a d => simp [encode, decode_encodeFwWrite p .four a d.isLt, fwWriteInstr]
  | hRsvdRd off => exact congrArg Except.ok (decodeHost_unlisted hwf false 0)
  | hRsvdWr off w => exact congrArg Except.ok (decodeHost_unlisted hwf true w)
  | brIoRead a d z => exact decodeBridge_code ⟨a, d, .ioRead, z⟩
  | brIoWrite a d z => exact decodeBridge_code ⟨a, d, .ioWrite, z⟩
  | brFwRead a d z => exact decodeBridge_code ⟨a, d, .fwRead, z⟩
  | brFwWrite a d z => exact decodeBridge_code ⟨a, d, .fwWrite, z⟩
  | _ => rfl

/-- Settles O3: the decoder computes on closed words. -/
theorem specWordsDecode : Obligations.SpecWordsDecode :=
  ⟨rfl, rfl, rfl, rfl, rfl, rfl, rfl, rfl⟩

/-! ## Refusals -/

/-- A firmware transaction with an accepted IDSEL and seven address symbols is refused at an unsupported MSIZE (R114 (c)). -/
theorem decodeFw_unsupportedMsize {p : Params} {idsel m : Nibble} {a : List Nibble} (hi : idselAccepted p idsel = true)
    (ha : a.length = 7) (hm : 3 ≤ m.toNat) (isRead : Bool) (l : List Nibble) :
    decodeFw p isRead (idsel :: (a ++ m :: l)) = .error (.unsupportedMsize m) := by
  simp [decodeFw, hi, takeSymbols_eq ha, ofMsize_unsupported hm]

/-- Settles O5: each refusal at the symbol that meets it, before anything that follows is read. -/
theorem illegalSymbolsRefused : Obligations.IllegalSymbolsRefused := by
  intro p l
  refine ⟨?start, ?cycleType, ?msize⟩
  case start =>
    intro n hio hrd hwr
    simp only [decode, decodeLpc, if_neg hio, if_neg hrd, if_neg hwr]
  case cycleType =>
    intro ct hct
    simp [decode, decodeLpc, decodeIo, cycleType_unsupported hct]
  case msize =>
    intro start idsel m a hstart hi ha hm
    have hrefused := decodeFw_unsupportedMsize hi ha hm (l := l)
    obtain rfl | rfl := hstart
    · simp [decode, decodeLpc, hrefused true]
    · simp [decode, decodeLpc, hrefused false]

end Sys2Proof
end

section
/-! PROOF. O22: the symbols the PSM drives while it polls for a response. -/

namespace Sys2Proof.Machine

@[simp] theorem recordLevels_st (s : State) (m : Psm) : (s.recordLevels m).st = m.st := rfl
@[simp] theorem recordLevels_wire (s : State) (m : Psm) : (s.recordLevels m).wire = m.wire := rfl

/-- What a driving PSM drives is on the wire (R23). -/
theorem wire_of_ladEn {m : Psm} (h : m.ladEn = true) : m.wire = some m.ladOut := by simp [Psm.wire, h]

/-- An edge of polling, in the states and on the wire (R106): the PSM stays and shows long wait, or leaves and shows ready or
error. -/
def Psm.PollsTo (m m' : Psm) : Prop :=
  (m'.st = m.st ∧ m'.wire = some 0b0110) ∨ (m'.st ≠ m.st ∧ (m'.wire = some 0b0000 ∨ m'.wire = some 0b1010))

/-- R151 is an edge of polling. -/
theorem psmRdSync_pollsTo {m : Psm} (hst : m.st = .rdSync) (hen : m.ladEn = true) (r : Option Response) :
    m.PollsTo (psmRdSync r m).psm := by
  cases r with
  | none => exact .inl ⟨rfl, wire_of_ladEn hen⟩
  | some r =>
    refine .inr ?_
    cases he : r.error <;> simp [psmRdSync, he, hst, Psm.wire, hen]

/-- R155 is an edge of polling. -/
theorem psmWrSync_pollsTo {m : Psm} (hst : m.st = .wrSync) (hen : m.ladEn = true) (r : Option Response) :
    m.PollsTo (psmWrSync r m).psm := by
  cases r with
  | none => exact .inl ⟨rfl, wire_of_ladEn hen⟩
  | some r =>
    refine .inr ?_
    cases he : r.error <;> simp [psmWrSync, he, hst, Psm.wire, hen]

/-- At an undisturbed edge in RDSYNC the PSM's rule is R151. -/
theorem psmOut_rdSync {s : State} (hn : s.hostNormal) (hst : s.psm.st = .rdSync) :
    psmOut s = psmRdSync (visibleHead (promotedResponses s)) s.psm := by
  obtain ⟨hframe, hreset⟩ := hn
  simp [psmOut, psmRule, hframe, hreset, hst]

/-- At an undisturbed edge in WRSYNC the PSM's rule is R155. -/
theorem psmOut_wrSync {s : State} (hn : s.hostNormal) (hst : s.psm.st = .wrSync) :
    psmOut s = psmWrSync (visibleHead (promotedResponses s)) s.psm := by
  obtain ⟨hframe, hreset⟩ := hn
  simp [psmOut, psmRule, hframe, hreset, hst]

/-- The invariant's drives while polling: long wait (R106). -/
theorem drives_sync {m : Psm} (hd : m.Drives) (hst : m.st = .rdSync ∨ m.st = .wrSync) :
    m.ladEn = true ∧ m.ladOut = 0b0110 := by
  obtain hst | hst := hst <;> simpa only [Psm.Drives, hst] using hd

/-- Settles O22: the invariant gives the driven long wait before the edge, and the edge's rule, which keeps driving, is an edge
of polling. -/
theorem syncSymbols : Obligations.SyncSymbols := by
  intro s t hinv hn hst ht
  rw [hostTick_eq] at ht
  obtain ⟨hen, hwait⟩ := drives_sync hinv.drives hst
  refine ⟨by rw [wire_of_ladEn hen, hwait], ?_⟩
  have hpolls : s.psm.PollsTo (psmOut s).psm := by
    obtain hst | hst := hst
    · rw [psmOut_rdSync hn hst]
      exact psmRdSync_pollsTo hst hen _
    · rw [psmOut_wrSync hn hst]
      exact psmWrSync_pollsTo hst hen _
  rw [hostEdge_psm ht]
  exact hpolls

end Sys2Proof.Machine
end

section
/-! PROOF. For O6 to O10, O14 to O21, O23 and O24: what a host edge does for every PSM rule. The rule of each state at an
undisturbed edge, and the outcome of an edge that aborts, that touches the PSM registers only, or that has no queue reset
due. -/

namespace Sys2Proof.Machine

/-! ## The PSM's rule, by lines and state (R156) -/

section
variable {p : Params} {h : HostIn} {r : Option Response} {m : Psm}

/-- A reset edge is the abort entry, in every state (R140). -/
theorem psmRule_resetting (hr : resetting p h = true) : psmRule p h r m = .only (abortEntry m) := by
  simp [psmRule, hr]

/-- A framing edge is the start decode, in every state (R141). -/
theorem psmRule_framing (hf : framing p h = true) (hr : resetting p h = false) :
    psmRule p h r m = .only (psmStartDecode h.lad m) := by
  simp [psmRule, hf, hr]

/-- R143. -/
theorem psmRule_start (hn : HostIn.normal p h) (hst : m.st = .start) : psmRule p h r m = .only (psmStart m) := by
  simp [psmRule, hn.1, hn.2, hst]

/-- R144. -/
theorem psmRule_cycleType (hn : HostIn.normal p h) (hst : m.st = .cycleType) :
    psmRule p h r m = .only (psmCycleType h.lad m) := by
  simp [psmRule, hn.1, hn.2, hst]

/-- R145. -/
theorem psmRule_ioAddr (hn : HostIn.normal p h) (hst : m.st = .ioAddr) : psmRule p h r m = .only (psmIoAddr p h.lad m) := by
  simp [psmRule, hn.1, hn.2, hst]

/-- R146. -/
theorem psmRule_fwIdsel (hn : HostIn.normal p h) (hst : m.st = .fwIdsel) :
    psmRule p h r m = .only (psmFwIdsel p h.lad m) := by
  simp [psmRule, hn.1, hn.2, hst]

/-- R147. -/
theorem psmRule_fwAddr (hn : HostIn.normal p h) (hst : m.st = .fwAddr) : psmRule p h r m = .only (psmFwAddr p h.lad m) := by
  simp [psmRule, hn.1, hn.2, hst]

/-- R148. -/
theorem psmRule_fwMsize (hn : HostIn.normal p h) (hst : m.st = .fwMsize) :
    psmRule p h r m = .only (psmFwMsize h.lad m) := by
  simp [psmRule, hn.1, hn.2, hst]

/-- R149. -/
theorem psmRule_wrData (hn : HostIn.normal p h) (hst : m.st = .wrData) : psmRule p h r m = .only (psmWrData p h.lad m) := by
  simp [psmRule, hn.1, hn.2, hst]

/-- R150. -/
theorem psmRule_rdTar1 (hn : HostIn.normal p h) (hst : m.st = .rdTar1) : psmRule p h r m = psmTar1 .rdSync m := by
  simp [psmRule, hn.1, hn.2, hst]

/-- R154. -/
theorem psmRule_wrTar1 (hn : HostIn.normal p h) (hst : m.st = .wrTar1) : psmRule p h r m = psmTar1 .wrSync m := by
  simp [psmRule, hn.1, hn.2, hst]

/-- R152. -/
theorem psmRule_rdData (hn : HostIn.normal p h) (hst : m.st = .rdData) : psmRule p h r m = .only (psmRdData p m) := by
  simp [psmRule, hn.1, hn.2, hst]

/-- R153. -/
theorem psmRule_tar2 (hn : HostIn.normal p h) (hst : m.st = .tar2) : psmRule p h r m = .only (psmTar2 m) := by
  simp [psmRule, hn.1, hn.2, hst]

end

/-! ## What the decoding rules accept -/

/-- R146: any symbol where the platform has no IDSEL of its own, else its own. -/
theorem idselAccepted_iff {p : Params} {i : Nibble} :
    idselAccepted p i = true ↔ p.fwIdsel = none ∨ p.fwIdsel = some i := by
  unfold idselAccepted
  cases p.fwIdsel with
  | none => simp
  | some v => simpa using eq_comm

/-- R141: the start decode ends in START or in the first state of a transaction. -/
theorem psmStartDecode_st (n : Nibble) (m : Psm) :
    (psmStartDecode n m).st = .start ∨ (psmStartDecode n m).st = .cycleType ∨ (psmStartDecode n m).st = .fwIdsel := by
  unfold psmStartDecode
  split_ifs <;> simp

/-- R141: the start decode clears the counter. -/
@[simp] theorem psmStartDecode_cnt (n : Nibble) (m : Psm) : (psmStartDecode n m).cnt = 0 := by
  unfold psmStartDecode
  split_ifs <;> rfl

/-- R141: the start decode releases the bus. -/
@[simp] theorem psmStartDecode_ladEn (n : Nibble) (m : Psm) : (psmStartDecode n m).ladEn = false := by
  unfold psmStartDecode
  split_ifs <;> rfl

/-- R168: an illegal start symbol gives START. -/
theorem psmStartDecode_illegal {n : Nibble} (hio : n ≠ 0b0000) (hrd : n ≠ 0b1101) (hwr : n ≠ 0b1110) (m : Psm) :
    psmStartDecode n m = { m with ladEn := false, cnt := 0, addr := 0, data := 0, st := .start } := by
  simp only [psmStartDecode, if_neg hio, if_neg hrd, if_neg hwr]

/-- Nothing is on the wire while the bus is released (R23). -/
theorem wire_of_not_ladEn {m : Psm} (h : m.ladEn = false) : m.wire = none := by simp [Psm.wire, h]

/-! ## The edge around the rule -/

@[simp] theorem psmOutOnly_psm (m : Psm) : (PsmOut.only m).psm = m := rfl
@[simp] theorem recordLevels_cnt (s : State) (m : Psm) : (s.recordLevels m).cnt = m.cnt := rfl

@[simp] theorem afterPsm_psm (s : State) (q : List (QEntry Command)) :
    (afterPsm s q).psm = s.recordLevels (psmOut s).psm := rfl

/-- An edge whose rule touches the PSM registers only completes, and hands nothing over. -/
theorem hostTick_of_only {s : State} {m : Psm} (ho : psmOut s = .only m) :
    ∃ t, hostTick s = .next t ∧ t.psm = s.recordLevels m ∧ (t.cmdq = s.cmdq ∨ t.cmdq = []) := by
  have hedge : hostTick s = .next (if queueResetDue s.cfg s.hostIn s.psm then
      queueReset s.hostIn.race (afterPsm s s.cmdq) else afterPsm s s.cmdq) := by
    rw [hostTick_eq, hostEdge_eq, ho]; rfl
  refine ⟨_, hedge, ?_, ?_⟩
  · rw [hostEdge_psm (hostTick_eq s ▸ hedge), ho]; rfl
  · split
    · exact .inr rfl
    · exact .inl rfl

/-- An edge without a queue reset, whose rule's command finds room, ends in the state its rule leaves. -/
theorem hostEdge_of_noQueueReset {s : State} {q : List (QEntry Command)} (hq : s.noQueueReset)
    (he : enqueueCommand (psmOut s).enq s.cmdq = some q) : hostEdge s = .next (afterPsm s q) := by
  replace hq : queueResetDue s.cfg s.hostIn s.psm = false := hq
  simp [hostEdge_eq, he, hq]

/-- A command handed over to a queue with room is appended, invisible and of age 0 (R201). -/
theorem enqueueCommand_room {q : List (QEntry Command)} (hq : q.length < 2) (c : Command) :
    enqueueCommand (some c) q = some (q ++ [{ payload := c, vis := false, age := 0 }]) := by
  simp [enqueueCommand, pushEntry, hq]

/-- A host edge that samples an active line always completes, with the queue reset of R142. -/
theorem hostTick_abort {s : State} (hact : framing s.cfg s.hostIn = true ∨ resetting s.cfg s.hostIn = true) :
    hostTick s = .next (queueReset s.hostIn.race (afterPsm s s.cmdq)) := by
  have hdue : queueResetDue s.cfg s.hostIn s.psm = true := by
    obtain h | h := hact <;> simp [queueResetDue, h]
  have henq : (psmOut s).enq = none := by
    unfold psmOut
    cases hr : resetting s.cfg s.hostIn with
    | true => rw [psmRule_resetting hr]; rfl
    | false => rw [psmRule_framing (hact.resolve_right (by simp [hr])) hr]; rfl
  simp [hostTick_eq, hostEdge_eq, henq, enqueueCommand, hdue]

/-- A busy dispatcher's transaction is marked to be discarded, and runs on (R210). -/
theorem queueReset_of_busy {s : State} (h : s.disp.busy = true) (race : Bool) :
    queueReset race s = { s with disp := { s.disp with discard := true }, cmdq := [], rspq := [] } := by
  simp [queueReset, h]

end Sys2Proof.Machine
end

section
/-! PROOF. O7, O8, O9 and O10: the edges that abort, by the reset line, by the frame line and by an illegal symbol. -/

namespace Sys2Proof.Machine

/-- Settles O8: the reset edge's rule is the abort entry, and its queue reset fires. -/
theorem resetEdge : Obligations.ResetEdge := by
  intro s hr
  have ho : psmOut s = .only (abortEntry s.psm) := psmRule_resetting hr
  refine ⟨_, hostTick_abort (.inr hr), ?_, rfl, rfl, queueReset_discard _ _⟩
  simp [ho, State.recordLevels, abortEntry]

/-- Settles O9: in every state the framing edge's rule is the start decode, whose branch the symbol picks. -/
theorem startDecodeEdge : Obligations.StartDecodeEdge := by
  intro s hf hr
  obtain ⟨t, ht, hpsm, -⟩ := hostTick_of_only (s := s) (psmRule_framing hf hr)
  refine ⟨t, ht, ?io, ?fwRead, ?fwWrite, ?illegal⟩
  case io => intro hlad; rw [hpsm, hlad]; rfl
  case fwRead => intro hlad; rw [hpsm, hlad]; rfl
  case fwWrite => intro hlad; rw [hpsm, hlad]; rfl
  case illegal => intro hio hrd hwr; rw [hpsm, psmStartDecode_illegal hio hrd hwr]

/-- The PSM after an edge that samples an active line: counter cleared, bus released, in START or a transaction's first
state (R140, R141). -/
theorem psmOut_abort {s : State} (hact : framing s.cfg s.hostIn = true ∨ resetting s.cfg s.hostIn = true) :
    ((psmOut s).psm.st = .start ∨ (psmOut s).psm.st = .cycleType ∨ (psmOut s).psm.st = .fwIdsel) ∧
      (resetting s.cfg s.hostIn = true → (psmOut s).psm.st = .start) ∧
      (psmOut s).psm.cnt = 0 ∧ (psmOut s).psm.ladEn = false := by
  unfold psmOut
  cases hr : resetting s.cfg s.hostIn with
  | true => simp [psmRule_resetting hr]
  | false =>
    have hf : framing s.cfg s.hostIn = true := hact.resolve_right (by simp [hr])
    simp [psmRule_framing hf hr, psmStartDecode_st]

/-- Settles O10: the edge is its PSM rule and the queue reset; neither writes the BT, the fabric or the slaves, and the buses
are driven by the queue reset of an idle dispatcher only. -/
theorem abortInAnyState : Obligations.AbortInAnyState := by
  intro s hact
  have ht := hostTick_abort hact
  obtain ⟨hst, hreset, hcnt, hen⟩ := psmOut_abort hact
  obtain ⟨-, hack, hbt, hfw, hio, -⟩ := hostEdge_keeps (hostTick_eq s ▸ ht)
  refine ⟨_, ht, by simpa using hst, by simpa using hreset, by simpa using hcnt,
    by simpa using wire_of_not_ladEn hen, rfl, rfl, queueReset_discard _ _, ?_, hbt, hack, hfw, hio⟩
  intro hbusy
  rw [queueReset_of_busy (s := afterPsm s s.cmdq) hbusy]
  exact ⟨rfl, rfl, rfl⟩

/-- Settles O7: an illegal start is the START branch of the start decode at an abort edge; the unsupported cycle types and
MSIZEs are those the decoder's functions refuse, and their rules write the state alone. -/
theorem illegalSymbolsAbort : Obligations.IllegalSymbolsAbort := by
  intro s
  refine ⟨?start, ?cycleType, ?msize⟩
  case start =>
    intro hf hr hio hrd hwr
    have ho : psmOut s = .only _ := psmRule_framing hf hr
    rw [psmStartDecode_illegal hio hrd hwr] at ho
    exact ⟨_, hostTick_abort (.inl hf), by simp [ho], by simp [ho, wire_of_not_ladEn], rfl, rfl,
      queueReset_discard _ _⟩
  case cycleType =>
    intro hn hst hlad
    have hrule : psmCycleType s.hostIn.lad s.psm = { s.psm with st := .start } := by
      rw [psmCycleType, cycleType_unsupported hlad]
    exact hrule ▸ hostTick_of_only (psmRule_cycleType hn hst)
  case msize =>
    intro hn hst hlad
    have hrule : psmFwMsize s.hostIn.lad s.psm = { s.psm with st := .start } := by
      rw [psmFwMsize, ofMsize_unsupported hlad]
    exact hrule ▸ hostTick_of_only (psmRule_fwMsize hn hst)

end Sys2Proof.Machine
end

section
/-! PROOF. O14, O15, O16, O17, O18, O19 and O20: what each PSM state does at an undisturbed host edge. -/

namespace Sys2Proof.Machine

/-! ## The states that count through a field -/

/-- A rule handles place `cnt` of a field of k symbols: the last place ends the state, any other is counted. -/
def Psm.CountsTo (m m' : Psm) (k : Nat) (exit : PsmState) : Prop :=
  (m.cnt.toNat + 1 = k → m'.cnt = 0 ∧ m'.st = exit) ∧
  (m.cnt.toNat + 1 ≠ k → m'.cnt = m.cnt + 1 ∧ m'.st = m.st)

/-- R145: four nibbles, then the turnaround or the data by the operation. -/
theorem psmIoAddr_countsTo (p : Params) (n : Nibble) (m : Psm) :
    m.CountsTo (psmIoAddr p n m) 4 (if m.op = .ioRead then .rdTar1 else .wrData) := by
  have hlast : m.cnt.toNat + 1 = 4 ↔ m.cnt = 3 := by bv_omega
  simp +contextual [Psm.CountsTo, hlast, psmIoAddr]

/-- R147: seven nibbles, then the MSIZE. -/
theorem psmFwAddr_countsTo (p : Params) (n : Nibble) (m : Psm) : m.CountsTo (psmFwAddr p n m) 7 .fwMsize := by
  have hlast : m.cnt.toNat + 1 = 7 ↔ m.cnt = 6 := by bv_omega
  simp +contextual [Psm.CountsTo, hlast, psmFwAddr]

/-- R149: two nibbles for each byte, then the turnaround. -/
theorem psmWrData_countsTo (p : Params) (n : Nibble) (m : Psm) :
    m.CountsTo (psmWrData p n m) (2 * m.size.bytes) .wrTar1 := by
  simp +contextual [Psm.CountsTo, psmWrData]

/-- R152: two nibbles for each byte, then the release. -/
theorem psmRdData_countsTo (p : Params) (m : Psm) : m.CountsTo (psmRdData p m) (2 * m.size.bytes) .tar2 := by
  simp +contextual [Psm.CountsTo, psmRdData]

@[simp] theorem psmIoAddr_addr (p : Params) (n : Nibble) (m : Psm) :
    (psmIoAddr p n m).addr = shiftInIoAddr p.addrOrder m.addr n := by
  unfold psmIoAddr; split_ifs <;> rfl

@[simp] theorem psmFwAddr_addr (p : Params) (n : Nibble) (m : Psm) :
    (psmFwAddr p n m).addr = shiftInFwAddr p.addrOrder m.addr n := by
  unfold psmFwAddr; split_ifs <;> rfl

@[simp] theorem psmWrData_data (p : Params) (n : Nibble) (m : Psm) :
    (psmWrData p n m).data = shiftInData p.wdataOrder m.data m.cnt n := by
  unfold psmWrData; split_ifs <;> rfl

@[simp] theorem psmRdData_ladOut (p : Params) (m : Psm) :
    (psmRdData p m).ladOut = readNibble p.rdataOrder m.size m.data m.cnt := by
  unfold psmRdData; split_ifs <;> rfl

/-- R145 writes the address, the counter and the state. -/
theorem psmIoAddr_frame (p : Params) (n : Nibble) (m : Psm) :
    { psmIoAddr p n m with addr := m.addr, cnt := m.cnt, st := m.st } = m := by
  unfold psmIoAddr; split_ifs <;> rfl

/-- R147 writes the address, the counter and the state. -/
theorem psmFwAddr_frame (p : Params) (n : Nibble) (m : Psm) :
    { psmFwAddr p n m with addr := m.addr, cnt := m.cnt, st := m.st } = m := by
  unfold psmFwAddr; split_ifs <;> rfl

/-- R149 writes the data, the counter and the state. -/
theorem psmWrData_frame (p : Params) (n : Nibble) (m : Psm) :
    { psmWrData p n m with data := m.data, cnt := m.cnt, st := m.st } = m := by
  unfold psmWrData; split_ifs <;> rfl

/-- R152 writes the driven symbol, the counter and the state. -/
theorem psmRdData_frame (p : Params) (m : Psm) :
    { psmRdData p m with ladOut := m.ladOut, cnt := m.cnt, st := m.st } = m := by
  unfold psmRdData; split_ifs <;> rfl

/-! ## The places of a data word -/

/-- One nibble of ones, bit by bit. -/
theorem nibbleMask_getLsbD (i : Nat) : (0xF : Word).getLsbD i = decide (i < 4) := by
  by_cases hi : i < 32
  · have hbits : ∀ j : Fin 32, (0xF : Word).getLsbD j = decide (j.val < 4) := by decide
    exact hbits ⟨i, hi⟩
  · rw [BitVec.getLsbD_of_ge _ _ (Nat.le_of_not_lt hi), decide_eq_false (by omega)]

/-- R149, LSN_FIRST, bit by bit: place cnt takes the nibble. -/
theorem shiftInData_lsn_getLsbD (data : Word) (cnt : BitVec 3) (n : Nibble) {i : Nat} (hi : i < 32) :
    (shiftInData .lsnFirst data cnt n).getLsbD i =
      if 4 * cnt.toNat ≤ i ∧ i < 4 * cnt.toNat + 4 then n.getLsbD (i - 4 * cnt.toNat) else data.getLsbD i := by
  simp only [shiftInData, BitVec.getLsbD_or, BitVec.getLsbD_and, BitVec.getLsbD_not, BitVec.getLsbD_shiftLeft,
    BitVec.getLsbD_setWidth, nibbleMask_getLsbD, hi]
  split_ifs with hplace
  · have hin : i - 4 * cnt.toNat < 4 := by omega
    have hge : ¬ i < 4 * cnt.toNat := by omega
    simp [hin, hge, show i - 4 * cnt.toNat < 32 by omega]
  · by_cases hlow : i < 4 * cnt.toNat
    · simp [hlow]
    · have hout : 4 ≤ i - 4 * cnt.toNat := by omega
      simp [hlow, hout, Nat.not_lt.mpr hout]

/-- R149, LSN_FIRST: the nibble goes to place cnt. -/
theorem shiftInData_lsn_place (data : Word) (cnt : BitVec 3) (n : Nibble) :
    (shiftInData .lsnFirst data cnt n).extractLsb' (4 * cnt.toNat) 4 = n := by
  apply BitVec.eq_of_getLsbD_eq
  intro i hi
  have hbit : 4 * cnt.toNat + i < 32 := by have := cnt.isLt; omega
  rw [BitVec.getLsbD_extractLsb', shiftInData_lsn_getLsbD _ _ _ hbit, if_pos (by omega), decide_eq_true hi,
    Bool.true_and, Nat.add_sub_cancel_left]

/-- R149, LSN_FIRST: every other place keeps its nibble. -/
theorem shiftInData_lsn_other (data : Word) (cnt : BitVec 3) (n : Nibble) {k : Nat} (hk : k < 8) (hne : k ≠ cnt.toNat) :
    (shiftInData .lsnFirst data cnt n).extractLsb' (4 * k) 4 = data.extractLsb' (4 * k) 4 := by
  apply BitVec.eq_of_getLsbD_eq
  intro i hi
  rw [BitVec.getLsbD_extractLsb', BitVec.getLsbD_extractLsb', shiftInData_lsn_getLsbD _ _ _ (by omega),
    if_neg (by omega)]

/-- R10, R151: narrowing to a size keeps its low bytes. -/
theorem and_sizeMask_toNat (d : Word) (z : Size) : (d &&& sizeMask z).toNat = d.toNat % 256 ^ z.bytes := by
  have hmask : (sizeMask z).toNat = 2 ^ (8 * z.bytes) - 1 := by cases z <;> rfl
  rw [BitVec.toNat_and, hmask, Nat.and_two_pow_sub_one_eq_mod, Nat.pow_mul]

/-- R152, LSN_FIRST: place cnt from the bottom. -/
theorem readNibble_lsn (z : Size) (data : Word) (cnt : BitVec 3) :
    (readNibble .lsnFirst z data cnt).toNat = data.toNat / 16 ^ cnt.toNat % 16 := by
  simp [readNibble, Nat.shiftRight_eq_div_pow, Nat.pow_mul]

/-- R152, MSN_FIRST: place cnt from the top of the size. -/
theorem readNibble_msn {z : Size} (data : Word) {cnt : BitVec 3} (hcnt : cnt.toNat < 2 * z.bytes) :
    (readNibble .msnFirst z data cnt).toNat = data.toNat / 16 ^ (2 * z.bytes - 1 - cnt.toNat) % 16 := by
  have hplace : 8 * z.bytes - 4 * cnt.toNat - 4 = 4 * (2 * z.bytes - 1 - cnt.toNat) := by omega
  simp [readNibble, hplace, Nat.shiftRight_eq_div_pow, Nat.pow_mul]

/-! ## The obligations -/

/-- Settles O14: the rule of each state, its branch picked by the symbol. -/
theorem psmDecodingStates : Obligations.PsmDecodingStates := by
  intro s hn
  refine ⟨fun hst => ?start, fun hst => ?cycleType, fun hst => ?fwIdsel, fun hst => ?fwMsize⟩
  case start =>
    obtain ⟨t, ht, hpsm, -⟩ := hostTick_of_only (s := s) (psmRule_start hn hst)
    exact ⟨t, ht, hpsm⟩
  case cycleType =>
    obtain ⟨t, ht, hpsm, -⟩ := hostTick_of_only (s := s) (psmRule_cycleType hn hst)
    refine ⟨t, ht, fun hrd => ?_, fun hwr => ?_, fun hrd hwr => ?_⟩
    · rw [hpsm, psmCycleType, cycleType_read hrd]
    · rw [hpsm, psmCycleType, cycleType_write hwr]
    · have hnone : cycleType s.hostIn.lad = none := by rw [cycleType, if_neg hrd, if_neg hwr]
      rw [hpsm, psmCycleType, hnone]
  case fwIdsel =>
    obtain ⟨t, ht, hpsm, -⟩ := hostTick_of_only (s := s) (psmRule_fwIdsel hn hst)
    refine ⟨t, ht, fun hown => ?_, fun v hv hne => ?_⟩
    · rw [hpsm, psmFwIdsel, if_pos (idselAccepted_iff.mpr hown)]
    · have hother : ¬ idselAccepted s.cfg s.hostIn.lad = true := by simp [idselAccepted, hv, hne]
      rw [hpsm, psmFwIdsel, if_neg hother]
  case fwMsize =>
    obtain ⟨t, ht, hpsm, -⟩ := hostTick_of_only (s := s) (psmRule_fwMsize hn hst)
    refine ⟨t, ht, fun z hz => ?_, fun hlad => ?_⟩
    · have hsize : s.hostIn.lad = z.msize := by obtain ⟨h, rfl⟩ | ⟨h, rfl⟩ | ⟨h, rfl⟩ := hz <;> exact h
      rw [hpsm, psmFwMsize, hsize, ofMsize_msize]
    · rw [hpsm, psmFwMsize, ofMsize_unsupported hlad]

/-- Settles O15: the rules of the address states shift the nibble in and count to their fourth and seventh. -/
theorem psmAddressStates : Obligations.PsmAddressStates := by
  intro s hn
  refine ⟨fun hst => ?ioAddr, fun hst => ?fwAddr⟩
  case ioAddr =>
    obtain ⟨t, ht, hpsm, -⟩ := hostTick_of_only (s := s) (psmRule_ioAddr hn hst)
    obtain ⟨hlast, hmore⟩ := psmIoAddr_countsTo s.cfg s.hostIn.lad s.psm
    refine ⟨t, ht, fun ho => ?_, fun ho => ?_, fun hc => ?_, fun hc => ?_, ?_⟩
    · rw [hpsm]; exact (psmIoAddr_addr ..).trans (by rw [ho]; exact BitVec.append_assoc)
    · rw [hpsm]; exact (psmIoAddr_addr ..).trans (by rw [ho]; exact BitVec.append_assoc)
    · rw [hpsm]; exact hlast (by bv_omega)
    · rw [hpsm, ← hst]; exact hmore (by bv_omega)
    · rw [hpsm]; exact congrArg s.recordLevels (psmIoAddr_frame ..)
  case fwAddr =>
    obtain ⟨t, ht, hpsm, -⟩ := hostTick_of_only (s := s) (psmRule_fwAddr hn hst)
    obtain ⟨hlast, hmore⟩ := psmFwAddr_countsTo s.cfg s.hostIn.lad s.psm
    refine ⟨t, ht, fun ho => ?_, fun ho => ?_, fun hc => ?_, fun hc => ?_, ?_⟩
    · rw [hpsm]; exact (psmFwAddr_addr ..).trans (by rw [ho]; rfl)
    · rw [hpsm]; exact (psmFwAddr_addr ..).trans (by rw [ho]; rfl)
    · rw [hpsm]; exact hlast (by bv_omega)
    · rw [hpsm, ← hst]; exact hmore (by bv_omega)
    · rw [hpsm]; exact congrArg s.recordLevels (psmFwAddr_frame ..)

/-- Settles O16: the rule puts the nibble into its place and counts to the last nibble of the size. -/
theorem psmWriteDataState : Obligations.PsmWriteDataState := by
  intro s hn hst
  obtain ⟨t, ht, hpsm, -⟩ := hostTick_of_only (s := s) (psmRule_wrData hn hst)
  have hdata : t.psm.data = shiftInData s.cfg.wdataOrder s.psm.data s.psm.cnt s.hostIn.lad := by
    rw [hpsm]; exact psmWrData_data ..
  have hsize : 0 < s.psm.size.bytes := by cases s.psm.size <;> decide
  obtain ⟨hlast, hmore⟩ := psmWrData_countsTo s.cfg s.hostIn.lad s.psm
  refine ⟨t, ht, fun ho => ?_, fun ho => ?_, fun hc => ?_, fun hc => ?_, ?_⟩
  · rw [hdata, ho]; rfl
  · rw [hdata, ho]
    exact ⟨shiftInData_lsn_place .., fun k hk hne => shiftInData_lsn_other _ _ _ hk hne⟩
  · rw [hpsm]; exact hlast (by omega)
  · rw [hpsm, ← hst]; exact hmore (by omega)
  · rw [hpsm]; exact congrArg s.recordLevels (psmWrData_frame ..)

/-- R150 and R154 without a queue reset: the first edge hands the command of the registers over, the second sets up the
wait. -/
theorem hostTick_tar1 {s : State} {sync : PsmState} (ho : psmOut s = psmTar1 sync s.psm) (hq : s.noQueueReset)
    (hroom : s.cmdq.length < 2) :
    (s.psm.cnt = 0 →
      hostTick s = .next (afterPsm s (s.cmdq ++ [{ payload := s.psm.command, vis := false, age := 0 }]))) ∧
    (s.psm.cnt ≠ 0 → hostTick s = .next (afterPsm s s.cmdq)) := by
  simp only [hostTick_eq]
  constructor
  · intro hc
    exact hostEdge_of_noQueueReset hq (by rw [ho, psmTar1, if_pos hc]; exact enqueueCommand_room hroom _)
  · intro hc
    exact hostEdge_of_noQueueReset hq (by rw [ho, psmTar1, if_neg hc]; rfl)

/-- Settles O17: the two turnaround states have one rule, which their SYNC state tells apart. -/
theorem psmTurnaroundBeforeSync : Obligations.PsmTurnaroundBeforeSync := by
  intro s tar sync hts hn hq hst hroom
  have ho : psmOut s = psmTar1 sync s.psm := by
    obtain ⟨rfl, rfl⟩ | ⟨rfl, rfl⟩ := hts
    · exact psmRule_rdTar1 hn hst
    · exact psmRule_wrTar1 hn hst
  obtain ⟨hfirst, hsecond⟩ := hostTick_tar1 ho hq hroom
  refine ⟨fun hc => ⟨_, hfirst hc, ?_, rfl⟩, fun hc => ⟨_, hsecond hc, ?_, rfl⟩⟩
  · rw [afterPsm_psm, ho, psmTar1, if_pos hc]
  · rw [afterPsm_psm, ho, psmTar1, if_neg hc]; rfl

/-- An edge of polling, without a queue reset, ends in the state its rule leaves. -/
theorem hostTick_sync {s : State} {o : PsmOut} (ho : psmOut s = o) (henq : o.enq = none) (hq : s.noQueueReset) :
    ∃ t, hostTick s = .next t ∧ t.psm = s.recordLevels o.psm ∧
      t.rspq = if o.deq then (promotedResponses s).tail else promotedResponses s := by
  have hedge : hostEdge s = .next (afterPsm s s.cmdq) := hostEdge_of_noQueueReset hq (by rw [ho, henq]; rfl)
  exact ⟨_, (hostTick_eq s).trans hedge, by rw [afterPsm_psm, ho], by rw [← ho]; rfl⟩

/-- Settles O18: the three outcomes of the polling rule, on the response queue as promoted at this edge. -/
theorem psmReadSync : Obligations.PsmReadSync := by
  rintro s hn hq hst q rfl
  have ho := psmOut_rdSync hn hst
  refine ⟨fun hv => ?wait, fun r hv he => ?error, fun r hv he => ?ready⟩
  case wait =>
    rw [promotedResponses, hv] at ho
    exact hostTick_sync ho rfl hq
  case error =>
    rw [promotedResponses, hv, psmRdSync, if_pos he] at ho
    exact hostTick_sync ho rfl hq
  case ready =>
    rw [promotedResponses, hv, psmRdSync, if_neg (by simp [he])] at ho
    obtain ⟨t, ht, hpsm, hrspq⟩ := hostTick_sync ho rfl hq
    exact ⟨t, ht, ⟨_, and_sizeMask_toNat .., hpsm⟩, hrspq⟩

/-- Settles O19: the two outcomes of the polling rule, on the response queue as promoted at this edge. -/
theorem psmWriteSync : Obligations.PsmWriteSync := by
  rintro s hn hq hst q rfl
  have ho := psmOut_wrSync hn hst
  refine ⟨fun hv => ?wait, fun r hv => ?answer⟩
  case wait =>
    rw [promotedResponses, hv] at ho
    exact hostTick_sync ho rfl hq
  case answer =>
    rw [promotedResponses, hv] at ho
    exact hostTick_sync ho rfl hq

/-- Settles O20: the rule of RDDATA drives its place of the data and counts to the last of the size; TAR2 has two edges. -/
theorem psmReadDataAndRelease : Obligations.PsmReadDataAndRelease := by
  intro s hn
  refine ⟨fun hst hcnt => ?rdData, fun hst => ?tar2⟩
  case rdData =>
    obtain ⟨t, ht, hpsm, -⟩ := hostTick_of_only (s := s) (psmRule_rdData hn hst)
    have hout : t.psm.ladOut = readNibble s.cfg.rdataOrder s.psm.size s.psm.data s.psm.cnt := by
      rw [hpsm]; exact psmRdData_ladOut ..
    obtain ⟨hlast, hmore⟩ := psmRdData_countsTo s.cfg s.psm
    refine ⟨t, ht, fun ho => ?_, fun ho => ?_, fun hc => ?_, fun hc => ?_, ?_⟩
    · rw [hout, ho, readNibble_lsn]
    · rw [hout, ho, readNibble_msn _ hcnt]
    · rw [hpsm]; exact hlast (by omega)
    · rw [hpsm, ← hst]; exact hmore (by omega)
    · rw [hpsm]; exact congrArg s.recordLevels (psmRdData_frame ..)
  case tar2 =>
    obtain ⟨t, ht, hpsm, -⟩ := hostTick_of_only (s := s) (psmRule_tar2 hn hst)
    refine ⟨t, ht, fun hc => ?_, fun hc => ?_⟩
    · rw [hpsm, psmTar2, if_pos hc]
    · rw [hpsm, psmTar2, if_neg hc]

end Sys2Proof.Machine
end

section
/-! PROOF. O23, O24 and O26: the hand-over of a received transaction, and what a coherent PSM hands over. -/

namespace Sys2Proof.Machine

/-- R150 and R154 are one rule, which both turnaround states take. -/
theorem psmRule_tar1State {p : Params} {h : HostIn} {r : Option Response} {m : Psm} {o : Op} (hn : HostIn.normal p h)
    (hst : m.st = tar1State o) : ∃ sync, psmRule p h r m = psmTar1 sync m := by
  cases o
  case ioRead | fwRead => exact ⟨_, psmRule_rdTar1 hn hst⟩
  case ioWrite | fwWrite => exact ⟨_, psmRule_wrTar1 hn hst⟩

/-- The hand-over of a command, without a queue reset and with room in the command queue: the whole state after it (R150,
R154). -/
theorem handOff_of_noQueueReset {s : State} (hn : s.hostNormal) (hq : s.noQueueReset) (hroom : s.cmdq.length < 2)
    (c : Command) :
    handOff c s = .next { s with
      psm := s.recordLevels { s.psm.received c with cnt := 1 }
      cmdq := s.cmdq ++ [{ payload := c, vis := false, age := 0 }]
      rspq := promotedResponses s } := by
  obtain ⟨sync, ho⟩ : ∃ sync, psmOut { s with psm := s.psm.received c } = psmTar1 sync (s.psm.received c) :=
    psmRule_tar1State hn (received_st c s.psm)
  have hedge := (hostTick_tar1 ho hq hroom).1 (received_cnt c s.psm)
  rw [handOff, ← hostTick_eq, hedge, afterPsm, ho]
  rfl

/-- Settles O23: exec of a read is the hand-over of its command record. -/
theorem lpcReadsHandOver : Obligations.LpcReadsHandOver := by
  intro s hn hq hroom
  have hover := handOff_of_noQueueReset hn hq hroom
  refine ⟨fun a => hover ⟨a.setWidth 28, 0, .ioRead, .one⟩, ?_⟩
  rintro a i z (⟨rfl, rfl⟩ | ⟨rfl, rfl⟩ | ⟨rfl, rfl⟩)
  · exact hover ⟨a, 0, .fwRead, .one⟩
  · exact hover ⟨a, 0, .fwRead, .two⟩
  · exact hover ⟨a, 0, .fwRead, .four⟩

/-- Settles O24: exec of a write is the hand-over of its command record. -/
theorem lpcWritesHandOver : Obligations.LpcWritesHandOver := by
  intro s hn hq hroom
  have hover := handOff_of_noQueueReset hn hq hroom
  refine ⟨fun a d => hover ⟨a.setWidth 28, d.setWidth 32, .ioWrite, .one⟩, ?_⟩
  rintro a d i z (⟨b, rfl, rfl, rfl⟩ | ⟨b, rfl, rfl, rfl⟩ | ⟨rfl, rfl⟩)
  · exact hover ⟨a, b.setWidth 32, .fwWrite, .one⟩
  · exact hover ⟨a, b.setWidth 32, .fwWrite, .two⟩
  · exact hover ⟨a, d, .fwWrite, .four⟩

/-! ## The transaction in the registers -/

/-- In its operation's first turnaround cycle the PSM holds the transaction of its command record. -/
theorem instr_of_tar1State {m : Psm} (hst : m.st = tar1State m.op) (hcnt : m.cnt = 0) :
    m.instr = m.command.toLpc := by
  rw [Psm.instr, if_pos hcnt, hst]
  cases m.op <;> rfl

/-- The bits above a number's width are 0. -/
theorem extractLsb'_eq_zero_of_lt {n k l : Nat} {x : BitVec n} (h : x.toNat < 2 ^ k) : x.extractLsb' k l = 0 := by
  apply BitVec.eq_of_toNat_eq
  simp [BitVec.extractLsb'_toNat, Nat.shiftRight_eq_div_pow, Nat.div_eq_of_lt h]

/-- A read's command record in the shape of its operation is a transaction's (R160, R162 to R164). -/
theorem toLpc_of_read {c : Command} (hread : isRead c.operation = true)
    (hio : isIo c.operation = true → c.size = .one ∧ c.address.extractLsb' 16 12 = 0) (hdata : c.data = 0) :
    ∃ i, c.toLpc = some i := by
  obtain ⟨a, d, o, z⟩ := c
  cases o
  case ioRead =>
    obtain ⟨hsize, haddr⟩ := hio rfl
    exact ⟨_, if_pos ⟨hsize, haddr, hdata⟩⟩
  case fwRead => exact ⟨_, if_pos hdata⟩
  case ioWrite | fwWrite => cases hread

/-- A write's command record in the shape of its operation and size is a transaction's (R161, R165 to R167). -/
theorem toLpc_of_write {c : Command} (hwrite : isRead c.operation = false)
    (hio : isIo c.operation = true → c.size = .one ∧ c.address.extractLsb' 16 12 = 0)
    (hdata : c.data.toNat < 256 ^ c.size.bytes) : ∃ i, c.toLpc = some i := by
  obtain ⟨a, d, o, z⟩ := c
  cases o
  case ioWrite =>
    obtain ⟨rfl, haddr⟩ := hio rfl
    exact ⟨_, if_pos ⟨rfl, haddr, extractLsb'_eq_zero_of_lt hdata⟩⟩
  case fwWrite =>
    cases z
    case one => exact ⟨_, if_pos (extractLsb'_eq_zero_of_lt hdata)⟩
    case two => exact ⟨_, if_pos (extractLsb'_eq_zero_of_lt hdata)⟩
    case four => exact ⟨_, rfl⟩
  case ioRead | fwRead => cases hwrite

/-- A coherent PSM in a turnaround state stands in that of its operation, with a transaction's command record. -/
theorem coherent_tar1 {m : Psm} (hm : m.Coherent) (hst : m.st = .rdTar1 ∨ m.st = .wrTar1) :
    m.st = tar1State m.op ∧ ∃ i, m.command.toLpc = some i := by
  obtain hst | hst := hst
  · simp only [Psm.Coherent, hst] at hm
    obtain ⟨-, hread, hio, hdata⟩ := hm
    exact ⟨by cases ho : m.op <;> simp_all [isRead, tar1State], toLpc_of_read hread hio hdata⟩
  · simp only [Psm.Coherent, hst] at hm
    obtain ⟨-, hwrite, hio, hdata⟩ := hm
    exact ⟨by cases ho : m.op <;> simp_all [isRead, tar1State], toLpc_of_write hwrite hio hdata⟩

/-- Settles O26: in the first turnaround cycle the transaction held is the one of the command record. -/
theorem handedOverCommandIsInstr : Obligations.HandedOverCommandIsInstr := by
  intro s hm hst hcnt
  obtain ⟨hop, i, hi⟩ := coherent_tar1 hm hst
  exact ⟨i, (instr_of_tar1State hop hcnt).trans hi, hi⟩

end Sys2Proof.Machine
end

section
/-! PROOF. For O6 and O21: runs as the PSM sees them, which are the host edges of a list of ticks, one after the other; and
the fields the PSM counts through along them. -/

namespace Sys2Proof.Machine

/-! ## One tick, and a run -/

/-- The PSM after a host edge at inputs h, where the response queue shows r: its rule, and the levels recorded (R157). -/
def Psm.edge (p : Params) (h : HostIn) (r : Option Response) (m : Psm) : Psm :=
  { (psmRule p h r m).psm with fprev := h.lframe, rprev := h.lreset }

/-- A host tick, in the PSM; the parameters stay. -/
theorem tick_host_psm {h : HostIn} {s t : State} (ht : tick (.host h) s = .next t) :
    t.cfg = s.cfg ∧ ∃ r, t.psm = s.psm.edge s.cfg h r := by
  rw [tick, hostTick_eq] at ht
  exact ⟨(hostEdge_keeps ht).1, _, hostEdge_psm ht⟩

/-- A system tick, in the PSM; the parameters stay. -/
theorem tick_sys_psm {i : SysIn} {s t : State} (ht : tick (.sys i) s = .next t) : t.cfg = s.cfg ∧ t.psm = s.psm := by
  rw [tick, sysTick_eq] at ht
  refine ⟨?_, (sysEdge_psm ht).trans rfl⟩
  obtain ⟨-, rfl⟩ | ⟨-, s1, hs, rfl⟩ := sysEdge_next ht
  · rfl
  · exact (bridgeStep_keeps hs).1

/-- A run that answers a next state is its first edge, then the rest. -/
theorem runTicks_cons {x : Tick} {xs : List Tick} {s t : State} (h : runTicks (x :: xs) s = .next t) :
    ∃ s1, tick x s = .next s1 ∧ runTicks xs s1 = .next t := by
  rw [runTicks] at h
  split at h
  · next s1 hs => exact ⟨s1, hs, h⟩
  · cases h
  · cases h

/-- The PSM takes the symbols of undisturbed host edges, whatever the response queue shows at them. -/
inductive Psm.Takes (p : Params) : Psm → List Nibble → Psm → Prop where
  | done (m : Psm) : Takes p m [] m
  | symbol {m m' : Psm} {h : HostIn} {r : Option Response} {ns : List Nibble} :
      HostIn.normal p h → Takes p (m.edge p h r) ns m' → Takes p m (h.lad :: ns) m'

/-- Along a run of undisturbed host edges, with any system edges in between, the PSM takes their symbols. -/
theorem takes_of_runTicks {ts : List Tick} {s t : State} (hn : ∀ h ∈ hostInputs ts, HostIn.normal s.cfg h)
    (hrun : runTicks ts s = .next t) : s.psm.Takes s.cfg ((hostInputs ts).map HostIn.lad) t.psm := by
  induction ts generalizing s with
  | nil => cases hrun; exact .done _
  | cons x xs ih =>
    obtain ⟨s1, hx, hxs⟩ := runTicks_cons hrun
    cases x with
    | sys i =>
      obtain ⟨hcfg, hpsm⟩ := tick_sys_psm hx
      have hrest := ih (s := s1) (by rwa [hcfg]) hxs
      rwa [hcfg, hpsm] at hrest
    | host h =>
      obtain ⟨hcfg, r, hpsm⟩ := tick_host_psm hx
      simp only [hostInputs, List.mem_cons, forall_eq_or_imp] at hn
      have hrest := ih (s := s1) (by rw [hcfg]; exact hn.2) hxs
      rw [hcfg, hpsm] at hrest
      exact .symbol hn.1 hrest

/-- The first host edge of a run, and the run from it on. -/
theorem runTicks_firstHostEdge {ts : List Tick} {h : HostIn} {hs : List HostIn} {s t : State}
    (hts : hostInputs ts = h :: hs) (hrun : runTicks ts s = .next t) :
    ∃ r s1 ts1, s1.cfg = s.cfg ∧ s1.psm = s.psm.edge s.cfg h r ∧ hostInputs ts1 = hs ∧
      runTicks ts1 s1 = .next t := by
  induction ts generalizing s with
  | nil => cases hts
  | cons x xs ih =>
    obtain ⟨s1, hx, hxs⟩ := runTicks_cons hrun
    cases x with
    | sys i =>
      obtain ⟨hcfg, hpsm⟩ := tick_sys_psm hx
      obtain ⟨r, s2, ts2, hcfg2, hpsm2, hrest⟩ := ih hts hxs
      exact ⟨r, s2, ts2, hcfg2.trans hcfg, by rw [hpsm2, hpsm, hcfg], hrest⟩
    | host g =>
      obtain ⟨hcfg, r, hpsm⟩ := tick_host_psm hx
      cases hts
      exact ⟨r, s1, xs, hcfg, hpsm, rfl, hxs⟩

/-! ## Taking symbols -/

section
variable {p : Params} {m m' : Psm}

theorem takes_nil (ht : m.Takes p [] m') : m' = m := by
  cases ht; rfl

theorem takes_cons {n : Nibble} {ns : List Nibble} (ht : m.Takes p (n :: ns) m') :
    ∃ h r, HostIn.normal p h ∧ h.lad = n ∧ Psm.Takes p (m.edge p h r) ns m' := by
  cases ht with
  | symbol hn hrest => exact ⟨_, _, hn, rfl, hrest⟩

theorem takes_singleton {n : Nibble} (ht : m.Takes p [n] m') :
    ∃ h r, HostIn.normal p h ∧ h.lad = n ∧ m' = m.edge p h r := by
  obtain ⟨h, r, hn, hlad, hrest⟩ := takes_cons ht
  exact ⟨h, r, hn, hlad, takes_nil hrest⟩

/-- Symbols taken one list after the other. -/
theorem takes_append {as bs : List Nibble} (ht : m.Takes p (as ++ bs) m') :
    ∃ m1, m.Takes p as m1 ∧ m1.Takes p bs m' := by
  induction as generalizing m with
  | nil => exact ⟨m, .done m, ht⟩
  | cons a as ih =>
    obtain ⟨h, r, hn, rfl, hrest⟩ := takes_cons ht
    obtain ⟨m1, has, hbs⟩ := ih hrest
    exact ⟨m1, .symbol hn has, hbs⟩

/-- The last of the symbols taken is one edge after the others. -/
theorem takes_last {ns : List Nibble} {j : Nat} (ht : m.Takes p ns m') (hlen : ns.length = j + 1) :
    ∃ init m1 h r, init.length = j ∧ m.Takes p init m1 ∧ HostIn.normal p h ∧ m' = m1.edge p h r := by
  have hns : ns.dropLast ++ [ns.getLast (by rintro rfl; cases hlen)] = ns := List.dropLast_append_getLast _
  obtain ⟨m1, hinit, hlast⟩ := takes_append (hns ▸ ht)
  obtain ⟨h, r, hn, -, hedge⟩ := takes_singleton hlast
  exact ⟨_, m1, h, r, by simp [hlen], hinit, hn, hedge⟩

/-- An invariant of a field of at most k symbols, each edge adding its symbol to those received. -/
theorem takes_invariant {Inv : List Nibble → Psm → Prop} {k : Nat}
    (hstep : ∀ pre m h r, HostIn.normal p h → pre.length < k → Inv pre m → Inv (pre ++ [h.lad]) (m.edge p h r))
    {ns : List Nibble} (ht : m.Takes p ns m') {pre : List Nibble} (hinv : Inv pre m) (hk : pre.length + ns.length ≤ k) :
    Inv (pre ++ ns) m' := by
  induction ht generalizing pre with
  | done m => simpa using hinv
  | @symbol m m' h r ns hn hrest ih =>
    simp only [List.length_cons] at hk
    have hnext := hstep pre m h r hn (by omega) hinv
    simpa using ih hnext (by simp; omega)

/-! ## Places of a field -/

/-- An edge whose rule writes the PSM registers only. -/
theorem edge_of_only {h : HostIn} {r : Option Response} (ho : psmRule p h r m = .only m') :
    m.edge p h r = { m' with fprev := h.lframe, rprev := h.lreset } := by
  rw [Psm.edge, ho]; rfl

end

/-- j of the k places of a field are done: the PSM stands at the next one, or has left the field's state. -/
def Psm.AtPlace (st exit : PsmState) (k j : Nat) (m : Psm) : Prop :=
  (j < k → m.st = st ∧ m.cnt = BitVec.ofNat 3 j) ∧ (j = k → m.st = exit ∧ m.cnt = 0)

/-- A counting rule does one place more. -/
theorem atPlace_succ {st exit : PsmState} {k j : Nat} {m m' : Psm} (hm : m.AtPlace st exit k j) (hj : j < k) (hk : k ≤ 8)
    (hcount : m.CountsTo m' k exit) : m'.AtPlace st exit k (j + 1) := by
  obtain ⟨hst, hcnt⟩ := hm.1 hj
  have hplace : m.cnt.toNat = j := by rw [hcnt, BitVec.toNat_ofNat]; omega
  refine ⟨fun hmore => ?_, fun hlast => ?_⟩
  · obtain ⟨hcnt', hst'⟩ := hcount.2 (by omega)
    exact ⟨hst'.trans hst, by rw [hcnt', hcnt, BitVec.ofNat_add]; rfl⟩
  · obtain ⟨hcnt', hst'⟩ := hcount.1 (by omega)
    exact ⟨hst', hcnt'⟩

/-- A size's field has at most eight nibbles. -/
theorem two_mul_bytes_le (z : Size) : 2 * z.bytes ≤ 8 := by cases z <;> decide

/-- A size has a byte. -/
theorem bytes_pos (z : Size) : 0 < z.bytes := by cases z <;> decide

end Sys2Proof.Machine
end

section
/-! PROOF. O21: what the wire shows after the ready cycle of a read. -/

namespace Sys2Proof.Machine

/-- j data nibbles of a read are out: the j-th stands on the wire (R152). -/
def Psm.ShowsData (p : Params) (z : Size) (d : Word) (j : Nat) (m : Psm) : Prop :=
  m.AtPlace .rdData .tar2 (2 * z.bytes) j ∧ m.size = z ∧ m.data = d ∧ m.ladEn = true ∧
    ∀ k, j = k + 1 → m.ladOut = readNibble p.rdataOrder z d (BitVec.ofNat 3 k)

/-- An undisturbed edge in RDDATA puts one data nibble more on the wire. -/
theorem showsData_succ {p : Params} {z : Size} {d : Word} {j : Nat} {m : Psm} {h : HostIn} (hn : HostIn.normal p h)
    (hj : j < 2 * z.bytes) (hm : m.ShowsData p z d j) (r : Option Response) : (m.edge p h r).ShowsData p z d (j + 1) := by
  obtain ⟨hplace, rfl, rfl, hen, -⟩ := hm
  obtain ⟨hst, hcnt⟩ := hplace.1 hj
  rw [edge_of_only (psmRule_rdData hn hst)]
  have hsize : (psmRdData p m).size = m.size := (congrArg Psm.size (psmRdData_frame p m) :)
  have hdata : (psmRdData p m).data = m.data := (congrArg Psm.data (psmRdData_frame p m) :)
  have hladEn : (psmRdData p m).ladEn = m.ladEn := (congrArg Psm.ladEn (psmRdData_frame p m) :)
  refine ⟨atPlace_succ hplace hj (two_mul_bytes_le _) (psmRdData_countsTo p m), hsize, hdata, hladEn.trans hen, ?_⟩
  intro k hk
  obtain rfl : j = k := Nat.succ.inj hk
  exact (psmRdData_ladOut p m).trans (by rw [hcnt])

/-- The data nibbles of a read, over any undisturbed edges up to the last. -/
theorem showsData_of_takes {p : Params} {m m' : Psm} {ns : List Nibble} (hst : m.st = .rdData) (hcnt : m.cnt = 0)
    (hen : m.ladEn = true) (ht : m.Takes p ns m') (hlen : ns.length ≤ 2 * m.size.bytes) :
    m'.ShowsData p m.size m.data ns.length := by
  have hsize := bytes_pos m.size
  refine takes_invariant (Inv := fun pre => Psm.ShowsData p m.size m.data pre.length) (k := 2 * m.size.bytes) (pre := [])
    ?step ht ?ready (by simpa using hlen)
  case step =>
    intro pre m1 h r hn hpre hm
    simpa using showsData_succ hn hpre hm r
  case ready => exact ⟨⟨fun _ => ⟨hst, hcnt⟩, fun h0 => by simp at h0; omega⟩, rfl, rfl, hen, by simp⟩

/-- The first edge of TAR2 shows all-ones (R153). -/
theorem edge_tar2_first {p : Params} {m : Psm} {h : HostIn} (hn : HostIn.normal p h) (hst : m.st = .tar2)
    (hcnt : m.cnt = 0) (r : Option Response) :
    (m.edge p h r).st = .tar2 ∧ (m.edge p h r).cnt = 1 ∧ (m.edge p h r).wire = some 0b1111 := by
  rw [edge_of_only (psmRule_tar2 hn hst), psmTar2, if_pos hcnt]
  exact ⟨hst, rfl, rfl⟩

/-- The second edge of TAR2 releases the bus (R153). -/
theorem edge_tar2_second {p : Params} {m : Psm} {h : HostIn} (hn : HostIn.normal p h) (hst : m.st = .tar2)
    (hcnt : m.cnt ≠ 0) (r : Option Response) : (m.edge p h r).wire = none ∧ (m.edge p h r).st = .start := by
  rw [edge_of_only (psmRule_tar2 hn hst), psmTar2, if_neg hcnt]
  exact ⟨rfl, rfl⟩

/-- After the last data nibble an undisturbed edge shows all-ones, still in TAR2 (R153). -/
theorem tar2_of_takes {p : Params} {m m' : Psm} {ns : List Nibble} (hst : m.st = .rdData) (hcnt : m.cnt = 0)
    (hen : m.ladEn = true) (ht : m.Takes p ns m') (hlen : ns.length = 2 * m.size.bytes + 1) :
    m'.st = .tar2 ∧ m'.cnt = 1 ∧ m'.wire = some 0b1111 := by
  obtain ⟨init, m1, h, r, hinit, ht1, hn, rfl⟩ := takes_last ht hlen
  obtain ⟨hplace, -⟩ := showsData_of_takes hst hcnt hen ht1 hinit.le
  obtain ⟨hst1, hcnt1⟩ := hplace.2 hinit
  exact edge_tar2_first hn hst1 hcnt1 r

/-- Settles O21: an invariant counts the data nibbles out, and TAR2 takes two edges more. -/
theorem readDataOnTheWire : Obligations.ReadDataOnTheWire := by
  intro s t ts hst hcnt hen hn hrun
  have ht := takes_of_runTicks hn hrun
  have hlength : ((hostInputs ts).map HostIn.lad).length = (hostInputs ts).length := List.length_map _
  rw [← hlength]
  generalize (hostInputs ts).map HostIn.lad = ns at ht
  have hshown : ∀ k, k < 2 * s.psm.size.bytes → ns.length = k + 1 →
      t.psm.wire = some (readNibble s.cfg.rdataOrder s.psm.size s.psm.data (BitVec.ofNat 3 k)) := by
    intro k hk hlen
    obtain ⟨-, -, -, hen', hout⟩ := showsData_of_takes hst hcnt hen ht (by omega)
    rw [wire_of_ladEn hen', hout k hlen]
  have hplace : ∀ k, k < 2 * s.psm.size.bytes → (BitVec.ofNat 3 k).toNat = k := by
    intro k hk
    have := two_mul_bytes_le s.psm.size
    rw [BitVec.toNat_ofNat]; omega
  refine ⟨fun k hk hlen ho => ?lsn, fun k hk hlen ho => ?msn, fun hlen => ?ones, fun hlen => ?released⟩
  case lsn =>
    rw [hshown k hk hlen, ho]
    congr 1
    apply BitVec.eq_of_toNat_eq
    rw [readNibble_lsn, hplace k hk, BitVec.toNat_ofNat]
  case msn =>
    rw [hshown k hk hlen, ho]
    congr 1
    apply BitVec.eq_of_toNat_eq
    rw [readNibble_msn _ (by rwa [hplace k hk]), hplace k hk, BitVec.toNat_ofNat]
  case ones => exact (tar2_of_takes hst hcnt hen ht hlen).2.2
  case released =>
    obtain ⟨init, m1, h, r, hinit, ht1, hnormal, hedge⟩ := takes_last ht hlen
    obtain ⟨hst1, hcnt1, -⟩ := tar2_of_takes hst hcnt hen ht1 hinit
    rw [hedge]
    exact edge_tar2_second hnormal hst1 (by simp [hcnt1]) r

end Sys2Proof.Machine
end

section
/-! PROOF. For O6: what the decoder accepts is one of the four transaction formats, in the values of their fields. -/

namespace Sys2Proof

/-! ## Fields in numbers -/

/-- A field's value, of the symbols a and then b. -/
theorem ofNibblesLsn_append (a b : List Nibble) :
    ofNibblesLsn (a ++ b) = ofNibblesLsn a + 16 ^ a.length * ofNibblesLsn b := by
  induction a with
  | nil => simp [ofNibblesLsn]
  | cons x a ih => simp only [List.cons_append, ofNibblesLsn, ih, List.length_cons, Nat.pow_succ]; ring

/-- A field of k nibbles is below 16 ^ k. -/
theorem ofNibblesLsn_lt (ns : List Nibble) : ofNibblesLsn ns < 16 ^ ns.length := by
  induction ns with
  | nil => simp [ofNibblesLsn]
  | cons n ns ih =>
    have hn := n.isLt
    simp only [ofNibblesLsn, List.length_cons, Nat.pow_succ]
    omega

@[simp] theorem ofNibbles_nil (o : NibbleOrder) : ofNibbles o [] = 0 := by cases o <;> rfl

theorem ofNibbles_lt (o : NibbleOrder) (ns : List Nibble) : ofNibbles o ns < 16 ^ ns.length := by
  cases o
  case lsnFirst => exact ofNibblesLsn_lt ns
  case msnFirst => simpa [ofNibbles] using ofNibblesLsn_lt ns.reverse

/-- In MSN_FIRST order a nibble more goes below those received. -/
theorem ofNibbles_msn_concat (ns : List Nibble) (n : Nibble) :
    ofNibbles .msnFirst (ns ++ [n]) = 16 * ofNibbles .msnFirst ns + n.toNat := by
  simp [ofNibbles, ofNibblesLsn, Nat.add_comm]

/-- In LSN_FIRST order a nibble more goes above those received. -/
theorem ofNibbles_lsn_concat (ns : List Nibble) (n : Nibble) :
    ofNibbles .lsnFirst (ns ++ [n]) = ofNibbles .lsnFirst ns + 16 ^ ns.length * n.toNat := by
  simp [ofNibbles, ofNibblesLsn_append, ofNibblesLsn]

/-! ## The symbols of a transaction -/

/-- A transaction's symbols up to its turnaround, and the instruction they carry: the four formats of R109. -/
inductive Transmits (p : Params) : List Nibble → Instr → Prop where
  | ioRead {ct : Nibble} {a : List Nibble} : cycleType ct = some true → a.length = 4 →
      Transmits p (0b0000 :: ct :: a) (.lpcIoRead (BitVec.ofNat 16 (ofNibbles p.addrOrder a)))
  | ioWrite {ct : Nibble} {a d : List Nibble} : cycleType ct = some false → a.length = 4 → d.length = 2 →
      Transmits p (0b0000 :: ct :: (a ++ d))
        (.lpcIoWrite (BitVec.ofNat 16 (ofNibbles p.addrOrder a)) (BitVec.ofNat 8 (ofNibbles p.wdataOrder d)))
  | fwRead {idsel msize : Nibble} {a : List Nibble} {z : Size} : idselAccepted p idsel = true → a.length = 7 →
      Size.ofMsize msize = some z →
      Transmits p (0b1101 :: idsel :: (a ++ [msize])) (fwReadInstr z (BitVec.ofNat 28 (ofNibbles p.addrOrder a)))
  | fwWrite {idsel msize : Nibble} {a d : List Nibble} {z : Size} : idselAccepted p idsel = true → a.length = 7 →
      Size.ofMsize msize = some z → d.length = 2 * z.bytes →
      Transmits p (0b1110 :: idsel :: (a ++ msize :: d))
        (fwWriteInstr z (BitVec.ofNat 28 (ofNibbles p.addrOrder a)) (ofNibbles p.wdataOrder d))

/-- What decodes after an I/O start is an I/O format and two turnaround symbols. -/
theorem decodeIo_ok {p : Params} {l : List Nibble} {i : Instr} (h : decodeIo p l = .ok (i, [])) :
    ∃ body tar, l = body ++ tar ∧ tar.length = 2 ∧ Transmits p (0b0000 :: body) i := by
  cases l with
  | nil => cases h
  | cons ct l1 =>
    simp only [decodeIo] at h
    split at h
    · cases h
    next isRead hct =>
    split at h
    · cases h
    next a l2 ha =>
    obtain ⟨rfl, halen⟩ := takeSymbols_some ha
    cases isRead with
    | true =>
      rw [if_pos rfl] at h
      split at h
      · cases h
      next tar l3 htar =>
      obtain ⟨rfl, htlen⟩ := takeSymbols_some htar
      cases h
      exact ⟨ct :: a, tar, by simp, htlen, .ioRead hct halen⟩
    | false =>
      rw [if_neg Bool.false_ne_true] at h
      split at h
      · cases h
      next d l3 hd =>
      obtain ⟨rfl, hdlen⟩ := takeSymbols_some hd
      split at h
      · cases h
      next tar l4 htar =>
      obtain ⟨rfl, htlen⟩ := takeSymbols_some htar
      cases h
      exact ⟨ct :: (a ++ d), tar, by simp, htlen, .ioWrite hct halen hdlen⟩

/-- What decodes after a firmware start is a firmware format and two turnaround symbols. -/
theorem decodeFw_ok {p : Params} {isRead : Bool} {l : List Nibble} {i : Instr} (h : decodeFw p isRead l = .ok (i, [])) :
    ∃ body tar, l = body ++ tar ∧ tar.length = 2 ∧ Transmits p ((if isRead then 0b1101 else 0b1110) :: body) i := by
  cases l with
  | nil => cases h
  | cons idsel l1 =>
    simp only [decodeFw] at h
    split at h
    · next hi =>
      split at h
      · cases h
      · cases h
      next a msize l2 ha =>
      obtain ⟨rfl, halen⟩ := takeSymbols_some ha
      split at h
      · cases h
      next z hz =>
      cases isRead with
      | true =>
        rw [if_pos rfl] at h
        split at h
        · cases h
        next tar l3 htar =>
        obtain ⟨rfl, htlen⟩ := takeSymbols_some htar
        cases h
        exact ⟨idsel :: (a ++ [msize]), tar, by simp, htlen, .fwRead hi halen hz⟩
      | false =>
        rw [if_neg Bool.false_ne_true] at h
        split at h
        · cases h
        next d l3 hd =>
        obtain ⟨rfl, hdlen⟩ := takeSymbols_some hd
        split at h
        · cases h
        next tar l4 htar =>
        obtain ⟨rfl, htlen⟩ := takeSymbols_some htar
        cases h
        exact ⟨idsel :: (a ++ msize :: d), tar, by simp, htlen, .fwWrite hi halen hz hdlen⟩
    · cases h

/-- What the host-bus decoder reads to the end is one of the four formats and two turnaround symbols. -/
theorem decodeLpc_ok {p : Params} {l : List Nibble} {i : Instr} (h : decodeLpc p l = .ok (i, [])) :
    ∃ body tar, l = body ++ tar ∧ tar.length = 2 ∧ Transmits p body i := by
  cases l with
  | nil => cases h
  | cons start l =>
    simp only [decodeLpc] at h
    split_ifs at h with hio hrd hwr
    · obtain ⟨body, tar, rfl, htar, hbody⟩ := decodeIo_ok h
      exact ⟨start :: body, tar, rfl, htar, hio ▸ hbody⟩
    · obtain ⟨body, tar, rfl, htar, hbody⟩ := decodeFw_ok h
      exact ⟨start :: body, tar, rfl, htar, hrd ▸ hbody⟩
    · obtain ⟨body, tar, rfl, htar, hbody⟩ := decodeFw_ok h
      exact ⟨start :: body, tar, rfl, htar, hwr ▸ hbody⟩

/-- What decodes with two turnaround symbols after it is one of the four formats. -/
theorem transmits_of_decode {p : Params} {syms : List Nibble} {t1 t2 : Nibble} {i : Instr}
    (h : decode p (.lpc (syms ++ [t1, t2])) = .ok i) : Transmits p syms i := by
  have hlpc : decodeLpc p (syms ++ [t1, t2]) = .ok (i, []) := by
    simp only [decode] at h
    split at h
    · cases h
    · next hok => cases h; exact hok
    · cases h
  obtain ⟨body, tar, hsplit, htar, hbody⟩ := decodeLpc_ok hlpc
  rwa [(List.append_inj' hsplit htar.symm).1]

end Sys2Proof
end

section
/-! PROOF. O6: the PSM's registers along a transaction's symbols, field by field, against the decoder. -/

namespace Sys2Proof.Machine

/-! ## Nibbles shifted in -/

/-- What an address field of k nibbles holds after the nibbles ns: LSN_FIRST shifts them in from the top (R145, R147). -/
def partialAddr (o : NibbleOrder) (k : Nat) (ns : List Nibble) : Nat :=
  match o with
  | .lsnFirst => ofNibbles .lsnFirst ns * 16 ^ (k - ns.length)
  | .msnFirst => ofNibbles .msnFirst ns

/-- Before its first nibble an address field holds 0. -/
@[simp] theorem partialAddr_nil (o : NibbleOrder) (k : Nat) : partialAddr o k [] = 0 := by
  cases o <;> simp [partialAddr]

/-- After all its nibbles an address field holds its value. -/
theorem partialAddr_full (o : NibbleOrder) {k : Nat} {ns : List Nibble} (h : ns.length = k) :
    partialAddr o k ns = ofNibbles o ns := by
  cases o <;> simp [partialAddr, h]

theorem partialAddr_lt (o : NibbleOrder) {k : Nat} {ns : List Nibble} (h : ns.length ≤ k) :
    partialAddr o k ns < 16 ^ k := by
  have hlt := ofNibbles_lt o ns
  cases o
  case lsnFirst =>
    calc ofNibbles .lsnFirst ns * 16 ^ (k - ns.length)
        < 16 ^ ns.length * 16 ^ (k - ns.length) := Nat.mul_lt_mul_of_pos_right hlt (by positivity)
      _ = 16 ^ k := by rw [← Nat.pow_add, Nat.add_sub_cancel' h]
  case msnFirst => exact hlt.trans_le (Nat.pow_le_pow_right (by decide) h)

/-- In LSN_FIRST order a nibble more pushes those received one place down, and goes to the top. -/
theorem partialAddr_lsn_concat {k : Nat} {ns : List Nibble} (h : ns.length < k) (n : Nibble) :
    partialAddr .lsnFirst k (ns ++ [n]) = 16 ^ (k - 1) * n.toNat + partialAddr .lsnFirst k ns / 16 := by
  obtain ⟨j, hj⟩ : ∃ j, k - ns.length = j + 1 := ⟨k - ns.length - 1, by omega⟩
  have hrest : k - (ns.length + 1) = j := by omega
  have htop : k - 1 = ns.length + j := by omega
  have hdown : ofNibbles .lsnFirst ns * 16 ^ (j + 1) / 16 = ofNibbles .lsnFirst ns * 16 ^ j := by
    rw [Nat.pow_succ, ← Nat.mul_assoc, Nat.mul_div_cancel _ (by decide)]
  simp only [partialAddr, ofNibbles_lsn_concat, List.length_append, List.length_singleton, hj, hrest, htop, hdown]
  ring

/-- In MSN_FIRST order a nibble more pushes those received one place up. -/
theorem partialAddr_msn_concat (k : Nat) (ns : List Nibble) (n : Nibble) :
    partialAddr .msnFirst k (ns ++ [n]) = 16 * partialAddr .msnFirst k ns + n.toNat := ofNibbles_msn_concat ns n

/-- In MSN_FIRST order a field with a place left has its top place free. -/
theorem partialAddr_msn_lt {k : Nat} {ns : List Nibble} (h : ns.length < k) :
    partialAddr .msnFirst k ns < 16 ^ (k - 1) :=
  (ofNibbles_lt .msnFirst ns).trans_le (Nat.pow_le_pow_right (by decide) (by omega))

/-- Concatenation in numbers. -/
theorem toNat_append_eq_add {k l : Nat} (x : BitVec k) (y : BitVec l) :
    (x ++ y).toNat = 2 ^ l * x.toNat + y.toNat := by
  rw [BitVec.toNat_append, ← Nat.shiftLeft_add_eq_or_of_lt y.isLt, Nat.shiftLeft_eq, Nat.mul_comm]

/-- R145: a nibble more of an I/O address. -/
theorem shiftInIoAddr_partialAddr (o : NibbleOrder) {ns : List Nibble} (h : ns.length < 4) (n : Nibble) :
    shiftInIoAddr o (BitVec.ofNat 28 (partialAddr o 4 ns)) n = BitVec.ofNat 28 (partialAddr o 4 (ns ++ [n])) := by
  have hlt := partialAddr_lt o h.le
  have hn := n.isLt
  apply BitVec.eq_of_toNat_eq
  cases o
  case lsnFirst =>
    rw [partialAddr_lsn_concat h]
    simp only [shiftInIoAddr, toNat_append_eq_add, BitVec.extractLsb'_toNat, BitVec.toNat_ofNat, Nat.shiftRight_eq_div_pow]
    omega
  case msnFirst =>
    have hfree := partialAddr_msn_lt h
    rw [partialAddr_msn_concat]
    simp only [shiftInIoAddr, toNat_append_eq_add, BitVec.extractLsb'_toNat, BitVec.toNat_ofNat, Nat.shiftRight_eq_div_pow]
    omega

/-- R147: a nibble more of a firmware address. -/
theorem shiftInFwAddr_partialAddr (o : NibbleOrder) {ns : List Nibble} (h : ns.length < 7) (n : Nibble) :
    shiftInFwAddr o (BitVec.ofNat 28 (partialAddr o 7 ns)) n = BitVec.ofNat 28 (partialAddr o 7 (ns ++ [n])) := by
  have hlt := partialAddr_lt o h.le
  have hn := n.isLt
  apply BitVec.eq_of_toNat_eq
  cases o
  case lsnFirst =>
    rw [partialAddr_lsn_concat h]
    simp only [shiftInFwAddr, toNat_append_eq_add, BitVec.extractLsb'_toNat, BitVec.toNat_ofNat, Nat.shiftRight_eq_div_pow]
    omega
  case msnFirst =>
    have hfree := partialAddr_msn_lt h
    rw [partialAddr_msn_concat]
    simp only [shiftInFwAddr, toNat_append_eq_add, BitVec.extractLsb'_toNat, BitVec.toNat_ofNat, Nat.shiftRight_eq_div_pow]
    omega

/-- R149, LSN_FIRST, in numbers: a nibble put above those received. -/
theorem shiftInData_lsn_eq {data : Word} {cnt : BitVec 3} (h : data.toNat < 16 ^ cnt.toNat) (n : Nibble) :
    shiftInData .lsnFirst data cnt n = BitVec.ofNat 32 (data.toNat + 16 ^ cnt.toNat * n.toNat) := by
  have hpow : 16 ^ cnt.toNat = 2 ^ (4 * cnt.toNat) := by rw [Nat.pow_mul]
  rw [hpow] at h ⊢
  apply BitVec.eq_of_getLsbD_eq
  intro i hi
  rw [shiftInData_lsn_getLsbD _ _ _ hi, BitVec.getLsbD_ofNat, Nat.add_comm data.toNat, Nat.testBit_two_pow_mul_add _ h,
    decide_eq_true hi, Bool.true_and]
  split_ifs with hplace hlow hlow
  · omega
  · rfl
  · rfl
  · have hdata : data.getLsbD i = false :=
      Nat.testBit_lt_two_pow (h.trans_le (Nat.pow_le_pow_right (by decide) (by omega)))
    have hnibble : n.toNat.testBit (i - 4 * cnt.toNat) = false :=
      Nat.testBit_lt_two_pow (n.isLt.trans_le (Nat.pow_le_pow_right (by decide) (by omega)))
    rw [hdata, hnibble]

/-- R149, MSN_FIRST, in numbers: a nibble put below those received, while the top place is free. -/
theorem shiftInData_msn_eq {data : Word} (h : data.toNat < 16 ^ 7) (cnt : BitVec 3) (n : Nibble) :
    shiftInData .msnFirst data cnt n = BitVec.ofNat 32 (16 * data.toNat + n.toNat) := by
  have hn := n.isLt
  have hor := Nat.two_pow_add_eq_or_of_lt hn data.toNat
  apply BitVec.eq_of_toNat_eq
  simp only [shiftInData, BitVec.toNat_or, BitVec.toNat_shiftLeft, BitVec.toNat_setWidth, BitVec.toNat_ofNat,
    Nat.shiftLeft_eq]
  rw [Nat.mod_eq_of_lt (show n.toNat < 2 ^ 32 by omega), Nat.mod_eq_of_lt (show data.toNat * 2 ^ 4 < 2 ^ 32 by omega),
    Nat.mul_comm, ← hor, Nat.mod_eq_of_lt (by omega)]

/-- R149: a nibble more of the write data. -/
theorem shiftInData_ofNibbles (o : NibbleOrder) {ns : List Nibble} (h : ns.length < 8) (n : Nibble) :
    shiftInData o (BitVec.ofNat 32 (ofNibbles o ns)) (BitVec.ofNat 3 ns.length) n =
      BitVec.ofNat 32 (ofNibbles o (ns ++ [n])) := by
  have hlt := ofNibbles_lt o ns
  have hfree : 16 ^ ns.length ≤ 16 ^ 7 := Nat.pow_le_pow_right (by decide) (by omega)
  have hdata : (BitVec.ofNat 32 (ofNibbles o ns)).toNat = ofNibbles o ns := by
    rw [BitVec.toNat_ofNat]; omega
  have hcnt : (BitVec.ofNat 3 ns.length).toNat = ns.length := by
    rw [BitVec.toNat_ofNat]; omega
  cases o
  case lsnFirst =>
    rw [shiftInData_lsn_eq (by rwa [hdata, hcnt]), hdata, hcnt, ofNibbles_lsn_concat]
  case msnFirst =>
    rw [shiftInData_msn_eq (by rw [hdata]; omega), hdata, ofNibbles_msn_concat]

/-! ## The PSM along a transaction's symbols -/

theorem psmIoAddr_command (p : Params) (n : Nibble) (m : Psm) :
    (psmIoAddr p n m).command = { m.command with address := shiftInIoAddr p.addrOrder m.addr n } := by
  unfold psmIoAddr; split_ifs <;> rfl

theorem psmFwAddr_command (p : Params) (n : Nibble) (m : Psm) :
    (psmFwAddr p n m).command = { m.command with address := shiftInFwAddr p.addrOrder m.addr n } := by
  unfold psmFwAddr; split_ifs <;> rfl

theorem psmWrData_command (p : Params) (n : Nibble) (m : Psm) :
    (psmWrData p n m).command = { m.command with data := shiftInData p.wdataOrder m.data m.cnt n } := by
  unfold psmWrData; split_ifs <;> rfl

/-- The PSM at the first place of a state, with the command record c assembled so far. -/
def Psm.Holds (st : PsmState) (c : Command) (m : Psm) : Prop := m.st = st ∧ m.cnt = 0 ∧ m.command = c

section
variable {p : Params} {m m' : Psm} {c : Command}

/-- R144: the cycle type names the operation. -/
theorem takes_cycleType {ct : Nibble} {isRead : Bool} (hm : m.Holds .cycleType c) (hct : cycleType ct = some isRead)
    (ht : m.Takes p [ct] m') :
    m'.Holds .ioAddr ⟨c.address, c.data, if isRead then .ioRead else .ioWrite, .one⟩ := by
  obtain ⟨h, r, hn, rfl, rfl⟩ := takes_singleton ht
  obtain ⟨hst, -, rfl⟩ := hm
  rw [edge_of_only (psmRule_cycleType hn hst), psmCycleType, hct]
  cases isRead <;> exact ⟨rfl, rfl, rfl⟩

/-- R146: an accepted IDSEL. -/
theorem takes_fwIdsel {idsel : Nibble} (hm : m.Holds .fwIdsel c) (hi : idselAccepted p idsel = true)
    (ht : m.Takes p [idsel] m') : m'.Holds .fwAddr c := by
  obtain ⟨h, r, hn, rfl, rfl⟩ := takes_singleton ht
  obtain ⟨hst, -, rfl⟩ := hm
  rw [edge_of_only (psmRule_fwIdsel hn hst), psmFwIdsel, if_pos hi]
  exact ⟨rfl, rfl, rfl⟩

/-- R148: the MSIZE names the size. -/
theorem takes_fwMsize {msize : Nibble} {z : Size} (hm : m.Holds .fwMsize c) (hz : Size.ofMsize msize = some z)
    (ht : m.Takes p [msize] m') :
    m'.Holds (if c.operation = .fwRead then .rdTar1 else .wrData) ⟨c.address, c.data, c.operation, z⟩ := by
  obtain ⟨h, r, hn, rfl, rfl⟩ := takes_singleton ht
  obtain ⟨hst, -, rfl⟩ := hm
  rw [edge_of_only (psmRule_fwMsize hn hst), psmFwMsize, hz]
  exact ⟨rfl, rfl, rfl⟩

/-- A field of k nibbles, whose state counts through it and gives the command record its nibbles so far. -/
theorem takes_field {st exit : PsmState} {k : Nat} {held : List Nibble → Command} (hk : 0 < k) (hk8 : k ≤ 8)
    (hstep : ∀ (ns : List Nibble) (m : Psm) (h : HostIn) (r : Option Response), HostIn.normal p h → ns.length < k →
      m.st = st → m.cnt = BitVec.ofNat 3 ns.length → m.command = held ns →
      m.CountsTo (m.edge p h r) k exit ∧ (m.edge p h r).command = held (ns ++ [h.lad]))
    {ns : List Nibble} (hm : m.Holds st (held [])) (hlen : ns.length = k) (ht : m.Takes p ns m') :
    m'.Holds exit (held ns) := by
  obtain ⟨hst, hcnt, hc⟩ := hm
  have hinv := takes_invariant (k := k) (pre := [])
    (Inv := fun pre m => m.AtPlace st exit k pre.length ∧ m.command = held pre) ?step ht ?first (by simp [hlen])
  case step =>
    rintro pre m1 h r hn hpre ⟨hplace, hc1⟩
    obtain ⟨hst1, hcnt1⟩ := hplace.1 hpre
    obtain ⟨hcount, hc2⟩ := hstep pre m1 h r hn hpre hst1 hcnt1 hc1
    exact ⟨by simpa using atPlace_succ hplace hpre hk8 hcount, hc2⟩
  case first => exact ⟨⟨fun _ => ⟨hst, hcnt⟩, fun h0 => absurd h0 (by simp; omega)⟩, hc⟩
  obtain ⟨hplace, hc'⟩ := hinv
  obtain ⟨hst', hcnt'⟩ := hplace.2 (by simpa using hlen)
  exact ⟨hst', hcnt', hc'⟩

/-- R145 over its four nibbles: the address of the record. -/
theorem takes_ioAddr {a : List Nibble} {d : Word} {o : Op} {z : Size} (hm : m.Holds .ioAddr ⟨0, d, o, z⟩)
    (ha : a.length = 4) (ht : m.Takes p a m') :
    m'.Holds (if o = .ioRead then .rdTar1 else .wrData) ⟨BitVec.ofNat 28 (ofNibbles p.addrOrder a), d, o, z⟩ := by
  have hfield := takes_field (st := .ioAddr) (k := 4) (exit := if o = .ioRead then .rdTar1 else .wrData)
    (held := fun ns => ⟨BitVec.ofNat 28 (partialAddr p.addrOrder 4 ns), d, o, z⟩)
    (by decide) (by decide) ?step (hm := by simpa using hm) ha ht
  case step =>
    intro ns m h r hn hns hst hcnt hcmd
    have hop : m.op = o := congrArg Command.operation hcmd
    have haddr : m.addr = BitVec.ofNat 28 (partialAddr p.addrOrder 4 ns) := congrArg Command.address hcmd
    rw [edge_of_only (psmRule_ioAddr hn hst), ← shiftInIoAddr_partialAddr _ hns, ← haddr]
    exact ⟨hop ▸ psmIoAddr_countsTo p h.lad m, (psmIoAddr_command p h.lad m).trans (by rw [hcmd])⟩
  simpa only [partialAddr_full _ ha] using hfield

/-- R147 over its seven nibbles: the address of the record. -/
theorem takes_fwAddr {a : List Nibble} {d : Word} {o : Op} {z : Size} (hm : m.Holds .fwAddr ⟨0, d, o, z⟩)
    (ha : a.length = 7) (ht : m.Takes p a m') :
    m'.Holds .fwMsize ⟨BitVec.ofNat 28 (ofNibbles p.addrOrder a), d, o, z⟩ := by
  have hfield := takes_field (st := .fwAddr) (k := 7) (exit := .fwMsize)
    (held := fun ns => ⟨BitVec.ofNat 28 (partialAddr p.addrOrder 7 ns), d, o, z⟩)
    (by decide) (by decide) ?step (hm := by simpa using hm) ha ht
  case step =>
    intro ns m h r hn hns hst hcnt hcmd
    have haddr : m.addr = BitVec.ofNat 28 (partialAddr p.addrOrder 7 ns) := congrArg Command.address hcmd
    rw [edge_of_only (psmRule_fwAddr hn hst), ← shiftInFwAddr_partialAddr _ hns, ← haddr]
    exact ⟨psmFwAddr_countsTo p h.lad m, (psmFwAddr_command p h.lad m).trans (by rw [hcmd])⟩
  simpa only [partialAddr_full _ ha] using hfield

/-- R149 over the nibbles of the size: the data of the record. -/
theorem takes_wrData {d : List Nibble} {a : FwAddr} {o : Op} {z : Size} (hm : m.Holds .wrData ⟨a, 0, o, z⟩)
    (hd : d.length = 2 * z.bytes) (ht : m.Takes p d m') :
    m'.Holds .wrTar1 ⟨a, BitVec.ofNat 32 (ofNibbles p.wdataOrder d), o, z⟩ := by
  have hsize8 := two_mul_bytes_le z
  refine takes_field (st := .wrData) (k := 2 * z.bytes) (exit := .wrTar1)
    (held := fun ns => ⟨a, BitVec.ofNat 32 (ofNibbles p.wdataOrder ns), o, z⟩)
    (Nat.mul_pos (by decide) (bytes_pos z)) hsize8 ?step (hm := by simpa using hm) hd ht
  intro ns m h r hn hns hst hcnt hcmd
  have hz : m.size = z := congrArg Command.size hcmd
  have hdata : m.data = BitVec.ofNat 32 (ofNibbles p.wdataOrder ns) := congrArg Command.data hcmd
  rw [edge_of_only (psmRule_wrData hn hst), ← shiftInData_ofNibbles _ (by omega), ← hdata, ← hcnt]
  exact ⟨hz ▸ psmWrData_countsTo p h.lad m, (psmWrData_command p h.lad m).trans (by rw [hcmd])⟩

/-- R141: an I/O start clears the command record. -/
theorem edge_ioStart {h : HostIn} (hf : framing p h = true) (hr : resetting p h = false) (hlad : h.lad = 0b0000)
    (r : Option Response) : (m.edge p h r).Holds .cycleType ⟨0, 0, m.op, m.size⟩ := by
  rw [edge_of_only (psmRule_framing hf hr), hlad]
  exact ⟨rfl, rfl, rfl⟩

/-- R141: a firmware start clears the command record and names the operation. -/
theorem edge_fwStart {h : HostIn} (hf : framing p h = true) (hr : resetting p h = false) {isRead : Bool}
    (hlad : h.lad = if isRead then 0b1101 else 0b1110) (r : Option Response) :
    (m.edge p h r).Holds .fwIdsel ⟨0, 0, if isRead then .fwRead else .fwWrite, m.size⟩ := by
  rw [edge_of_only (psmRule_framing hf hr), hlad]
  cases isRead <;> exact ⟨rfl, rfl, rfl⟩

/-- The PSM that holds a command record in its first turnaround cycle holds that record's transaction. -/
theorem instr_of_holds {st : PsmState} (hm : m.Holds st c) (hst : st = tar1State c.operation) : m.instr = c.toLpc := by
  obtain ⟨rfl, hcnt, rfl⟩ := hm
  exact instr_of_tar1State hst hcnt

end

/-! ## The records of the transactions -/

/-- R160. -/
theorem toLpc_ioRead {a : Nat} (ha : a < 16 ^ 4) :
    Command.toLpc ⟨BitVec.ofNat 28 a, 0, .ioRead, .one⟩ = some (.lpcIoRead (BitVec.ofNat 16 a)) := by
  have hhigh : (BitVec.ofNat 28 a).extractLsb' 16 12 = 0 := extractLsb'_eq_zero_of_lt (by rw [BitVec.toNat_ofNat]; omega)
  simp [Command.toLpc, hhigh]

/-- R161. -/
theorem toLpc_ioWrite {a d : Nat} (ha : a < 16 ^ 4) (hd : d < 16 ^ 2) :
    Command.toLpc ⟨BitVec.ofNat 28 a, BitVec.ofNat 32 d, .ioWrite, .one⟩ =
      some (.lpcIoWrite (BitVec.ofNat 16 a) (BitVec.ofNat 8 d)) := by
  have hhigh : (BitVec.ofNat 28 a).extractLsb' 16 12 = 0 := extractLsb'_eq_zero_of_lt (by rw [BitVec.toNat_ofNat]; omega)
  have hdata : (BitVec.ofNat 32 d).extractLsb' 8 24 = 0 := extractLsb'_eq_zero_of_lt (by rw [BitVec.toNat_ofNat]; omega)
  simp [Command.toLpc, hhigh, hdata]

/-- R162 to R164. -/
theorem toLpc_fwRead (a : FwAddr) (z : Size) : Command.toLpc ⟨a, 0, .fwRead, z⟩ = some (fwReadInstr z a) := rfl

/-- R165 to R167. -/
theorem toLpc_fwWrite (a : FwAddr) {z : Size} {d : Nat} (hd : d < 16 ^ (2 * z.bytes)) :
    Command.toLpc ⟨a, BitVec.ofNat 32 d, .fwWrite, z⟩ = some (fwWriteInstr z a d) := by
  cases z
  case one =>
    have hdata : (BitVec.ofNat 32 d).extractLsb' 8 24 = 0 :=
      extractLsb'_eq_zero_of_lt (by simp only [Size.bytes] at hd; rw [BitVec.toNat_ofNat]; omega)
    simp [Command.toLpc, hdata, fwWriteInstr]
  case two =>
    have hdata : (BitVec.ofNat 32 d).extractLsb' 16 16 = 0 :=
      extractLsb'_eq_zero_of_lt (by simp only [Size.bytes] at hd; rw [BitVec.toNat_ofNat]; omega)
    simp [Command.toLpc, hdata, fwWriteInstr]
  case four => rfl

/-- Whatever it interrupts, the PSM that samples a transaction's first symbol at a framing edge and takes the others holds
the transaction. -/
theorem instr_of_transmits {p : Params} {m m' : Psm} {h : HostIn} {r : Option Response} {ns : List Nibble} {i : Instr}
    (hi : Transmits p (h.lad :: ns) i) (hf : framing p h = true) (hr : resetting p h = false)
    (ht : (m.edge p h r).Takes p ns m') : m'.instr = some i := by
  generalize hlad : h.lad = start at hi
  cases hi with
  | @ioRead ct a hct ha =>
    obtain ⟨m1, htct, hta⟩ := takes_append (as := [ct]) ht
    have hm0 : Psm.Holds .cycleType ⟨0, 0, m.op, m.size⟩ _ := edge_ioStart hf hr hlad r
    have hm1 : m1.Holds .ioAddr ⟨0, 0, .ioRead, .one⟩ := takes_cycleType hm0 hct htct
    have hm2 : m'.Holds .rdTar1 ⟨BitVec.ofNat 28 (ofNibbles p.addrOrder a), 0, .ioRead, .one⟩ :=
      takes_ioAddr hm1 ha hta
    exact (instr_of_holds hm2 rfl).trans (toLpc_ioRead (ha ▸ ofNibbles_lt _ a))
  | @ioWrite ct a d hct ha hd =>
    obtain ⟨m1, htct, ht1⟩ := takes_append (as := [ct]) ht
    obtain ⟨m2, hta, htd⟩ := takes_append ht1
    have hm0 : Psm.Holds .cycleType ⟨0, 0, m.op, m.size⟩ _ := edge_ioStart hf hr hlad r
    have hm1 : m1.Holds .ioAddr ⟨0, 0, .ioWrite, .one⟩ := takes_cycleType hm0 hct htct
    have hm2 : m2.Holds .wrData ⟨BitVec.ofNat 28 (ofNibbles p.addrOrder a), 0, .ioWrite, .one⟩ :=
      takes_ioAddr hm1 ha hta
    have hm3 := takes_wrData hm2 hd htd
    exact (instr_of_holds hm3 rfl).trans (toLpc_ioWrite (ha ▸ ofNibbles_lt _ a) (hd ▸ ofNibbles_lt _ d))
  | @fwRead idsel msize a z hidsel ha hz =>
    obtain ⟨m1, htidsel, ht1⟩ := takes_append (as := [idsel]) ht
    obtain ⟨m2, hta, htmsize⟩ := takes_append ht1
    have hm0 : Psm.Holds .fwIdsel ⟨0, 0, .fwRead, m.size⟩ _ := edge_fwStart (isRead := true) hf hr hlad r
    have hm1 := takes_fwIdsel hm0 hidsel htidsel
    have hm2 := takes_fwAddr hm1 ha hta
    have hm3 : m'.Holds .rdTar1 ⟨BitVec.ofNat 28 (ofNibbles p.addrOrder a), 0, .fwRead, z⟩ :=
      takes_fwMsize hm2 hz htmsize
    exact (instr_of_holds hm3 rfl).trans (toLpc_fwRead _ z)
  | @fwWrite idsel msize a d z hidsel ha hz hd =>
    obtain ⟨m1, htidsel, ht1⟩ := takes_append (as := [idsel]) ht
    obtain ⟨m2, hta, ht2⟩ := takes_append ht1
    obtain ⟨m3, htmsize, htd⟩ := takes_append (as := [msize]) ht2
    have hm0 : Psm.Holds .fwIdsel ⟨0, 0, .fwWrite, m.size⟩ _ := edge_fwStart (isRead := false) hf hr hlad r
    have hm1 := takes_fwIdsel hm0 hidsel htidsel
    have hm2 := takes_fwAddr hm1 ha hta
    have hm3 : m3.Holds .wrData ⟨BitVec.ofNat 28 (ofNibbles p.addrOrder a), 0, .fwWrite, z⟩ :=
      takes_fwMsize hm2 hz htmsize
    have hm4 := takes_wrData hm3 hd htd
    exact (instr_of_holds hm4 rfl).trans (toLpc_fwWrite _ (hd ▸ ofNibbles_lt _ d))

/-- Settles O6: the decoded symbols are one of the four formats, whose fields the PSM assembles one after the other from the
framing edge on. -/
theorem receivedTransactionIsDecoded : Obligations.ReceivedTransactionIsDecoded := by
  intro s t ts syms t1 t2 i hdec hcarries hrun
  have hi := transmits_of_decode hdec
  cases hsyms : syms with
  | nil => rw [hsyms] at hi; cases hi
  | cons n ns =>
    rw [hsyms] at hi hcarries
    cases hhost : hostInputs ts with
    | nil => rw [hhost] at hcarries; exact hcarries.elim
    | cons h hs =>
      rw [hhost] at hcarries
      obtain ⟨hf, hr, rfl, rfl, hn⟩ := hcarries
      obtain ⟨r, s1, ts1, hcfg, hpsm, rfl, hrun1⟩ := runTicks_firstHostEdge hhost hrun
      have ht := takes_of_runTicks (by rwa [hcfg]) hrun1
      rw [hcfg, hpsm] at ht
      exact instr_of_transmits hi hf hr ht

end Sys2Proof.Machine
end

section
/-! PROOF. For O13, O31 to O34 and O38 to O43: what a system edge does to the dispatcher, the buses and the queues, one case
for each move of the dispatcher. -/

namespace Sys2Proof.Machine

/-- The command queue aged at a system edge, before the dispatcher's step (R214). -/
@[simps] def State.agedCommands (s : State) : State := { s with cmdq := promotedCommands s }

/-- The outstanding transaction ended, with the response queue q (R207). -/
@[simps] def State.ended (q : List (QEntry Response)) (s : State) : State :=
  { s with
    rspq := q
    disp := { s.disp with busy := false, discard := false }
    io := { s.io with stb := false }
    fw := { s.fw with stb := false } }

/-- The outstanding command is answered at this edge (R207). -/
def State.answered (s : State) : Bool := Machine.answered (ioAnswer s) (fwAnswer s) s.disp.cur

/-- The response of the outstanding command, answered at this edge (R208). -/
def State.response (s : State) : Response := respond (ioAnswer s) (fwAnswer s) s.disp.cur

/-- The response queue after an answer: as it was if the response is discarded, else with the response, for which it has
room (R208). -/
def State.Delivers (s : State) (q : List (QEntry Response)) : Prop :=
  (s.disp.discard = true ∧ q = s.rspq) ∨
  (s.disp.discard = false ∧ s.rspq.length < 2 ∧ q = s.rspq ++ [{ payload := s.response, vis := false, age := 0 }])

/-- The moves of the dispatcher at a system edge that presents p, with the state each leads to (R204, R207, R214). -/
inductive BridgeMove (p : Presented) (s : State) : State → Prop where
  | wait : s.disp.busy = true → s.answered = false → BridgeMove p s s.agedCommands
  | finish {q : List (QEntry Response)} : s.disp.busy = true → s.answered = true → s.Delivers q →
      BridgeMove p s (s.agedCommands.ended q)
  | rest : s.disp.busy = false → p.command = none → BridgeMove p s s.agedCommands
  | take {c : Command} : s.disp.busy = false → p.command = some c → BridgeMove p s (dispatch c s.agedCommands)

/-- The dispatcher's step is one of its moves. -/
theorem bridgeMove_of_bridgeStep {p : Presented} {s s1 : State}
    (h : bridgeStep (ioAnswer s) (fwAnswer s) p.command s.agedCommands = some s1) : BridgeMove p s s1 := by
  unfold bridgeStep at h
  split at h
  · next hb =>
    obtain ⟨ha, e⟩ | ⟨-, -, -, e⟩ | ⟨q, ha, hq, e⟩ := complete_cases (ioAnswer s) (fwAnswer s) s.agedCommands
    · cases e.symm.trans h; exact .wait hb ha
    · cases e.symm.trans h
    · cases e.symm.trans h; exact .finish hb ha hq
  · next hb =>
    have hidle : s.disp.busy = false := Bool.eq_false_iff.mpr hb
    split at h
    · next hc => cases h; exact .rest hidle hc
    · next c hc => cases h; exact .take hidle hc

/-- Each move is the dispatcher's step. -/
theorem bridgeStep_of_bridgeMove {p : Presented} {s s1 : State} (h : BridgeMove p s s1) :
    bridgeStep (ioAnswer s) (fwAnswer s) p.command s.agedCommands = some s1 := by
  cases h with
  | wait hb ha =>
    exact (if_pos hb).trans (if_neg (Bool.eq_false_iff.mp ha))
  | @finish q hb ha hq =>
    refine (if_pos hb).trans ((if_pos ha).trans ?_)
    obtain ⟨hd, rfl⟩ | ⟨hd, hroom, rfl⟩ := hq
    · simp [hd]; rfl
    · simp [hd, pushEntry, Nat.not_le.mpr hroom]; rfl
  | rest hb hc => exact (if_neg (Bool.eq_false_iff.mp hb)).trans (by rw [hc])
  | take hb hc => exact (if_neg (Bool.eq_false_iff.mp hb)).trans (by rw [hc])

@[simp] theorem afterBridge_cfg (p : Presented) (s s1 : State) : (afterBridge p s s1).cfg = s1.cfg := rfl
@[simp] theorem afterBridge_psm (p : Presented) (s s1 : State) : (afterBridge p s s1).psm = s1.psm := rfl
@[simp] theorem afterBridge_cmdq (p : Presented) (s s1 : State) : (afterBridge p s s1).cmdq = s1.cmdq := rfl
@[simp] theorem afterBridge_rspq (p : Presented) (s s1 : State) : (afterBridge p s s1).rspq = s1.rspq := rfl
@[simp] theorem afterBridge_disp (p : Presented) (s s1 : State) : (afterBridge p s s1).disp = s1.disp := rfl
@[simp] theorem afterBridge_io (p : Presented) (s s1 : State) : (afterBridge p s s1).io = s1.io := rfl
@[simp] theorem afterBridge_fw (p : Presented) (s s1 : State) : (afterBridge p s s1).fw = s1.fw := rfl
@[simp] theorem afterBridge_bt (p : Presented) (s s1 : State) :
    (afterBridge p s s1).bt = btEdge s.cfg s.sysIn p.target p.host s.bt := rfl
@[simp] theorem afterBridge_ackExpected (p : Presented) (s s1 : State) :
    (afterBridge p s s1).ackExpected = (s.io.stb && !s.ackExpected) := rfl
@[simp] theorem afterBridge_fwWaited (p : Presented) (s s1 : State) :
    (afterBridge p s s1).fwWaited = (s.fw.stb && s1.fw.stb) := rfl
@[simp] theorem afterBridge_fwSlave (p : Presented) (s s1 : State) : (afterBridge p s s1).fwSlave = fwSlaveEdge s := rfl
@[simp] theorem afterBridge_ioSlave (p : Presented) (s s1 : State) : (afterBridge p s s1).ioSlave = ioSlaveEdge s := rfl

/-- A system edge that answers a next state resets, or takes a move of the dispatcher with the rest of the edge. -/
theorem sysEdge_moves {p : Presented} {s t : State} (h : sysEdge p s = .next t) :
    (s.sysIn.sysRst = true ∧ t = sysReset s) ∨
    (s.sysRunning ∧ ∃ s1, BridgeMove p s s1 ∧ t = afterBridge p s s1) := by
  obtain hreset | ⟨hr, s1, hs, ht⟩ := sysEdge_next h
  · exact .inl hreset
  · exact .inr ⟨hr, s1, bridgeMove_of_bridgeStep hs, ht⟩

/-- A system edge without reset answers a next state for each move of the dispatcher. -/
theorem sysEdge_of_bridgeMove {p : Presented} {s s1 : State} (hr : s.sysRunning) (h : BridgeMove p s s1) :
    sysEdge p s = .next (afterBridge p s s1) := by
  have hstep := bridgeStep_of_bridgeMove h
  rw [State.agedCommands] at hstep
  simp [sysEdge_eq, Bool.eq_false_iff.mp hr, hstep]

/-- A response for which there is no room is the fault of R208. -/
theorem sysEdge_overflow {s : State} (hr : s.sysRunning) (hb : s.disp.busy = true) (ha : s.answered = true)
    (hd : s.disp.discard = false) (hfull : 2 ≤ s.rspq.length) (p : Presented) :
    sysEdge p s = .fault .rspQueueOverflow := by
  have hstep : bridgeStep (ioAnswer s) (fwAnswer s) p.command s.agedCommands = none := by
    refine (if_pos hb).trans ((if_pos ha).trans ?_)
    simp [hd, pushEntry, hfull]
  rw [State.agedCommands] at hstep
  simp [sysEdge_eq, Bool.eq_false_iff.mp hr, hstep]

/-- With room for a response, or none to come, the dispatcher has a move. -/
theorem exists_bridgeMove (p : Presented) {s : State}
    (hroom : s.disp.busy = true → s.disp.discard = true ∨ s.rspq.length < 2) : ∃ s1, BridgeMove p s s1 := by
  cases hb : s.disp.busy with
  | false =>
    cases hc : p.command with
    | none => exact ⟨_, .rest hb hc⟩
    | some c => exact ⟨_, .take hb hc⟩
  | true =>
    cases ha : s.answered with
    | false => exact ⟨_, .wait hb ha⟩
    | true =>
      cases hd : s.disp.discard with
      | true => exact ⟨_, .finish hb ha (.inl ⟨hd, rfl⟩)⟩
      | false => exact ⟨_, .finish hb ha (.inr ⟨hd, (hroom hb).resolve_left (by simp [hd]), rfl⟩)⟩

end Sys2Proof.Machine
end

section
/-! PROOF. For O41: every PSM rule keeps the registers coherent and the drives of R106 and R107. -/

namespace Sys2Proof.Machine

/-! ## Operands while they are received -/

/-- R145 leaves the high address bits alone. -/
theorem shiftInIoAddr_high (o : NibbleOrder) (a : FwAddr) (n : Nibble) :
    (shiftInIoAddr o a n).extractLsb' 16 12 = a.extractLsb' 16 12 := by
  apply BitVec.eq_of_toNat_eq
  have hn := n.isLt
  have ha := a.isLt
  cases o <;>
    simp only [shiftInIoAddr, toNat_append_eq_add, BitVec.extractLsb'_toNat, Nat.shiftRight_eq_div_pow] <;> omega

/-- R149: a nibble more of the write data, which has one place more. -/
theorem shiftInData_lt (o : NibbleOrder) {data : Word} {cnt : BitVec 3} (h : data.toNat < 16 ^ cnt.toNat) (n : Nibble) :
    (shiftInData o data cnt n).toNat < 16 ^ (cnt.toNat + 1) := by
  have hn := n.isLt
  have hcnt := cnt.isLt
  have hpow : 16 ^ (cnt.toNat + 1) = 16 * 16 ^ cnt.toNat := by ring
  rw [hpow]
  cases o
  case lsnFirst =>
    rw [shiftInData_lsn_eq h, BitVec.toNat_ofNat]
    refine (Nat.mod_le _ _).trans_lt ?_
    have := Nat.mul_le_mul_left (16 ^ cnt.toNat) (Nat.le_of_lt_succ hn)
    omega
  case msnFirst =>
    rw [shiftInData_msn_eq (h.trans_le (Nat.pow_le_pow_right (by decide) (by omega))), BitVec.toNat_ofNat]
    refine (Nat.mod_le _ _).trans_lt ?_
    omega

/-- A counter below the places of its field, and not at the last, counts on without wrapping. -/
theorem succ_cnt_toNat {cnt : BitVec 3} {k : Nat} (hk : k ≤ 8) (hcnt : cnt.toNat < k) (hmore : cnt.toNat + 1 ≠ k) :
    (cnt + 1).toNat = cnt.toNat + 1 := by
  simp only [BitVec.toNat_add, BitVec.ofNat_eq_ofNat, BitVec.toNat_ofNat]
  omega

section
variable {p : Params} {h : HostIn} {m : Psm}

/-- R151. -/
theorem psmRule_rdSync (hn : HostIn.normal p h) (hst : m.st = .rdSync) (r : Option Response) :
    psmRule p h r m = psmRdSync r m := by
  simp [psmRule, hn.1, hn.2, hst]

/-- R155. -/
theorem psmRule_wrSync (hn : HostIn.normal p h) (hst : m.st = .wrSync) (r : Option Response) :
    psmRule p h r m = psmWrSync r m := by
  simp [psmRule, hn.1, hn.2, hst]

/-! ## Coherence, rule by rule -/

/-- START holds no operand. -/
theorem coherent_of_start (hst : m.st = .start) : m.Coherent := by
  simp [Psm.Coherent, hst]

theorem psmStartDecode_coherent (n : Nibble) (m : Psm) : (psmStartDecode n m).Coherent := by
  unfold psmStartDecode
  split_ifs <;> simp [Psm.Coherent, isIo]

theorem psmCycleType_coherent (hm : m.Coherent) (hst : m.st = .cycleType) (n : Nibble) :
    (psmCycleType n m).Coherent := by
  simp only [Psm.Coherent, hst] at hm
  unfold psmCycleType
  split <;> simp_all [Psm.Coherent, Psm.ioShape, isIo]

theorem psmIoAddr_coherent (hm : m.Coherent) (hst : m.st = .ioAddr) (n : Nibble) : (psmIoAddr p n m).Coherent := by
  simp only [Psm.Coherent, hst] at hm
  obtain ⟨hcnt, hio, hshape, hdata⟩ := hm
  have hshape' : { m with addr := shiftInIoAddr p.addrOrder m.addr n }.ioShape := by
    intro _
    rw [shiftInIoAddr_high]
    exact hshape hio
  unfold psmIoAddr
  split_ifs with hlast hop
  · exact ⟨Nat.zero_le 1, by rw [hop]; rfl, hshape', hdata⟩
  · have hsize := bytes_pos m.size
    have hwrite : isRead m.op = false := by cases hm : m.op <;> simp_all [isIo, isRead]
    exact ⟨Nat.mul_pos (by decide) hsize, hwrite, hshape', by simp [hdata]⟩
  · have hmore : m.cnt.toNat + 1 ≠ 4 := by bv_omega
    have hnext := succ_cnt_toNat (by decide) (by omega) hmore
    simp only [Psm.Coherent, hst]
    exact ⟨hnext.trans_le (by omega), hio, hshape', hdata⟩

theorem psmFwIdsel_coherent (hm : m.Coherent) (hst : m.st = .fwIdsel) (n : Nibble) : (psmFwIdsel p n m).Coherent := by
  simp only [Psm.Coherent, hst] at hm
  unfold psmFwIdsel
  split_ifs <;> simp_all [Psm.Coherent]

theorem psmFwAddr_coherent (hm : m.Coherent) (hst : m.st = .fwAddr) (n : Nibble) : (psmFwAddr p n m).Coherent := by
  simp only [Psm.Coherent, hst] at hm
  obtain ⟨hcnt, hio, hdata⟩ := hm
  unfold psmFwAddr
  split_ifs with hlast
  · simp [Psm.Coherent, hio, hdata]
  · have hmore : m.cnt.toNat + 1 ≠ 7 := by bv_omega
    have hnext := succ_cnt_toNat (by decide) (by omega) hmore
    simp only [Psm.Coherent, hst]
    exact ⟨hnext.trans_le (by omega), hio, hdata⟩

theorem psmFwMsize_coherent (hm : m.Coherent) (hst : m.st = .fwMsize) (n : Nibble) : (psmFwMsize n m).Coherent := by
  simp only [Psm.Coherent, hst] at hm
  obtain ⟨hcnt, hio, hdata⟩ := hm
  unfold psmFwMsize
  split
  · next z hz =>
    have hsize := bytes_pos z
    cases hop : m.op <;> simp_all [Psm.Coherent, Psm.ioShape, isIo, isRead]
  · simp [Psm.Coherent]

theorem psmWrData_coherent (hm : m.Coherent) (hst : m.st = .wrData) (n : Nibble) : (psmWrData p n m).Coherent := by
  simp only [Psm.Coherent, hst] at hm
  obtain ⟨hcnt, hread, hshape, hdata⟩ := hm
  have hdata' := shiftInData_lt p.wdataOrder hdata n
  unfold psmWrData
  split_ifs with hlast
  · rw [hlast, Nat.pow_mul] at hdata'
    exact ⟨by simp, hread, hshape, hdata'⟩
  · have hnext := succ_cnt_toNat (two_mul_bytes_le _) hcnt hlast
    rw [← hnext] at hdata'
    simp only [Psm.Coherent, hst]
    exact ⟨by omega, hread, hshape, hdata'⟩

/-- R150 and R154 end in the SYNC state of their turnaround. -/
theorem psmTar1_coherent {tar sync : PsmState}
    (htar : (tar = .rdTar1 ∧ sync = .rdSync) ∨ (tar = .wrTar1 ∧ sync = .wrSync))
    (hm : m.Coherent) (hst : m.st = tar) : (psmTar1 sync m).psm.Coherent := by
  unfold psmTar1
  obtain ⟨rfl, rfl⟩ | ⟨rfl, rfl⟩ := htar
  · simp only [Psm.Coherent, hst] at hm
    obtain ⟨-, hread, hshape, hdata⟩ := hm
    split_ifs
    · simp only [Psm.Coherent, hst]
      exact ⟨by decide, hread, hshape, hdata⟩
    · exact ⟨rfl, hread, hshape⟩
  · simp only [Psm.Coherent, hst] at hm
    obtain ⟨-, hwrite, hshape, hdata⟩ := hm
    split_ifs
    · simp only [Psm.Coherent, hst]
      exact ⟨by decide, hwrite, hshape, hdata⟩
    · exact ⟨rfl, hwrite, hshape⟩

/-- R10: a narrowed word fits its size. -/
theorem and_sizeMask_lt (d : Word) (z : Size) : (d &&& sizeMask z).toNat < 256 ^ z.bytes := by
  rw [and_sizeMask_toNat]
  exact Nat.mod_lt _ (by positivity)

theorem psmRdSync_coherent (hm : m.Coherent) (hst : m.st = .rdSync) (r : Option Response) :
    (psmRdSync r m).psm.Coherent := by
  have hsize := bytes_pos m.size
  simp only [Psm.Coherent, hst] at hm
  obtain ⟨hcnt, hread, hshape⟩ := hm
  cases r with
  | none =>
    simp only [psmRdSync, psmOutOnly_psm, Psm.Coherent, hst]
    exact ⟨hcnt, hread, hshape⟩
  | some r =>
    cases he : r.error with
    | true => exact coherent_of_start (by simp [psmRdSync, he])
    | false =>
      simp only [psmRdSync, he, Psm.Coherent]
      exact ⟨Nat.mul_pos (by decide) hsize, hread, and_sizeMask_lt _ _⟩

theorem psmWrSync_coherent (hm : m.Coherent) (hst : m.st = .wrSync) (r : Option Response) :
    (psmWrSync r m).psm.Coherent := by
  simp only [Psm.Coherent, hst] at hm
  obtain ⟨hcnt, hread, hshape⟩ := hm
  cases r with
  | none =>
    simp only [psmWrSync, psmOutOnly_psm, Psm.Coherent, hst]
    exact ⟨hcnt, hread, hshape⟩
  | some r => simp [psmWrSync, Psm.Coherent]

theorem psmRdData_coherent (hm : m.Coherent) (hst : m.st = .rdData) : (psmRdData p m).Coherent := by
  simp only [Psm.Coherent, hst] at hm
  obtain ⟨hcnt, hread, hdata⟩ := hm
  unfold psmRdData
  split_ifs with hlast
  · simp [Psm.Coherent]
  · have hnext := succ_cnt_toNat (two_mul_bytes_le _) hcnt hlast
    simp only [Psm.Coherent, hst]
    exact ⟨by omega, hread, hdata⟩

theorem psmTar2_coherent (hst : m.st = .tar2) : (psmTar2 m).Coherent := by
  unfold psmTar2
  split_ifs <;> simp [Psm.Coherent, hst]

/-- The PSM's rule keeps its registers coherent (R156). -/
theorem psmRule_coherent (hm : m.Coherent) (r : Option Response) : (psmRule p h r m).psm.Coherent := by
  cases hr : resetting p h with
  | true => rw [psmRule_resetting hr]; exact coherent_of_start rfl
  | false =>
    cases hf : framing p h with
    | true => rw [psmRule_framing hf hr]; exact psmStartDecode_coherent h.lad m
    | false =>
      have hn : HostIn.normal p h := ⟨hf, hr⟩
      cases hst : m.st with
      | start => rw [psmRule_start hn hst]; exact coherent_of_start rfl
      | cycleType => rw [psmRule_cycleType hn hst]; exact psmCycleType_coherent hm hst h.lad
      | fwIdsel => rw [psmRule_fwIdsel hn hst]; exact psmFwIdsel_coherent hm hst h.lad
      | ioAddr => rw [psmRule_ioAddr hn hst]; exact psmIoAddr_coherent hm hst h.lad
      | fwAddr => rw [psmRule_fwAddr hn hst]; exact psmFwAddr_coherent hm hst h.lad
      | fwMsize => rw [psmRule_fwMsize hn hst]; exact psmFwMsize_coherent hm hst h.lad
      | rdTar1 => rw [psmRule_rdTar1 hn hst]; exact psmTar1_coherent (.inl ⟨rfl, rfl⟩) hm hst
      | rdSync => rw [psmRule_rdSync hn hst]; exact psmRdSync_coherent hm hst r
      | rdData => rw [psmRule_rdData hn hst]; exact psmRdData_coherent hm hst
      | wrData => rw [psmRule_wrData hn hst]; exact psmWrData_coherent hm hst h.lad
      | wrTar1 => rw [psmRule_wrTar1 hn hst]; exact psmTar1_coherent (.inr ⟨rfl, rfl⟩) hm hst
      | wrSync => rw [psmRule_wrSync hn hst]; exact psmWrSync_coherent hm hst r
      | tar2 => rw [psmRule_tar2 hn hst]; exact psmTar2_coherent hst

/-! ## Drives, rule by rule -/

/-- A released bus is what every state before SYNC drives (R107). -/
theorem drives_of_released (hen : m.ladEn = false)
    (hst : m.st ≠ .rdSync ∧ m.st ≠ .wrSync ∧ m.st ≠ .rdData ∧ m.st ≠ .tar2) : m.Drives := by
  cases hm : m.st <;> simp_all [Psm.Drives]

/-- Between the start symbol and SYNC the bus is released (R107). -/
theorem released_of_drives (hm : m.Drives)
    (hst : m.st ≠ .start ∧ m.st ≠ .rdSync ∧ m.st ≠ .wrSync ∧ m.st ≠ .rdData ∧ m.st ≠ .tar2) : m.ladEn = false := by
  cases h : m.st <;> simp_all [Psm.Drives]

theorem psmStartDecode_drives (n : Nibble) (m : Psm) : (psmStartDecode n m).Drives :=
  drives_of_released (psmStartDecode_ladEn n m) (by obtain h | h | h := psmStartDecode_st n m <;> simp [h])

theorem psmCycleType_drives (hen : m.ladEn = false) (n : Nibble) : (psmCycleType n m).Drives := by
  unfold psmCycleType
  split <;> exact drives_of_released hen (by simp)

theorem psmIoAddr_drives (hen : m.ladEn = false) (hst : m.st = .ioAddr) (n : Nibble) : (psmIoAddr p n m).Drives := by
  unfold psmIoAddr
  split_ifs <;> exact drives_of_released hen (by simp [hst])

theorem psmFwIdsel_drives (hen : m.ladEn = false) (n : Nibble) : (psmFwIdsel p n m).Drives := by
  unfold psmFwIdsel
  split_ifs <;> exact drives_of_released hen (by simp)

theorem psmFwAddr_drives (hen : m.ladEn = false) (hst : m.st = .fwAddr) (n : Nibble) : (psmFwAddr p n m).Drives := by
  unfold psmFwAddr
  split_ifs <;> exact drives_of_released hen (by simp [hst])

theorem psmFwMsize_drives (hen : m.ladEn = false) (n : Nibble) : (psmFwMsize n m).Drives := by
  unfold psmFwMsize
  split
  · exact drives_of_released hen (by dsimp only; split_ifs <;> simp)
  · exact drives_of_released hen (by simp)

theorem psmWrData_drives (hen : m.ladEn = false) (hst : m.st = .wrData) (n : Nibble) : (psmWrData p n m).Drives := by
  unfold psmWrData
  split_ifs <;> exact drives_of_released hen (by simp [hst])

/-- R150 and R154: the first edge leaves the bus released, the second drives the long wait of SYNC. -/
theorem psmTar1_drives {sync : PsmState} (hen : m.ladEn = false) (hst : m.st = .rdTar1 ∨ m.st = .wrTar1)
    (hsync : sync = .rdSync ∨ sync = .wrSync) : (psmTar1 sync m).psm.Drives := by
  unfold psmTar1
  split_ifs
  · exact drives_of_released hen (by obtain h | h := hst <;> simp [h])
  · obtain rfl | rfl := hsync <;> exact ⟨rfl, rfl⟩

theorem psmRdSync_drives (hm : m.Drives) (hst : m.st = .rdSync) (r : Option Response) : (psmRdSync r m).psm.Drives := by
  obtain ⟨hen, -⟩ := drives_sync hm (.inl hst)
  cases r with
  | none => simp [psmRdSync, Psm.Drives, hst, hen]
  | some r => cases he : r.error <;> simp [psmRdSync, he, Psm.Drives, hen]

theorem psmWrSync_drives (hm : m.Drives) (hst : m.st = .wrSync) (r : Option Response) : (psmWrSync r m).psm.Drives := by
  obtain ⟨hen, -⟩ := drives_sync hm (.inr hst)
  cases r with
  | none => simp [psmWrSync, Psm.Drives, hst, hen]
  | some r => simp [psmWrSync, Psm.Drives, hen]

/-- R152: a data nibble that is not the last leaves the ready cycle behind. -/
theorem psmRdData_drives (hc : m.Coherent) (hm : m.Drives) (hst : m.st = .rdData) : (psmRdData p m).Drives := by
  simp only [Psm.Coherent, hst] at hc
  simp only [Psm.Drives, hst] at hm
  obtain ⟨hcnt, -, -⟩ := hc
  obtain ⟨hen, -⟩ := hm
  unfold psmRdData
  split_ifs with hlast
  · simp [Psm.Drives, hen]
  · have hnext := succ_cnt_toNat (two_mul_bytes_le _) hcnt hlast
    have hcounted : m.cnt + 1 ≠ 0 := by intro h0; rw [h0] at hnext; simp at hnext
    simp only [Psm.Drives, hst]
    exact ⟨hen, fun h0 => absurd h0 hcounted⟩

theorem psmTar2_drives (hst : m.st = .tar2) : (psmTar2 m).Drives := by
  unfold psmTar2
  split_ifs <;> simp [Psm.Drives, hst]

/-- The PSM's rule keeps the drives of each state (R156, R106, R107). -/
theorem psmRule_drives (hc : m.Coherent) (hm : m.Drives) (r : Option Response) : (psmRule p h r m).psm.Drives := by
  cases hr : resetting p h with
  | true => rw [psmRule_resetting hr]; exact drives_of_released rfl (by simp)
  | false =>
    cases hf : framing p h with
    | true => rw [psmRule_framing hf hr]; exact psmStartDecode_drives h.lad m
    | false =>
      have hn : HostIn.normal p h := ⟨hf, hr⟩
      cases hst : m.st with
      | start => rw [psmRule_start hn hst]; exact drives_of_released rfl (by simp [psmStart])
      | rdSync => rw [psmRule_rdSync hn hst]; exact psmRdSync_drives hm hst r
      | wrSync => rw [psmRule_wrSync hn hst]; exact psmWrSync_drives hm hst r
      | rdData => rw [psmRule_rdData hn hst]; exact psmRdData_drives hc hm hst
      | tar2 => rw [psmRule_tar2 hn hst]; exact psmTar2_drives hst
      | cycleType =>
        rw [psmRule_cycleType hn hst]
        exact psmCycleType_drives (released_of_drives hm (by simp [hst])) h.lad
      | fwIdsel =>
        rw [psmRule_fwIdsel hn hst]
        exact psmFwIdsel_drives (released_of_drives hm (by simp [hst])) h.lad
      | ioAddr =>
        rw [psmRule_ioAddr hn hst]
        exact psmIoAddr_drives (released_of_drives hm (by simp [hst])) hst h.lad
      | fwAddr =>
        rw [psmRule_fwAddr hn hst]
        exact psmFwAddr_drives (released_of_drives hm (by simp [hst])) hst h.lad
      | fwMsize =>
        rw [psmRule_fwMsize hn hst]
        exact psmFwMsize_drives (released_of_drives hm (by simp [hst])) h.lad
      | wrData =>
        rw [psmRule_wrData hn hst]
        exact psmWrData_drives (released_of_drives hm (by simp [hst])) hst h.lad
      | rdTar1 =>
        rw [psmRule_rdTar1 hn hst]
        exact psmTar1_drives (released_of_drives hm (by simp [hst])) (.inl hst) (.inl rfl)
      | wrTar1 =>
        rw [psmRule_wrTar1 hn hst]
        exact psmTar1_drives (released_of_drives hm (by simp [hst])) (.inr hst) (.inr rfl)

end
end Sys2Proof.Machine
end

section
/-! PROOF. O41, O42 and O43: the invariant of the machine, part by part, over host edges and over system edges. -/

namespace Sys2Proof.Machine

/-! ## The item in flight over a host edge (R212) -/

/-- What a rule's outcome does with the item in flight, where the response queue shows r: it may hand a command over, and then
waits for its response; it takes the response it waited for; or it moves no item and keeps on waiting if it waited. -/
def Psm.MovesItem (m : Psm) (r : Option Response) (o : PsmOut) : Prop :=
  (o.deq = false ∧ m.waiting = false ∧ o.psm.waiting = true) ∨
  (o.enq = none ∧ o.deq = true ∧ m.waiting = true ∧ ∃ x, r = some x) ∨
  (o.enq = none ∧ o.deq = false ∧ (m.waiting = true → o.psm.waiting = true))

section
variable {m : Psm}

/-- A rule that writes the registers only moves no item. -/
theorem movesItem_only (hw : m.waiting = false) (r : Option Response) (m' : Psm) : m.MovesItem r (.only m') :=
  .inr (.inr ⟨rfl, rfl, fun h => absurd (hw.symm.trans h) Bool.false_ne_true⟩)

/-- R150 and R154: the first turnaround edge hands the command over, the second waits for its response. -/
theorem psmTar1_movesItem {sync : PsmState} (hst : m.st = .rdTar1 ∨ m.st = .wrTar1)
    (hsync : sync = .rdSync ∨ sync = .wrSync) (r : Option Response) : m.MovesItem r (psmTar1 sync m) := by
  unfold psmTar1
  split_ifs with hc
  · refine .inl ⟨rfl, ?_, ?_⟩ <;> obtain hst | hst := hst <;> simp [Psm.waiting, hst, hc]
  · refine .inr (.inr ⟨rfl, rfl, fun _ => ?_⟩)
    obtain rfl | rfl := hsync <;> rfl

/-- R151: the response is taken if there is one to see. -/
theorem psmRdSync_movesItem (hst : m.st = .rdSync) (r : Option Response) : m.MovesItem r (psmRdSync r m) := by
  have hw : m.waiting = true := by simp [Psm.waiting, hst]
  cases r with
  | none => exact .inr (.inr ⟨rfl, rfl, fun _ => hw⟩)
  | some x => refine .inr (.inl ⟨?_, ?_, hw, x, rfl⟩) <;> cases he : x.error <;> simp [psmRdSync, he]

/-- R155: the response is taken if there is one to see. -/
theorem psmWrSync_movesItem (hst : m.st = .wrSync) (r : Option Response) : m.MovesItem r (psmWrSync r m) := by
  have hw : m.waiting = true := by simp [Psm.waiting, hst]
  cases r with
  | none => exact .inr (.inr ⟨rfl, rfl, fun _ => hw⟩)
  | some x => exact .inr (.inl ⟨rfl, rfl, hw, x, rfl⟩)

/-- The PSM's rule at an undisturbed edge moves at most the one item (R156, R212). -/
theorem psmRule_movesItem {p : Params} {h : HostIn} (hn : HostIn.normal p h) (r : Option Response) :
    m.MovesItem r (psmRule p h r m) := by
  cases hst : m.st with
  | rdTar1 => rw [psmRule_rdTar1 hn hst]; exact psmTar1_movesItem (.inl hst) (.inl rfl) r
  | wrTar1 => rw [psmRule_wrTar1 hn hst]; exact psmTar1_movesItem (.inr hst) (.inr rfl) r
  | rdSync => rw [psmRule_rdSync hn hst]; exact psmRdSync_movesItem hst r
  | wrSync => rw [psmRule_wrSync hn hst]; exact psmWrSync_movesItem hst r
  | _ =>
    simp only [psmRule, hn.1, hn.2, hst]
    exact movesItem_only (by simp [Psm.waiting, hst]) r _

end

/-- The command queue grows by the handed-over command at most. -/
theorem enqueueCommand_length_le {e : Option Command} {q q' : List (QEntry Command)} (h : enqueueCommand e q = some q') :
    q'.length ≤ q.length + 1 := by
  obtain ⟨-, rfl⟩ | ⟨c, -, -, rfl⟩ := enqueueCommand_some h <;> simp

/-- An undisturbed rule keeps the occupancy invariant. -/
theorem afterPsm_occupancyInv {s : State} {q : List (QEntry Command)} (hn : s.hostNormal) (hs : s.OccupancyInv)
    (hq : enqueueCommand (psmOut s).enq s.cmdq = some q) : (afterPsm s q).OccupancyInv := by
  have hlen : (promotedResponses s).length = s.rspq.length := promote_length ..
  have hkept : (psmOut s).enq = none → q = s.cmdq := by
    intro he
    rw [he] at hq
    exact (Option.some.inj hq).symm
  have hitem : s.psm.MovesItem (visibleHead (promotedResponses s)) (psmOut s) := psmRule_movesItem hn _
  have hwaiting : (afterPsm s q).psm.waiting = (psmOut s).psm.waiting := rfl
  have hocc : (afterPsm s q).occupancy = q.length +
      (if (psmOut s).deq then (promotedResponses s).tail else promotedResponses s).length +
      (if s.disp.busy && !s.disp.discard then 1 else 0) := rfl
  simp only [State.OccupancyInv, State.occupancy] at hs
  rw [State.OccupancyInv, hocc, hwaiting]
  obtain ⟨hdeq, hw, hw'⟩ | ⟨henq, hdeq, hw, x, hx⟩ | ⟨henq, hdeq, hw⟩ := hitem
  · have hgrown := enqueueCommand_length_le hq
    rw [if_neg (Bool.eq_false_iff.mp hw)] at hs
    rw [if_neg (Bool.eq_false_iff.mp hdeq), if_pos hw', hlen]
    omega
  · have htaken := length_of_visibleHead hx
    rw [if_pos hw] at hs
    rw [if_pos hdeq, hkept henq]
    omega
  · rw [if_neg (Bool.eq_false_iff.mp hdeq), hkept henq, hlen]
    refine hs.trans ?_
    cases hw0 : s.psm.waiting with
    | true => rw [hw hw0]
    | false => exact Nat.zero_le _

/-- A host edge that applies no queue reset samples no active line. -/
theorem hostNormal_of_noQueueReset {s : State} (h : s.noQueueReset) : s.hostNormal := by
  simp only [State.noQueueReset, queueResetDue, Bool.or_eq_false_iff] at h
  obtain ⟨⟨⟨hframe, -⟩, hreset⟩, -⟩ := h
  exact ⟨hframe, hreset⟩

/-- Nothing is in flight: both queues are empty, and an outstanding transaction will be discarded (R213). -/
def State.NothingInFlight (s : State) : Prop :=
  s.cmdq = [] ∧ s.rspq = [] ∧ (s.disp.busy = true → s.disp.discard = true)

theorem occupancy_of_nothingInFlight {s : State} (h : s.NothingInFlight) : s.occupancy = 0 := by
  obtain ⟨hcmdq, hrspq, hdiscard⟩ := h
  cases hb : s.disp.busy with
  | false => simp [State.occupancy, hcmdq, hrspq, hb]
  | true => simp [State.occupancy, hcmdq, hrspq, hb, hdiscard hb]

/-- A queue reset leaves nothing in flight (R213). -/
theorem queueReset_nothingInFlight (race : Bool) (s : State) : (queueReset race s).NothingInFlight :=
  ⟨rfl, rfl, queueReset_discard race s⟩

/-- The two outcomes of a host edge: the rule's state, or that state after the queue reset. -/
theorem hostEdge_cases {s t : State} (h : hostEdge s = .next t) :
    ∃ q, enqueueCommand (psmOut s).enq s.cmdq = some q ∧
      ((s.noQueueReset ∧ t = afterPsm s q) ∨
       (queueResetDue s.cfg s.hostIn s.psm = true ∧ t = queueReset s.hostIn.race (afterPsm s q))) := by
  obtain ⟨q, hq, rfl⟩ := hostEdge_next h
  refine ⟨q, hq, ?_⟩
  cases hdue : queueResetDue s.cfg s.hostIn s.psm with
  | false => exact .inl ⟨hdue, by simp⟩
  | true => exact .inr ⟨rfl, by simp⟩

theorem hostEdge_occupancyInv {s t : State} (hs : s.OccupancyInv) (h : hostEdge s = .next t) : t.OccupancyInv := by
  obtain ⟨q, hq, ⟨hno, rfl⟩ | ⟨-, rfl⟩⟩ := hostEdge_cases h
  · exact afterPsm_occupancyInv (hostNormal_of_noQueueReset hno) hs hq
  · exact (occupancy_of_nothingInFlight (queueReset_nothingInFlight ..)).trans_le (Nat.zero_le _)

/-! ## The buses and the queues over a host edge (R202, R209) -/

/-- A queue reset drives only the bus of the command it takes, from an idle dispatcher (R209, R210). -/
theorem queueReset_busInv {s : State} (hs : s.BusInv) (race : Bool) : (queueReset race s).BusInv := by
  obtain ⟨hio, hfw, hsel, hdiscard⟩ := hs
  obtain ⟨hb, e⟩ | ⟨hb, -, e⟩ | ⟨c, hb, -, -, e⟩ | ⟨c, hb, -, -, e⟩ := queueReset_cases race s <;> rw [e]
  · exact ⟨hio, hfw, hsel, fun _ => hb⟩
  · exact ⟨hio, hfw, hsel, hdiscard⟩
  · exact ⟨hio, hfw, hsel, hdiscard⟩
  · cases hc : isIo c.operation <;> simp [State.BusInv, driveBus_io, driveBus_fw, hc, hio, hfw, hsel, hb]

theorem hostEdge_busInv {s t : State} (hs : s.BusInv) (h : hostEdge s = .next t) : t.BusInv := by
  obtain ⟨q, -, ⟨-, rfl⟩ | ⟨-, rfl⟩⟩ := hostEdge_cases h
  · exact hs
  · exact queueReset_busInv (s := afterPsm s q) hs _

theorem hostEdge_crossingInv {s t : State} (hs : s.CrossingInv) (h : hostEdge s = .next t) : t.CrossingInv := by
  obtain ⟨hcmdq, hrspq⟩ := hs
  obtain ⟨q, hq, ⟨-, rfl⟩ | ⟨-, rfl⟩⟩ := hostEdge_cases h
  · have hpromoted : ∀ e ∈ promotedResponses s, e.aged s.cfg.cdcMin := promote_aged hrspq
    refine ⟨?cmd, ?rsp⟩
    case cmd =>
      obtain ⟨-, rfl⟩ | ⟨c, -, -, rfl⟩ := enqueueCommand_some hq
      · exact hcmdq
      · exact List.forall_mem_append.mpr ⟨hcmdq, List.forall_mem_singleton.mpr (aged_new _ c)⟩
    case rsp =>
      simp only [afterPsm]
      split_ifs
      · exact fun e he => hpromoted e (mem_tail he)
      · exact hpromoted
  · exact ⟨by simp, by simp⟩

/-- A queue reset leaves the firmware strobe as it was or sets it (R210). -/
theorem queueReset_fwStb {s : State} (h : s.fw.stb = true) (race : Bool) : (queueReset race s).fw.stb = true := by
  obtain ⟨-, e⟩ | ⟨-, -, e⟩ | ⟨c, -, -, -, e⟩ | ⟨c, -, -, -, e⟩ := queueReset_cases race s <;> rw [e]
  · exact h
  · exact h
  · exact h
  · cases hc : isIo c.operation <;> simp [driveBus_fw, hc, h]

theorem hostEdge_slaveInv {s t : State} (hs : s.SlaveInv) (h : hostEdge s = .next t) : t.SlaveInv := by
  obtain ⟨hwaited, hack⟩ := hs
  obtain ⟨q, -, ⟨-, rfl⟩ | ⟨-, rfl⟩⟩ := hostEdge_cases h
  · exact ⟨hwaited, hack⟩
  · refine ⟨fun hw => ?_, ?_⟩
    · rw [queueReset_fwWaited] at hw
      exact queueReset_fwStb (s := afterPsm s q) (hwaited hw) _
    · rw [queueReset_cfg, queueReset_fwSlave, queueReset_fwWaited]
      exact hack

/-- A host edge keeps the invariant, at any inputs and draws. -/
theorem hostEdge_inv {s t : State} (hs : s.Inv) (h : hostEdge s = .next t) : t.Inv := by
  obtain ⟨hcfg, -, hbt, hfw, hio, -⟩ := hostEdge_keeps h
  have hpsm := hostEdge_psm h
  constructor
  case occupancy => exact hostEdge_occupancyInv hs.occupancy h
  case bus => exact hostEdge_busInv hs.bus h
  case crossing => exact hostEdge_crossingInv hs.crossing h
  case coherent => rw [hpsm]; exact psmRule_coherent hs.coherent _
  case drives => rw [hpsm]; exact psmRule_drives hs.coherent hs.drives _
  case fifo => rw [State.FifoInv, hcfg, hbt]; exact hs.fifo
  case pushed => rw [State.PushedInv, hbt]; exact hs.pushed
  case memory => rw [State.MemoryInv, hfw, hio]; exact hs.memory
  case slave => exact hostEdge_slaveInv hs.slave h

/-! ## The dispatcher's move (R202, R209, R212) -/

/-- A move of the dispatcher at what the state presents passes the item in flight on, or drops it. -/
theorem bridgeMove_occupancy_le {s s1 : State} (h : BridgeMove (presented s) s s1) : s1.occupancy ≤ s.occupancy := by
  have hlen : (promotedCommands s).length = s.cmdq.length := promote_length ..
  cases h with
  | wait => simp [State.occupancy, hlen]
  | rest => simp [State.occupancy, hlen]
  | @take c hb hc =>
    have htaken : (promotedCommands s).length = _ := length_of_visibleHead hc
    have hbefore : s.occupancy = s.cmdq.length + s.rspq.length := by simp [State.occupancy, hb]
    have hafter : (dispatch c s.agedCommands).occupancy = (promotedCommands s).tail.length + s.rspq.length + 1 := by
      simp only [State.occupancy, dispatch_cmdq, dispatch_rspq, dispatch_disp]
      rfl
    omega
  | @finish q hb ha hq =>
    obtain ⟨hd, rfl⟩ | ⟨hd, -, rfl⟩ := hq <;> simp [State.occupancy, hlen, hb, hd, Nat.add_assoc]

/-- A move of the dispatcher drives the bus of the command it takes, and releases both when it ends one (R209). -/
theorem bridgeMove_busInv {p : Presented} {s s1 : State} (hs : s.BusInv) (h : BridgeMove p s s1) : s1.BusInv := by
  obtain ⟨hio, hfw, hsel, hdiscard⟩ := hs
  cases h with
  | wait => exact ⟨hio, hfw, hsel, hdiscard⟩
  | rest => exact ⟨hio, hfw, hsel, hdiscard⟩
  | @take c hb hc =>
    cases hop : isIo c.operation <;> simp [State.BusInv, dispatch_io, dispatch_fw, hop, hio, hfw, hsel, hb]
  | finish => simp [State.BusInv, hsel]

/-- A move of the dispatcher makes no entry visible before its time (R202). -/
theorem bridgeMove_crossingInv {p : Presented} {s s1 : State} (hs : s.CrossingInv) (h : BridgeMove p s s1) :
    s1.CrossingInv := by
  obtain ⟨hcmdq, hrspq⟩ := hs
  have hpromoted : ∀ e ∈ promotedCommands s, e.aged s.cfg.cdcMin := promote_aged hcmdq
  cases h with
  | wait => exact ⟨hpromoted, hrspq⟩
  | rest => exact ⟨hpromoted, hrspq⟩
  | take =>
    refine ⟨?_, ?_⟩
    · rw [dispatch_cmdq, dispatch_cfg]
      exact fun e he => hpromoted e (mem_tail he)
    · rw [dispatch_rspq, dispatch_cfg]
      exact hrspq
  | finish _ _ hq =>
    refine ⟨hpromoted, ?_⟩
    obtain ⟨-, rfl⟩ | ⟨-, -, rfl⟩ := hq
    · exact hrspq
    · exact List.forall_mem_append.mpr ⟨hrspq, List.forall_mem_singleton.mpr (aged_new _ _)⟩

theorem bridgeMove_keeps {p : Presented} {s s1 : State} (h : BridgeMove p s s1) : s1.cfg = s.cfg ∧ s1.psm = s.psm := by
  cases h <;> simp

/-! ## The slaves and the BT over a system edge -/

/-- FWMEM acknowledges only what it samples (R221). -/
theorem fwStb_of_fwSlaveEdge_ack {s : State} (hmem : s.cfg.fwMem = true) (h : (fwSlaveEdge s).ack = true) :
    s.fw.stb = true ∧ s.fwSlave.ack = false := by
  cases hs : (s.cfg.fwMem && !s.fwSlave.ack && s.fw.stb) with
  | false => rw [fwSlaveEdge_idle hs hmem] at h; cases h
  | true => simpa [hmem, and_comm] using hs

/-- While FWMEM does not acknowledge, the strobe it samples stays. -/
theorem bridgeMove_fwStb {p : Presented} {s s1 : State} (hs : s.BusInv) (hmem : s.cfg.fwMem = true)
    (hstb : s.fw.stb = true) (hack : s.fwSlave.ack = false) (h : BridgeMove p s s1) : s1.fw.stb = true := by
  obtain ⟨-, hfw, -⟩ := hs
  have houtstanding : s.disp.busy = true ∧ isIo s.disp.cur.operation = false := by
    simpa [hstb] using hfw
  obtain ⟨hb, hop⟩ := houtstanding
  cases h with
  | wait => exact hstb
  | rest hidle => cases hb.symm.trans hidle
  | take hidle => cases hb.symm.trans hidle
  | finish _ ha => simp [State.answered, Machine.answered, hop, fwAnswer, hmem, hack] at ha

/-- R243: a FIFO within its depth stays within it. -/
theorem fifoNext_length_le {depth : Nat} {old : List Byte} (h : old.length ≤ depth) (clr drop : Bool)
    (push : Option Byte) (pop : Bool) : (fifoNext depth clr drop push pop old).length ≤ depth := by
  have hrest : (if pop then old.tail else old).length ≤ old.length := by
    split_ifs <;> simp
  cases clr with
  | true => exact Nat.zero_le _
  | false =>
    cases push with
    | none => exact hrest.trans h
    | some b =>
      by_cases hroom : old.length < depth ∧ drop = false
      · have hpushed : ((if pop then old.tail else old) ++ [b]).length ≤ depth := by
          rw [List.length_append, List.length_singleton]
          omega
        simpa [fifoNext, hroom] using hpushed
      · simpa [fifoNext, hroom] using hrest.trans h

/-- A window that serves an access is in ACK next (R240). -/
theorem next_ack_of_serves {α : Type} {w : Window} {a : Option α} {x : α} (h : w.serves a = some x)
    (v : α → Option Byte) : (w.next ((w.serves a).map v)).st = .ack := by
  rw [h]
  cases hst : w.st with
  | ack => simp [Window.serves, hst] at h
  | idle => cases hv : v x <;> simp [Window.next, hst, hv]

/-- A push is taken only of a byte pushed. -/
theorem push_of_pushTaken {depth : Nat} {clr drop : Bool} {push : Option Byte} {old : List Byte}
    (h : pushTaken depth clr drop push old = true) : push.isSome = true := by
  simp only [pushTaken, Bool.and_eq_true] at h
  exact h.1.1.1

/-- The BT's edge marks a FIFO as pushed only when its writer's window serves an access, and is in ACK next (R252). -/
theorem btEdge_pushed (p : Params) (i : SysIn) (t : Option TAccess) (h : Option HAccess) (b : Bt) :
    ((btEdge p i t h b).pushedT2h = true → (btEdge p i t h b).tWin.st = .ack) ∧
    ((btEdge p i t h b).pushedH2t = true → (btEdge p i t h b).hWin.st = .ack) := by
  constructor <;> intro hp
  · have hpush := push_of_pushTaken hp
    cases hserved : b.tWin.serves t with
    | none => rw [hserved] at hpush; cases hpush
    | some a => exact next_ack_of_serves hserved _
  · have hpush := push_of_pushTaken hp
    cases hserved : b.hWin.serves h with
    | none => rw [hserved] at hpush; cases hpush
    | some a => exact next_ack_of_serves hserved _

/-! ## The system edge -/

/-- A system reset keeps the invariant: it empties the system domain and leaves the host domain alone (R42, R211). -/
theorem sysReset_inv {s : State} (hs : s.Inv) : (sysReset s).Inv := by
  constructor
  case occupancy => exact Nat.zero_le _
  case bus => exact ⟨rfl, rfl, rfl, id⟩
  case crossing => exact ⟨by simp, by simp⟩
  case coherent => exact hs.coherent
  case drives => exact hs.drives
  case fifo => exact ⟨Nat.zero_le _, Nat.zero_le _⟩
  case pushed => exact ⟨nofun, nofun⟩
  case memory => exact ⟨rfl, rfl⟩
  case slave => exact ⟨nofun, fun _ => nofun⟩

/-- A running system edge keeps the slaves' part of the invariant: FWMEM's acknowledge answers a strobe that stays. -/
theorem afterBridge_slaveInv {p : Presented} {s s1 : State} (hs : s.Inv) (h : BridgeMove p s s1) :
    (afterBridge p s s1).SlaveInv := by
  obtain ⟨hcfg, -⟩ := bridgeMove_keeps h
  refine ⟨fun hw => ?_, fun hmem hack => ?_⟩
  · rw [afterBridge_fwWaited, Bool.and_eq_true] at hw
    exact hw.2
  · rw [afterBridge_cfg, hcfg] at hmem
    obtain ⟨hstb, hquiet⟩ := fwStb_of_fwSlaveEdge_ack hmem hack
    rw [afterBridge_fwWaited, hstb, bridgeMove_fwStb hs.bus hmem hstb hquiet h]
    rfl

/-- A system edge keeps the invariant, at any inputs and draws. -/
theorem sysEdge_inv {s t : State} (hs : s.Inv) (h : sysEdge (presented s) s = .next t) : t.Inv := by
  obtain ⟨-, rfl⟩ | ⟨-, s1, hmove, rfl⟩ := sysEdge_moves h
  · exact sysReset_inv hs
  · obtain ⟨hcfg, hpsm⟩ := bridgeMove_keeps hmove
    obtain ⟨ht2h, hh2t⟩ := hs.fifo
    constructor
    case occupancy =>
      refine (bridgeMove_occupancy_le hmove).trans ?_
      rw [afterBridge_psm, hpsm]
      exact hs.occupancy
    case bus => exact (bridgeMove_busInv hs.bus hmove :)
    case crossing => exact (bridgeMove_crossingInv hs.crossing hmove :)
    case coherent => rw [afterBridge_psm, hpsm]; exact hs.coherent
    case drives => rw [afterBridge_psm, hpsm]; exact hs.drives
    case fifo =>
      rw [State.FifoInv, afterBridge_cfg, hcfg]
      exact ⟨fifoNext_length_le ht2h .., fifoNext_length_le hh2t ..⟩
    case pushed => exact btEdge_pushed ..
    case memory =>
      obtain ⟨hfw, hio⟩ := hs.memory
      exact ⟨fwSlaveEdge_wf hfw, ioSlaveEdge_wf hio⟩
    case slave => exact afterBridge_slaveInv hs hmove

/-! ## The step -/

/-- A tick keeps the invariant; it reads no inputs of an earlier one. -/
theorem tick_inv {x : Tick} {s t : State} (hs : s.Inv) (h : tick x s = .next t) : t.Inv := by
  cases x with
  | host i =>
    rw [tick, hostTick_eq] at h
    exact hostEdge_inv (s := { s with hostIn := i }) { hs with } h
  | sys i =>
    rw [tick, sysTick_eq] at h
    exact sysEdge_inv (s := { s with sysIn := i }) { hs with } h

/-- Taking the next edge from the script or the environment keeps the invariant. -/
theorem nextTick_inv {s : State} (hs : s.Inv) : (nextTick s).2.Inv := by
  unfold nextTick
  split <;> exact { hs with }

/-- Settles O41: the next edge is taken, and host edges and system edges keep each part of the invariant. -/
theorem stepKeepsInv : Obligations.StepKeepsInv :=
  fun _ _ hs h => tick_inv (nextTick_inv hs) h

/-- With at most one item in flight both queues have room (R212). -/
theorem queues_room {s : State} (hs : s.OccupancyInv) : s.cmdq.length < 2 ∧ s.rspq.length < 2 := by
  simp only [State.OccupancyInv, State.occupancy] at hs
  split_ifs at hs <;> omega

/-- A host edge from a state of the invariant has room for the command it hands over (R201, R212). -/
theorem exists_hostEdge {s : State} (hs : s.OccupancyInv) : ∃ t, hostEdge s = .next t := by
  obtain ⟨hroom, -⟩ := queues_room hs
  have henq : ∃ q, enqueueCommand (psmOut s).enq s.cmdq = some q := by
    cases (psmOut s).enq with
    | none => exact ⟨_, rfl⟩
    | some c => exact ⟨_, enqueueCommand_room hroom c⟩
  obtain ⟨q, hq⟩ := henq
  exact ⟨_, by rw [hostEdge_eq, hq]⟩

/-- A system edge from a state of the invariant has room for the response of its outstanding transaction (R208, R212). -/
theorem exists_sysEdge {s : State} (hs : s.OccupancyInv) (p : Presented) : ∃ t, sysEdge p s = .next t := by
  obtain ⟨-, hroom⟩ := queues_room hs
  cases hr : s.sysIn.sysRst with
  | true => exact ⟨_, sysEdge_of_sysRst hr p⟩
  | false =>
    obtain ⟨s1, hmove⟩ := exists_bridgeMove p (fun _ => .inr hroom)
    exact ⟨_, sysEdge_of_bridgeMove hr hmove⟩

/-- Settles O42: with at most one item in flight neither queue overflows. -/
theorem stepNeverStops : Obligations.StepNeverStops := by
  intro s hs
  have hs' := (nextTick_inv hs).occupancy
  unfold step
  cases (nextTick s).1 with
  | host i =>
    rw [tick, hostTick_eq]
    exact exists_hostEdge (s := { (nextTick s).2 with hostIn := i }) hs'
  | sys i =>
    rw [tick, sysTick_eq]
    exact exists_sysEdge (s := { (nextTick s).2 with sysIn := i }) hs' _

/-- Settles O43: the step keeps the invariant, whose bus part gives each strobe its own operation. -/
theorem oneBusAtATime : Obligations.OneBusAtATime := by
  intro s t hs hst
  have ht : t.Inv := by
    obtain rfl | hstep := hst
    · exact hs
    · exact stepKeepsInv s t hs hstep
  obtain ⟨hio, hfw, -⟩ := ht.bus
  rw [hio, hfw]
  cases t.disp.cur.operation <;> simp [isIo]

end Sys2Proof.Machine
end

section
/-! PROOF. O31, O32, O33 and O34: the dispatch of a bridge command, and the completion of the outstanding one. -/

namespace Sys2Proof.Machine

/-! ## Dispatch -/

/-- An idle dispatcher takes the command presented to it (R204). -/
theorem dispatchEdge_of_idle {s : State} (hr : s.sysRunning) (hb : s.disp.busy = false) (c : Command) :
    dispatchEdge c s = .next (afterBridge { presented s with command := some c } s (dispatch c s.agedCommands)) :=
  sysEdge_of_bridgeMove hr (.take hb rfl)

/-- Settles O31: the edge is the dispatch of the I/O command, which drives the I/O bus alone. -/
theorem ioCommandsDispatch : Obligations.IoCommandsDispatch := by
  rintro s a d z i w (⟨rfl, rfl⟩ | ⟨rfl, rfl⟩) hr hb
  · exact ⟨_, dispatchEdge_of_idle hr hb ⟨a, d, .ioRead, z⟩, rfl, rfl, rfl, rfl, rfl, rfl, rfl⟩
  · exact ⟨_, dispatchEdge_of_idle hr hb ⟨a, d, .ioWrite, z⟩, rfl, rfl, rfl, rfl, rfl, rfl, rfl⟩

/-- The lane mask in numbers (R73). -/
theorem laneSelect_toNat (z : Size) (a : FwAddr) :
    (laneSelect z a).toNat = (2 ^ z.bytes - 1) * 2 ^ (a.toNat % 4 &&& (4 - z.bytes)) := by
  have hmask : (laneMask z).toNat = 2 ^ z.bytes - 1 := by cases z <;> rfl
  have hfits : (2 ^ z.bytes - 1) * 2 ^ laneOffset z a < 2 ^ 4 := calc
    (2 ^ z.bytes - 1) * 2 ^ laneOffset z a < 2 ^ z.bytes * 2 ^ laneOffset z a := by
      gcongr
      exact Nat.sub_lt (by positivity) (by decide)
    _ = 2 ^ (laneOffset z a + z.bytes) := by rw [← Nat.pow_add, Nat.add_comm]
    _ ≤ 2 ^ 4 := Nat.pow_le_pow_right (by decide) (laneOffset_add_bytes_le z a)
  rw [laneSelect, BitVec.toNat_shiftLeft, hmask, Nat.shiftLeft_eq, Nat.mod_eq_of_lt hfits, laneOffset_eq]

/-- Write data on its lanes, in numbers (R74). -/
theorem toLanes_toNat (z : Size) (a : FwAddr) (d : Word) :
    (toLanes z a d).toNat = d.toNat * 2 ^ (8 * (a.toNat % 4 &&& (4 - z.bytes))) % 2 ^ 32 := by
  rw [toLanes, BitVec.toNat_shiftLeft, Nat.shiftLeft_eq, laneOffset_eq]

/-- Read data from its lanes, in numbers (R75). -/
theorem fromLanes_toNat (z : Size) (a : FwAddr) (d : Word) :
    (fromLanes z a d).toNat = d.toNat / 2 ^ (8 * (a.toNat % 4 &&& (4 - z.bytes))) := by
  rw [fromLanes, BitVec.toNat_ushiftRight, Nat.shiftRight_eq_div_pow, laneOffset_eq]

/-- Settles O32: the edge is the dispatch of the firmware command, which drives the firmware bus alone. -/
theorem fwCommandsDispatch : Obligations.FwCommandsDispatch := by
  rintro s a d z i w (⟨rfl, rfl⟩ | ⟨rfl, rfl⟩) hr hb
  · exact ⟨_, dispatchEdge_of_idle hr hb ⟨a, d, .fwRead, z⟩, rfl,
      ⟨rfl, rfl, fwWordAddr_toNat a, laneSelect_toNat z a, toLanes_toNat z a d⟩, rfl, rfl, rfl, rfl, rfl⟩
  · exact ⟨_, dispatchEdge_of_idle hr hb ⟨a, d, .fwWrite, z⟩, rfl,
      ⟨rfl, rfl, fwWordAddr_toNat a, laneSelect_toNat z a, toLanes_toNat z a d⟩, rfl, rfl, rfl, rfl, rfl⟩

/-- Settles O33: a busy dispatcher waits or finishes, and neither takes a command. -/
theorem busyDispatcherHoldsCommands : Obligations.BusyDispatcherHoldsCommands := by
  intro s t c hr hb ht
  rw [exec_toBridge, dispatchEdge] at ht
  obtain ⟨hrst, -⟩ | ⟨-, s1, hmove, rfl⟩ := sysEdge_moves ht
  · cases hr.symm.trans hrst
  · cases hmove with
    | wait => exact ⟨rfl, rfl⟩
    | finish => exact ⟨rfl, rfl⟩
    | rest hidle => cases hb.symm.trans hidle
    | take hidle => cases hb.symm.trans hidle

/-! ## The answer on the I/O bus, by the slave that the address selects (R220) -/

section
variable {s : State}

theorem ioAck_btT {o : BitVec 2} (h : lookupIo s.cfg.ioMap s.io.adr = .btT o) : ioAck s = s.bt.tWin.ack := by
  rw [ioAck, h]

theorem ioAck_btH {o : BitVec 3} (h : lookupIo s.cfg.ioMap s.io.adr = .btH o) : ioAck s = s.bt.hWin.ack := by
  rw [ioAck, h]

theorem ioAck_ram {n : Nat} (h : lookupIo s.cfg.ioMap s.io.adr = .other n) (hram : s.cfg.ioRam = some n) :
    ioAck s = s.ioSlave.ack := by
  simp [ioAck, h, hram]

theorem ioAck_other {n : Nat} (h : lookupIo s.cfg.ioMap s.io.adr = .other n) (hram : s.cfg.ioRam ≠ some n) :
    ioAck s = s.sysIn.ioAck := by
  simp [ioAck, h, hram]

theorem ioAck_unmapped (h : lookupIo s.cfg.ioMap s.io.adr = .unmapped) : ioAck s = false := by
  rw [ioAck, h]

theorem ioDatR_btT {o : BitVec 2} (h : lookupIo s.cfg.ioMap s.io.adr = .btT o) (hack : ioAck s = true) :
    ioDatR s = s.bt.tWin.datR := by
  rw [ioAck_btT h] at hack
  simp [ioDatR, h, hack]

theorem ioDatR_btH {o : BitVec 3} (h : lookupIo s.cfg.ioMap s.io.adr = .btH o) (hack : ioAck s = true) :
    ioDatR s = s.bt.hWin.datR := by
  rw [ioAck_btH h] at hack
  simp [ioDatR, h, hack]

theorem ioDatR_ram {n : Nat} (h : lookupIo s.cfg.ioMap s.io.adr = .other n) (hram : s.cfg.ioRam = some n)
    (hack : ioAck s = true) : ioDatR s = s.ioSlave.datR := by
  rw [ioAck_ram h hram] at hack
  simp [ioDatR, h, hram, hack]

theorem ioDatR_other {n : Nat} (h : lookupIo s.cfg.ioMap s.io.adr = .other n) (hram : s.cfg.ioRam ≠ some n) :
    ioDatR s = s.sysIn.ioDatR := by
  simp [ioDatR, h, hram]

/-- An I/O command is answered by the acknowledge or by the fabric's error (R207). -/
theorem answered_io (h : isIo s.disp.cur.operation = true) :
    s.answered = (ioAck s || (s.ackExpected && !ioAck s)) := by
  rw [State.answered, Machine.answered, if_pos h]
  rfl

/-- A firmware command is answered by the firmware slave's acknowledge (R207). -/
theorem answered_fw (h : isIo s.disp.cur.operation = false) : s.answered = (fwAnswer s).ack := by
  rw [State.answered, Machine.answered, if_neg (Bool.eq_false_iff.mp h)]

theorem response_io (h : isIo s.disp.cur.operation = true) :
    s.response = { data := (ioDatR s).setWidth 32, error := s.ackExpected && !ioAck s } := by
  rw [State.response, respond, if_pos h]
  rfl

theorem response_fw (h : isIo s.disp.cur.operation = false) :
    s.response = { data := fromLanes s.disp.cur.size s.disp.cur.address (fwAnswer s).datR, error := false } := by
  rw [State.response, respond, if_neg (Bool.eq_false_iff.mp h)]

end

theorem fwAnswer_eq (s : State) :
    fwAnswer s = { ack := if s.cfg.fwMem then s.fwSlave.ack else s.sysIn.fwAck,
                   datR := if s.cfg.fwMem then s.fwSlave.datR else s.sysIn.fwDatR } := by
  cases h : s.cfg.fwMem <;> simp [fwAnswer, h]

/-- A busy dispatcher that is not answered waits. -/
theorem sysTick_waits {s : State} (hr : s.sysRunning) (hb : s.disp.busy = true) (ha : s.answered = false) :
    sysTick s = .next (afterBridge (presented s) s s.agedCommands) :=
  (sysTick_eq s).trans (sysEdge_of_bridgeMove hr (.wait hb ha))

/-- A busy dispatcher that is answered finishes its transaction, where its response is discarded or finds room. -/
theorem sysTick_finishes {s : State} {q : List (QEntry Response)} (hr : s.sysRunning) (hb : s.disp.busy = true)
    (ha : s.answered = true) (hq : s.Delivers q) :
    sysTick s = .next (afterBridge (presented s) s (s.agedCommands.ended q)) :=
  (sysTick_eq s).trans (sysEdge_of_bridgeMove hr (.finish hb ha hq))

/-- Settles O34: the selected slave decides the answer and its data; the dispatcher then waits, finishes or overflows. -/
theorem bridgeCompletion : Obligations.BridgeCompletion := by
  intro s hr hb ack err done ioData fwData htwin hhwin hram hother hunmapped herr hfw hdone
  have hio : ioAck s = ack ∧ (ack = true → ioDatR s = ioData) := by
    cases hmap : lookupIo s.cfg.ioMap s.io.adr with
    | btT o =>
      obtain ⟨rfl, rfl⟩ := htwin o hmap
      have hack := ioAck_btT hmap
      exact ⟨hack, fun h => ioDatR_btT hmap (hack.trans h)⟩
    | btH o =>
      obtain ⟨rfl, rfl⟩ := hhwin o hmap
      have hack := ioAck_btH hmap
      exact ⟨hack, fun h => ioDatR_btH hmap (hack.trans h)⟩
    | other n =>
      by_cases hn : s.cfg.ioRam = some n
      · obtain ⟨rfl, rfl⟩ := hram n hmap hn
        have hack := ioAck_ram hmap hn
        exact ⟨hack, fun h => ioDatR_ram hmap hn (hack.trans h)⟩
      · obtain ⟨rfl, rfl⟩ := hother n hmap hn
        exact ⟨ioAck_other hmap hn, fun _ => ioDatR_other hmap hn⟩
    | unmapped => rw [hunmapped hmap]; exact ⟨ioAck_unmapped hmap, nofun⟩
  obtain ⟨hack, hdata⟩ := hio
  have hanswered : s.answered = done := by
    rw [hdone, herr]
    cases hop : isIo s.disp.cur.operation with
    | true => rw [answered_io hop, hack]; rfl
    | false => rw [answered_fw hop, fwAnswer_eq]; rfl
  subst hanswered
  refine ⟨fun ha => ?wait, fun ha hd hfull => ?overflow, fun ha hroom => ?finish⟩
  case wait => exact ⟨_, sysTick_waits hr hb ha, rfl, rfl, rfl, rfl⟩
  case overflow => rw [sysTick_eq]; exact sysEdge_overflow hr hb ha hd hfull.ge _
  case finish =>
    have hq : s.Delivers
        (if s.disp.discard then s.rspq else s.rspq ++ [{ payload := s.response, vis := false, age := 0 }]) := by
      cases hd : s.disp.discard with
      | true => exact .inl ⟨hd, rfl⟩
      | false => exact .inr ⟨hd, hroom.resolve_left (Bool.eq_false_iff.mp hd), rfl⟩
    refine ⟨_, s.response, sysTick_finishes hr hb ha hq, fun hop => ?io, fun hop => ?fw, rfl, rfl, rfl, rfl, rfl⟩
    case io => rw [response_io hop, herr, hack]; exact ⟨rfl, fun h => by rw [hdata h]⟩
    case fw => rw [response_fw hop, fwAnswer_eq, hfw]; exact ⟨rfl, fromLanes_toNat ..⟩

end Sys2Proof.Machine
end

section
/-! PROOF. O12, O13 and O25: the edge of a queue reset, what it leaves in flight, and where a hand-over stops. -/

namespace Sys2Proof.Machine

/-! ## The queue reset of an idle dispatcher (R210) -/

/-- A visible head is taken where the draw says so, and will be discarded. -/
theorem queueReset_of_taken {s : State} {c : Command} (hb : s.disp.busy = false) (hc : visibleHead s.cmdq = some c) :
    queueReset true s = { driveBus c { s with disp := { busy := true, discard := true, cur := c } } with
      cmdq := [], rspq := [] } := by
  simp [queueReset, hb, hc]

/-- With no visible head, or where the draw drops it, the queues are emptied. -/
theorem queueReset_of_dropped {s : State} {race : Bool} (hb : s.disp.busy = false)
    (hc : visibleHead s.cmdq = none ∨ race = false) : queueReset race s = { s with cmdq := [], rspq := [] } := by
  cases hv : visibleHead s.cmdq with
  | none => simp [queueReset, hb, hv]
  | some c =>
    obtain rfl : race = false := hc.resolve_left (by simp [hv])
    simp [queueReset, hb, hv]

/-- A command handed over at an edge is not visible at that edge. -/
theorem enqueueCommand_visibleHead {e : Option Command} {q q' : List (QEntry Command)}
    (h : enqueueCommand e q = some q') : visibleHead q' = visibleHead q := by
  obtain ⟨-, rfl⟩ | ⟨c, -, -, rfl⟩ := enqueueCommand_some h
  · rfl
  · cases q <;> rfl

theorem isIo_iff {o : Op} : isIo o = true ↔ o = .ioRead ∨ o = .ioWrite := by cases o <;> decide

theorem isIo_eq_false_iff {o : Op} : isIo o = false ↔ o = .fwRead ∨ o = .fwWrite := by cases o <;> decide

/-- Settles O12: the edge is the PSM's rule, which leaves dispatcher, buses and visible head alone, and then a case of the
queue reset. -/
theorem queueResetEdge : Obligations.QueueResetEdge := by
  intro s t hdue ht
  rw [hostTick_eq] at ht
  obtain ⟨-, hack, hbt, -⟩ := hostEdge_keeps ht
  obtain ⟨q, hq, ⟨hno, -⟩ | ⟨-, rfl⟩⟩ := hostEdge_cases ht
  · cases hdue.symm.trans hno
  have hhead : visibleHead (afterPsm s q).cmdq = visibleHead s.cmdq := enqueueCommand_visibleHead hq
  refine ⟨⟨rfl, rfl, hbt, hack⟩, fun hb => ?busy, fun c hb hc hrace => ?taken, fun hb hdrop => ?dropped⟩
  case busy =>
    rw [queueReset_of_busy (s := afterPsm s q) hb]
    exact ⟨rfl, rfl, rfl⟩
  case taken =>
    rw [hrace, queueReset_of_taken (s := afterPsm s q) hb (hhead.trans hc)]
    refine ⟨driveBus_disp .., fun hop => ?io, fun hop => ?fw⟩
    case io =>
      rw [driveBus_io, driveBus_fw, if_pos (isIo_iff.mpr hop), if_pos (isIo_iff.mpr hop)]
      exact ⟨rfl, rfl⟩
    case fw =>
      have hfw := Bool.eq_false_iff.mp (isIo_eq_false_iff.mpr hop)
      rw [driveBus_io, driveBus_fw, if_neg hfw, if_neg hfw]
      exact ⟨rfl, rfl⟩
  case dropped =>
    rw [queueReset_of_dropped (s := afterPsm s q) hb (by rwa [hhead])]
    exact ⟨rfl, rfl, rfl⟩

/-! ## Nothing in flight -/

/-- A system edge brings nothing into flight: there is no command to take, and the outstanding response is discarded. -/
theorem tick_sys_nothingInFlight {i : SysIn} {s t : State} (hs : s.NothingInFlight) (h : tick (.sys i) s = .next t) :
    t.NothingInFlight := by
  rw [tick, sysTick_eq] at h
  obtain ⟨hcmdq, hrspq, hdiscard⟩ := hs
  obtain ⟨-, rfl⟩ | ⟨-, s1, hmove, rfl⟩ := sysEdge_moves h
  · exact ⟨rfl, rfl, nofun⟩
  · have hpromoted : promotedCommands { s with sysIn := i } = [] := by
      rw [promotedCommands, hcmdq]
      rfl
    cases hmove with
    | wait => exact ⟨hpromoted, hrspq, hdiscard⟩
    | rest => exact ⟨hpromoted, hrspq, hdiscard⟩
    | take _ hc =>
      rw [presented, hpromoted] at hc
      cases hc
    | finish hb _ hq =>
      obtain ⟨-, rfl⟩ | ⟨hd, -⟩ := hq
      · exact ⟨hpromoted, hrspq, nofun⟩
      · cases (hdiscard hb).symm.trans hd

/-- A run of system edges brings nothing into flight. -/
theorem runTicks_nothingInFlight {ts : List Tick} {s t : State} (hts : hostInputs ts = []) (hs : s.NothingInFlight)
    (hrun : runTicks ts s = .next t) : t.NothingInFlight := by
  induction ts generalizing s with
  | nil => cases hrun; exact hs
  | cons x xs ih =>
    obtain ⟨s1, hx, hxs⟩ := runTicks_cons hrun
    cases x with
    | host h => cases hts
    | sys i => exact ih hts (tick_sys_nothingInFlight hs hx) hxs

/-- Settles O13: the queue reset leaves nothing in flight, and system edges keep it so. -/
theorem queueResetLeavesNothing : Obligations.QueueResetLeavesNothing := by
  intro s t u ts hdue ht hts hrun
  rw [hostTick_eq] at ht
  obtain ⟨q, -, ⟨hno, -⟩ | ⟨-, rfl⟩⟩ := hostEdge_cases ht
  · cases hdue.symm.trans hno
  have hreset := queueReset_nothingInFlight s.hostIn.race (afterPsm s q)
  have hafter := runTicks_nothingInFlight hts hreset hrun
  have ⟨hcmdq, hrspq, _⟩ := hafter
  exact ⟨occupancy_of_nothingInFlight hreset, occupancy_of_nothingInFlight hafter, hcmdq, hrspq⟩

/-! ## A hand-over that stops -/

/-- A command handed over to a full queue is the fault of R201. -/
theorem handOff_overflow {s : State} (hn : s.hostNormal) (hfull : 2 ≤ s.cmdq.length) (c : Command) :
    handOff c s = .fault .cmdQueueOverflow := by
  obtain ⟨sync, ho⟩ : ∃ sync, psmOut { s with psm := s.psm.received c } = psmTar1 sync (s.psm.received c) :=
    psmRule_tar1State hn (received_st c s.psm)
  have henq : enqueueCommand (psmOut { s with psm := s.psm.received c }).enq s.cmdq = none := by
    rw [ho, psmTar1, if_pos (received_cnt c s.psm)]
    exact if_pos hfull
  rw [handOff, hostEdge_eq, henq]

/-- Settles O25: exec is the hand-over of the command record, which overflows a full queue; at an active line the edge is an
abort. -/
theorem lpcHandOverStopped : Obligations.LpcHandOverStopped := by
  intro s c i hi
  rw [exec_toLpc hi]
  refine ⟨fun hn hfull => handOff_overflow hn hfull.ge c, fun hact => ?abort⟩
  case abort =>
    have hedge := hostTick_abort (s := { s with psm := s.psm.received c }) hact
    obtain ⟨hst, -, -, hen⟩ := psmOut_abort (s := { s with psm := s.psm.received c }) hact
    rw [hostTick_eq] at hedge
    exact ⟨_, hedge, rfl, rfl, by simpa using wire_of_not_ladEn hen, by simpa using hst⟩

end Sys2Proof.Machine
end

section
/-! PROOF. O38: an I/O transaction ends within two system edges, and one whose slave keeps its contract does not end at its
first. -/

namespace Sys2Proof.Machine

/-! ## Host edges while a transaction is outstanding -/

/-- The outstanding transaction, its bus and its slaves are in t as they are in s; it may be marked to be discarded. -/
structure State.KeepsTransaction (s t : State) : Prop where
  cfg         : t.cfg = s.cfg
  busy        : t.disp.busy = s.disp.busy
  cur         : t.disp.cur = s.disp.cur
  io          : t.io = s.io
  fw          : t.fw = s.fw
  ackExpected : t.ackExpected = s.ackExpected
  fwWaited    : t.fwWaited = s.fwWaited
  fwSlave     : t.fwSlave = s.fwSlave

/-- A host edge, with or without a queue reset, keeps the outstanding transaction (R210). -/
theorem tick_host_keepsTransaction {h : HostIn} {s t : State} (hb : s.disp.busy = true)
    (ht : tick (.host h) s = .next t) : s.KeepsTransaction t := by
  rw [tick, hostTick_eq] at ht
  obtain ⟨q, -, ⟨-, rfl⟩ | ⟨-, rfl⟩⟩ := hostEdge_cases ht
  · constructor <;> rfl
  · rw [queueReset_of_busy (s := afterPsm { s with hostIn := h } q) hb]
    constructor <;> rfl

/-- A run of host edges keeps the outstanding transaction. -/
theorem runTicks_keepsTransaction {ts : List Tick} {s t : State} (hb : s.disp.busy = true) (hts : sysInputs ts = [])
    (hrun : runTicks ts s = .next t) : s.KeepsTransaction t := by
  induction ts generalizing s with
  | nil => cases hrun; constructor <;> rfl
  | cons x xs ih =>
    obtain ⟨s1, hx, hxs⟩ := runTicks_cons hrun
    cases x with
    | sys i => cases hts
    | host h =>
      have hfirst := tick_host_keepsTransaction hb hx
      have hrest := ih (hfirst.busy.trans hb) hts hxs
      constructor
      case cfg => exact hrest.cfg.trans hfirst.cfg
      case busy => exact hrest.busy.trans hfirst.busy
      case cur => exact hrest.cur.trans hfirst.cur
      case io => exact hrest.io.trans hfirst.io
      case fw => exact hrest.fw.trans hfirst.fw
      case ackExpected => exact hrest.ackExpected.trans hfirst.ackExpected
      case fwWaited => exact hrest.fwWaited.trans hfirst.fwWaited
      case fwSlave => exact hrest.fwSlave.trans hfirst.fwSlave

/-! ## The I/O transaction ends -/

/-- An I/O transaction is outstanding, with its strobe on the bus. -/
def State.IoOutstanding (s : State) : Prop :=
  s.disp.busy = true ∧ isIo s.disp.cur.operation = true ∧ s.io.stb = true

/-- At a system edge an outstanding I/O transaction ends, or the fabric's window opens; in the window it ends (R220). -/
theorem sysTick_ioOutstanding {s t : State} (hs : s.IoOutstanding) (ht : sysTick s = .next t) :
    t.disp.busy = false ∨ (t.IoOutstanding ∧ s.ackExpected = false ∧ t.ackExpected = true) := by
  rw [sysTick_eq] at ht
  obtain ⟨hb, hop, hstb⟩ := hs
  obtain ⟨-, rfl⟩ | ⟨-, s1, hmove, rfl⟩ := sysEdge_moves ht
  · exact .inl rfl
  · cases hmove with
    | finish => exact .inl rfl
    | rest hidle => exact .inl hidle
    | take hidle => cases hb.symm.trans hidle
    | wait _ ha =>
      have hclosed : s.ackExpected = false := by
        rw [answered_io hop, Bool.or_eq_false_iff] at ha
        obtain ⟨hack, herr⟩ := ha
        simpa [hack] using herr
      exact .inr ⟨⟨hb, hop, hstb⟩, hclosed, by simp [hstb, hclosed]⟩

/-- The same, of the tick. -/
theorem tick_sys_ioOutstanding {i : SysIn} {s t : State} (hs : s.IoOutstanding) (ht : tick (.sys i) s = .next t) :
    t.disp.busy = false ∨ (t.IoOutstanding ∧ s.ackExpected = false ∧ t.ackExpected = true) :=
  sysTick_ioOutstanding (s := { s with sysIn := i }) hs ht

/-- A host edge leaves an outstanding I/O transaction outstanding, and the fabric's window as it is. -/
theorem tick_host_ioOutstanding {h : HostIn} {s t : State} (hs : s.IoOutstanding) (ht : tick (.host h) s = .next t) :
    t.IoOutstanding ∧ t.ackExpected = s.ackExpected := by
  obtain ⟨hb, hop, hstb⟩ := hs
  have hkeeps := tick_host_keepsTransaction hb ht
  exact ⟨⟨hkeeps.busy.trans hb, by rw [hkeeps.cur]; exact hop, by rw [hkeeps.io]; exact hstb⟩, hkeeps.ackExpected⟩

section
variable {sched : ClockSchedule} {s : State}

/-- In a run whose next system edge is at most k edges away, that edge ends an outstanding I/O transaction or opens the
fabric's window for it. -/
theorem run_nextSysEdge (r : Run sched s) (k : Nat) {n : Nat} (hsys : (r.ticks (n + k)).domain = .sys)
    (hn : (r.states n).IoOutstanding) :
    ∃ m, n < m ∧ ((r.states m).disp.busy = false ∨
      ((r.states m).IoOutstanding ∧ (r.states n).ackExpected = false ∧ (r.states m).ackExpected = true)) := by
  induction k generalizing n with
  | zero =>
    have hedge := r.edge n
    cases htick : r.ticks n with
    | host h => rw [Nat.add_zero, htick] at hsys; cases hsys
    | sys i =>
      rw [htick] at hedge
      exact ⟨n + 1, Nat.lt_succ_self n, tick_sys_ioOutstanding hn hedge⟩
  | succ k ih =>
    have hedge := r.edge n
    cases htick : r.ticks n with
    | sys i =>
      rw [htick] at hedge
      exact ⟨n + 1, Nat.lt_succ_self n, tick_sys_ioOutstanding hn hedge⟩
    | host h =>
      rw [htick] at hedge
      obtain ⟨hnext, hack⟩ := tick_host_ioOutstanding hn hedge
      obtain ⟨m, hm, hend⟩ := ih (by rwa [Nat.add_right_comm]) hnext
      exact ⟨m, by omega, by rwa [hack] at hend⟩

/-- In a fair run there is a next system edge (R7). -/
theorem run_fair_ioOutstanding (r : Run sched s) (hfair : ∀ d, sched d → ClockSchedule.everyFair d) {n : Nat}
    (hn : (r.states n).IoOutstanding) :
    ∃ m, n < m ∧ ((r.states m).disp.busy = false ∨
      ((r.states m).IoOutstanding ∧ (r.states n).ackExpected = false ∧ (r.states m).ackExpected = true)) := by
  obtain ⟨j, hj, hsys⟩ := hfair _ r.schedule .sys n
  obtain ⟨k, rfl⟩ := Nat.exists_eq_add_of_le hj
  exact run_nextSysEdge r k hsys hn

end

/-! ## The first edge after a dispatch -/

/-- The edge that dispatches a command, from a state of the invariant, finds both strobes 0: neither the fabric's window nor
the firmware slave's wait has begun after it (R220, R221). -/
theorem tick_dispatch_quiet {i : SysIn} {s t : State} (hs : s.Inv) (hidle : s.disp.busy = false)
    (ht : tick (.sys i) s = .next t) : t.ackExpected = false ∧ t.fwWaited = false := by
  rw [tick, sysTick_eq] at ht
  obtain ⟨hio, hfw, -⟩ := hs.bus
  rw [hidle, Bool.false_and] at hio hfw
  obtain ⟨-, rfl⟩ | ⟨-, s1, -, rfl⟩ := sysEdge_moves ht
  · exact ⟨rfl, rfl⟩
  · simp [hio, hfw]

/-- A busy dispatcher without an answer keeps its transaction on the bus. -/
theorem tick_sys_waits {i : SysIn} {u v : State} (hr : i.sysRst = false) (hb : u.disp.busy = true)
    (ha : State.answered { u with sysIn := i } = false) (hv : tick (.sys i) u = .next v) :
    v.disp.busy = true ∧ v.io = u.io ∧ v.fw = u.fw := by
  have hwait := sysTick_waits (s := { u with sysIn := i }) hr hb ha
  cases hwait.symm.trans hv
  exact ⟨hb, rfl, rfl⟩

/-- A firmware transaction in its first strobe cycle is not answered: FWMEM, and a slave that keeps its contract, wait
(R221). -/
theorem not_answered_of_fwContract {s : State} (hop : isIo s.disp.cur.operation = false) (hwaited : s.fwWaited = false)
    (hs : s.SlaveInv) (hcontract : s.FwSlaveContract) : s.answered = false := by
  obtain ⟨-, hmemAck⟩ := hs
  rw [answered_fw hop, fwAnswer_eq]
  cases hmem : s.cfg.fwMem with
  | true =>
    rw [if_pos rfl, Bool.eq_false_iff]
    intro hack
    cases hwaited.symm.trans (hmemAck hmem hack)
  | false =>
    rw [if_neg Bool.false_ne_true, Bool.eq_false_iff]
    intro hack
    obtain ⟨-, hw, -⟩ := hcontract hmem hack
    cases hwaited.symm.trans hw

/-- An I/O transaction before its window is not answered: at an unmapped address, or by a slave of the environment that keeps
its contract (R220). -/
theorem not_answered_of_ioContract {s : State} (hop : isIo s.disp.cur.operation = true) (hclosed : s.ackExpected = false)
    (hslave : lookupIo s.cfg.ioMap s.io.adr = .unmapped ∨
      ∃ n, lookupIo s.cfg.ioMap s.io.adr = .other n ∧ s.cfg.ioRam ≠ some n)
    (hcontract : s.IoSlaveContract) : s.answered = false := by
  have hack : ioAck s = false := by
    obtain hmap | ⟨n, hmap, hram⟩ := hslave
    · exact ioAck_unmapped hmap
    · rw [ioAck_other hmap hram, Bool.eq_false_iff]
      intro hack
      obtain ⟨-, hopen, -⟩ := hcontract hack
      cases hclosed.symm.trans hopen
  rw [answered_io hop, hack, hclosed]
  rfl

/-- Settles O38: the fabric's window bounds an I/O transaction by two system edges; at the first edge after a dispatch no
contract has a slave acknowledge, and the window is not open. -/
theorem ioTransactionEndsInTwoEdges : Obligations.IoTransactionEndsInTwoEdges := by
  refine ⟨?twoEdges, ?run, ?fw, ?io⟩
  case twoEdges =>
    intro s t1 t2 i1 i2 hb hop hstb _ _ h1 h2
    obtain hend | ⟨hout, -, hopen⟩ := tick_sys_ioOutstanding ⟨hb, hop, hstb⟩ h1
    · exact .inl hend
    obtain hend | ⟨-, hclosed, -⟩ := tick_sys_ioOutstanding hout h2
    · exact .inr hend
    · cases hopen.symm.trans hclosed
  case run =>
    intro sched s r n hfair hb hop hstb
    obtain ⟨m, hm, hend | ⟨hout, -, hopen⟩⟩ := run_fair_ioOutstanding r hfair ⟨hb, hop, hstb⟩
    · exact ⟨m, hm, hend⟩
    obtain ⟨m', hm', hend | ⟨-, hclosed, -⟩⟩ := run_fair_ioOutstanding r hfair hout
    · exact ⟨m', hm.trans hm', hend⟩
    · cases hopen.symm.trans hclosed
  case fw =>
    intro s t u v i1 i2 ts hs hidle hr1 ht hb hop hts hu hr2 hcontract hv
    obtain ⟨-, hwaited⟩ := tick_dispatch_quiet hs hidle ht
    have hinv := tick_inv hs ht
    obtain ⟨-, hstb, -⟩ := hinv.bus
    have hkeeps := runTicks_keepsTransaction hb hts hu
    have hslave : u.SlaveInv := by
      simp only [State.SlaveInv, hkeeps.fwWaited, hkeeps.fw, hkeeps.cfg, hkeeps.fwSlave]
      exact hinv.slave
    have ha : State.answered { u with sysIn := i2 } = false :=
      not_answered_of_fwContract (by rw [hkeeps.cur, hop]) (hkeeps.fwWaited.trans hwaited) hslave hcontract
    obtain ⟨hb', -, hfw⟩ := tick_sys_waits hr2 (hkeeps.busy.trans hb) ha hv
    exact ⟨hb', by rw [hfw, hkeeps.fw, hstb, hb, hop]; rfl⟩
  case io =>
    intro s t u v i1 i2 ts hs hidle hr1 ht hb hop hslave hts hu hr2 hcontract hv
    obtain ⟨hclosed, -⟩ := tick_dispatch_quiet hs hidle ht
    obtain ⟨hstb, -⟩ := (tick_inv hs ht).bus
    have hkeeps := runTicks_keepsTransaction hb hts hu
    have ha : State.answered { u with sysIn := i2 } = false :=
      not_answered_of_ioContract (by rw [hkeeps.cur, hop]) (hkeeps.ackExpected.trans hclosed)
        (by rw [hkeeps.cfg, hkeeps.io]; exact hslave) hcontract
    obtain ⟨hb', hio, -⟩ := tick_sys_waits hr2 (hkeeps.busy.trans hb) ha hv
    exact ⟨hb', by rw [hio, hkeeps.io, hstb, hb, hop]; rfl⟩

end Sys2Proof.Machine
end

section
/-! PROOF. O39: an I/O transaction on the bus, from its first strobe edge to its response. -/

namespace Sys2Proof.Machine

/-! ## The window ports on the I/O bus (R223) -/

/-- What the map sends somewhere is listed in it. -/
theorem mem_of_lookupIo {m : List (IoAddr × IoTarget)} {a : IoAddr} (h : lookupIo m a ≠ .unmapped) :
    ∃ e ∈ m, e.1 = a := by
  induction m with
  | nil => exact absurd rfl h
  | cons x m ih =>
    obtain ⟨b, t⟩ := x
    by_cases hb : b = a
    · exact ⟨(b, t), List.mem_cons_self, hb⟩
    · rw [lookupIo, if_neg hb] at h
      obtain ⟨e, he, ha⟩ := ih h
      exact ⟨e, List.mem_cons_of_mem _ he, ha⟩

/-- An address sent to the target window shows that the map reaches it. -/
theorem mapsTarget_of_lookup {p : Params} {a : IoAddr} {o : BitVec 2} (h : lookupIo p.ioMap a = .btT o) :
    mapsTarget p = true := by
  obtain ⟨e, he, rfl⟩ := mem_of_lookupIo (a := a) (m := p.ioMap) (by simp [h])
  exact List.any_eq_true.mpr ⟨e, he, by rw [h]; rfl⟩

/-- An address sent to the host window shows that the map reaches it. -/
theorem mapsHost_of_lookup {p : Params} {a : IoAddr} {o : BitVec 3} (h : lookupIo p.ioMap a = .btH o) :
    mapsHost p = true := by
  obtain ⟨e, he, rfl⟩ := mem_of_lookupIo (a := a) (m := p.ioMap) (by simp [h])
  exact List.any_eq_true.mpr ⟨e, he, by rw [h]; rfl⟩

section
variable {s : State}

/-- A strobe at an address of the target window presents its access there. -/
theorem presentedTarget_of_lookup {o : BitVec 2} (h : lookupIo s.cfg.ioMap s.io.adr = .btT o) (hstb : s.io.stb = true) :
    presentedTarget s = some (targetAccess s.cfg s.bt s.io.we o s.io.datW) := by
  simp [presentedTarget, targetPort, mapsTarget_of_lookup h, h, hstb]

/-- A strobe at an address of the host window presents its access there. -/
theorem presentedHost_of_lookup {o : BitVec 3} (h : lookupIo s.cfg.ioMap s.io.adr = .btH o) (hstb : s.io.stb = true) :
    presentedHost s = some (hostAccess s.cfg s.bt s.io.we o s.io.datW) := by
  simp [presentedHost, hostPort, mapsHost_of_lookup h, h, hstb]

/-- A window serves nothing where nothing is presented. -/
@[simp] theorem serves_none {α : Type} (w : Window) : w.serves (none : Option α) = none := by
  cases h : w.st <;> simp [Window.serves, h]

/-- A target window that the map reaches serves nothing at another's address. -/
theorem servedTarget_of_elsewhere {x : IoTarget} (hmap : lookupIo s.cfg.ioMap s.io.adr = x)
    (hx : IoTarget.isTargetWindow x = false) (hmaps : mapsTarget s.cfg = true) : s.servedTarget = none := by
  have hquiet : (targetPort s).stb = false := by
    cases x with
    | btT o => cases hx
    | _ => simp [targetPort, hmaps, hmap]
  simp [State.servedTarget, presentedTarget, hquiet]

/-- A host window that the map reaches serves nothing at another's address. -/
theorem servedHost_of_elsewhere {x : IoTarget} (hmap : lookupIo s.cfg.ioMap s.io.adr = x)
    (hx : IoTarget.isHostWindow x = false) (hmaps : mapsHost s.cfg = true) : s.servedHost = none := by
  have hquiet : (hostPort s).stb = false := by
    cases x with
    | btH o => cases hx
    | _ => simp [hostPort, hmaps, hmap]
  simp [State.servedHost, presentedHost, hquiet]

/-- The edge of a strobe at an address of the target window is that window's access. -/
theorem sysTick_of_lookup_btT {o : BitVec 2} (h : lookupIo s.cfg.ioMap s.io.adr = .btT o) (hstb : s.io.stb = true) :
    sysTick s = exec (decodeTarget s.io.we o s.io.datW) s := by
  rw [sysTick_eq, exec_decodeTarget, targetEdge, ← presentedTarget_of_lookup h hstb]
  rfl

/-- The edge of a strobe at an address of the host window is that window's access. -/
theorem sysTick_of_lookup_btH {o : BitVec 3} (h : lookupIo s.cfg.ioMap s.io.adr = .btH o) (hstb : s.io.stb = true) :
    sysTick s = exec (decodeHost s.io.we o s.io.datW) s := by
  rw [sysTick_eq, exec_decodeHost, hostWindowEdge, ← presentedHost_of_lookup h hstb]
  rfl

end

/-! ## The access served -/

/-- An idle window that serves an access acknowledges with its value, a write with the value it held (R240). -/
theorem next_of_idle {α : Type} {w : Window} (hidle : w.st = .idle) (a : α) (value : α → Option Byte) :
    w.next ((w.serves (some a)).map value) = { st := .ack, datR := (value a).getD w.datR } := by
  cases hv : value a <;> simp [Window.next, Window.serves, hidle, hv]

/-- The read values of the target window (R260, R262, R264, R266). -/
theorem targetAccess_read_value (p : Params) (b : Bt) (o : BitVec 2) (w : Byte) :
    (targetAccess p b false o w).value = some (if o = 0 then statusByte p.layout b.flags
      else if o = 1 then fifoHead b.fifoH2t else if o = 2 then intcfgByte b else 0) := by
  have hoff : ∀ a : BitVec 2, a = 0 ∨ a = 1 ∨ a = 2 ∨ a = 3 := by decide
  obtain rfl | rfl | rfl | rfl := hoff o <;> rfl

/-- The read values of the host window (R270, R272, R274, R276, R278). -/
theorem hostAccess_read_value (p : Params) (b : Bt) (o : BitVec 3) (w : Byte) :
    (hostAccess p b false o w).value = some (if o = 0 then b.hMask.setWidth 8 else if o = 1 then b.hStatus.setWidth 8
      else if o = 4 then statusByte p.layout b.flags else if o = 5 then fifoHead b.fifoT2h else 0) := by
  have hoff : ∀ a : BitVec 3, a = 0 ∨ a = 1 ∨ a = 2 ∨ a = 3 ∨ a = 4 ∨ a = 5 ∨ a = 6 ∨ a = 7 := by decide
  obtain rfl | rfl | rfl | rfl | rfl | rfl | rfl | rfl := hoff o <;> rfl

/-! ## The two edges of an I/O transaction -/

/-- The state at a system edge that samples the inputs i. -/
@[simps] def State.sampling (i : SysIn) (s : State) : State := { s with sysIn := i }

/-- The state at the second system edge, with inputs i2, of a transaction that waited at the first, whose inputs are i1. -/
def State.atSecondEdge (s : State) (i1 i2 : SysIn) : State :=
  (afterBridge (presented (s.sampling i1)) (s.sampling i1) (s.sampling i1).agedCommands).sampling i2

/-- An I/O transaction that awaits its response is outstanding and is first seen at the next edge; there is room for its
response. -/
structure State.IoFirstSeen (s : State) : Prop where
  outstanding : s.IoOutstanding
  kept        : s.disp.discard = false
  closed      : s.ackExpected = false
  room        : s.rspq.length < 2

/-- Two system edges end the transaction, with the response r. -/
def State.EndsWith (s : State) (i1 i2 : SysIn) (r : Response) : Prop :=
  ∃ t, runTicks [.sys i1, .sys i2] s = .next t ∧ t.disp.busy = false ∧
    t.rspq = s.rspq ++ [{ payload := r, vis := false, age := 0 }]

section
variable {s : State} {i1 i2 : SysIn}

/-- The first edge of a transaction that nobody acknowledges there waits. -/
theorem sysTick_firstEdge (hs : s.IoFirstSeen) (hr1 : i1.sysRst = false) (hack : ioAck (s.sampling i1) = false) :
    sysTick (s.sampling i1) =
      .next (afterBridge (presented (s.sampling i1)) (s.sampling i1) (s.sampling i1).agedCommands) := by
  obtain ⟨⟨hb, hop, -⟩, -, hclosed, -⟩ := hs
  have ha : (s.sampling i1).answered = false := by
    rw [answered_io (s := s.sampling i1) hop, hack, State.sampling_ackExpected, hclosed]
    rfl
  exact sysTick_waits hr1 hb ha

/-- The second edge is in the fabric's window, and the transaction ends there (R220, R222). -/
theorem sysTick_secondEdge (hs : s.IoFirstSeen) (hr2 : i2.sysRst = false) :
    ∃ t, sysTick (s.atSecondEdge i1 i2) = .next t ∧ t.disp.busy = false ∧
      t.rspq = s.rspq ++ [{ payload := { data := (ioDatR (s.atSecondEdge i1 i2)).setWidth 32,
                                         error := !ioAck (s.atSecondEdge i1 i2) }, vis := false, age := 0 }] := by
  obtain ⟨⟨hb, hop, hstb⟩, hkept, hclosed, hroom⟩ := hs
  have hop2 : isIo (s.atSecondEdge i1 i2).disp.cur.operation = true := hop
  have hopen : (s.atSecondEdge i1 i2).ackExpected = true := by
    simp [State.atSecondEdge, hstb, hclosed]
  have ha : (s.atSecondEdge i1 i2).answered = true := by
    rw [answered_io hop2, hopen]
    cases ioAck (s.atSecondEdge i1 i2) <;> rfl
  have hresponse : (s.atSecondEdge i1 i2).response =
      { data := (ioDatR (s.atSecondEdge i1 i2)).setWidth 32, error := !ioAck (s.atSecondEdge i1 i2) } := by
    rw [response_io hop2, hopen, Bool.true_and]
  exact ⟨_, sysTick_finishes hr2 hb ha (.inr ⟨hkept, hroom, rfl⟩), rfl, by rw [← hresponse]; rfl⟩

/-- Two system edges, at the first of which nobody acknowledges, end an I/O transaction with the acknowledge and the data at
the second, or with the error. -/
theorem endsWith_of_firstEdge (hs : s.IoFirstSeen) (hr1 : i1.sysRst = false) (hr2 : i2.sysRst = false)
    (hack : ioAck (s.sampling i1) = false) :
    s.EndsWith i1 i2 { data := (ioDatR (s.atSecondEdge i1 i2)).setWidth 32, error := !ioAck (s.atSecondEdge i1 i2) } := by
  obtain ⟨t, ht, hb, hrspq⟩ := sysTick_secondEdge hs (i1 := i1) hr2
  have hfirst : tick (.sys i1) s = .next _ := sysTick_firstEdge hs hr1 hack
  have hsecond : tick (.sys i2) (afterBridge (presented (s.sampling i1)) (s.sampling i1) (s.sampling i1).agedCommands) =
    .next t := ht
  exact ⟨t, by simp only [runTicks, hfirst, hsecond], hb, hrspq⟩

/-- An access of an idle target window ends without error, with the window's value (R223, R241). -/
theorem endsWith_btT (hs : s.IoFirstSeen) (hr1 : i1.sysRst = false) (hr2 : i2.sysRst = false) {o : BitVec 2}
    (hmap : lookupIo s.cfg.ioMap s.io.adr = .btT o) (hidle : s.bt.tWin.st = .idle) :
    s.EndsWith i1 i2 { data := BitVec.setWidth 32
                         ((targetAccess s.cfg s.bt s.io.we o s.io.datW).value.getD s.bt.tWin.datR), error := false } := by
  obtain ⟨-, -, hstb⟩ := hs.outstanding
  have hpresented : presentedTarget (s.sampling i1) = some (targetAccess s.cfg s.bt s.io.we o s.io.datW) :=
    presentedTarget_of_lookup (s := s.sampling i1) hmap hstb
  have hquiet : ioAck (s.sampling i1) = false := by
    rw [ioAck_btT (s := s.sampling i1) hmap]
    simp [Window.ack, hidle]
  have hwin : (s.atSecondEdge i1 i2).bt.tWin =
      { st := .ack, datR := (targetAccess s.cfg s.bt s.io.we o s.io.datW).value.getD s.bt.tWin.datR } := by
    rw [← next_of_idle hidle, ← hpresented]
    rfl
  have hack : ioAck (s.atSecondEdge i1 i2) = true := by
    rw [ioAck_btT (s := s.atSecondEdge i1 i2) hmap, hwin]
    rfl
  have hends := endsWith_of_firstEdge hs hr1 hr2 hquiet
  rwa [ioDatR_btT (s := s.atSecondEdge i1 i2) hmap hack, hack, hwin] at hends

/-- An access of an idle host window ends without error, with the window's value (R223, R241). -/
theorem endsWith_btH (hs : s.IoFirstSeen) (hr1 : i1.sysRst = false) (hr2 : i2.sysRst = false) {o : BitVec 3}
    (hmap : lookupIo s.cfg.ioMap s.io.adr = .btH o) (hidle : s.bt.hWin.st = .idle) :
    s.EndsWith i1 i2 { data := BitVec.setWidth 32
                         ((hostAccess s.cfg s.bt s.io.we o s.io.datW).value.getD s.bt.hWin.datR), error := false } := by
  obtain ⟨-, -, hstb⟩ := hs.outstanding
  have hpresented : presentedHost (s.sampling i1) = some (hostAccess s.cfg s.bt s.io.we o s.io.datW) :=
    presentedHost_of_lookup (s := s.sampling i1) hmap hstb
  have hquiet : ioAck (s.sampling i1) = false := by
    rw [ioAck_btH (s := s.sampling i1) hmap]
    simp [Window.ack, hidle]
  have hwin : (s.atSecondEdge i1 i2).bt.hWin =
      { st := .ack, datR := (hostAccess s.cfg s.bt s.io.we o s.io.datW).value.getD s.bt.hWin.datR } := by
    rw [← next_of_idle hidle, ← hpresented]
    rfl
  have hack : ioAck (s.atSecondEdge i1 i2) = true := by
    rw [ioAck_btH (s := s.atSecondEdge i1 i2) hmap, hwin]
    rfl
  have hends := endsWith_of_firstEdge hs hr1 hr2 hquiet
  rwa [ioDatR_btH (s := s.atSecondEdge i1 i2) hmap hack, hack, hwin] at hends

/-- At an unmapped address a transaction ends with the error (R220, R301). -/
theorem endsWith_unmapped (hs : s.IoFirstSeen) (hr1 : i1.sysRst = false) (hr2 : i2.sysRst = false)
    (hmap : lookupIo s.cfg.ioMap s.io.adr = .unmapped) :
    s.EndsWith i1 i2 { data := (ioDatR (s.atSecondEdge i1 i2)).setWidth 32, error := true } := by
  have hends := endsWith_of_firstEdge hs hr1 hr2 (ioAck_unmapped (s := s.sampling i1) hmap) (i2 := i2)
  rwa [ioAck_unmapped (s := s.atSecondEdge i1 i2) hmap] at hends

/-- At another slave of the environment, silent at the first edge, a transaction ends with that slave's acknowledge and data
at the second, or with the error (R220). -/
theorem endsWith_other (hs : s.IoFirstSeen) (hr1 : i1.sysRst = false) (hr2 : i2.sysRst = false) {n : Nat}
    (hmap : lookupIo s.cfg.ioMap s.io.adr = .other n) (hram : s.cfg.ioRam ≠ some n) (hsilent : i1.ioAck = false) :
    s.EndsWith i1 i2 { data := i2.ioDatR.setWidth 32, error := !i2.ioAck } := by
  have hends := endsWith_of_firstEdge hs hr1 hr2 ((ioAck_other (s := s.sampling i1) hmap hram).trans hsilent) (i2 := i2)
  rwa [ioAck_other (s := s.atSecondEdge i1 i2) hmap hram, ioDatR_other (s := s.atSecondEdge i1 i2) hmap hram] at hends

end

/-- Settles O39: the transaction waits at its first edge, where the window it is for serves it, and ends at the second, in the
fabric's window. -/
theorem btReadThroughBridge : Obligations.BtReadThroughBridge := by
  rintro s s1 i1 i2 hb hkept hop hstb hclosed hroom hr1 hr2 rfl
  have hs : s.IoFirstSeen := ⟨⟨hb, hop, hstb⟩, hkept, hclosed, hroom⟩
  refine ⟨fun v hwe hread => ?read, fun o hmap hidle => ?btT, fun o hmap hidle => ?btH, fun hslave => ?error,
    fun n hmap hram hsilent hack => ?other⟩
  case read =>
    obtain ⟨o, hmap, hidle, rfl⟩ | ⟨o, hmap, hidle, rfl⟩ := hread
    · have hends := endsWith_btT hs hr1 hr2 hmap hidle
      rwa [hwe, targetAccess_read_value] at hends
    · have hends := endsWith_btH hs hr1 hr2 hmap hidle
      rwa [hwe, hostAccess_read_value] at hends
  case btT =>
    obtain ⟨t, ht⟩ := endsWith_btT hs hr1 hr2 hmap hidle
    exact ⟨sysTick_of_lookup_btT hmap hstb, servedHost_of_elsewhere (s := s.sampling i1) hmap rfl, t, _, ht⟩
  case btH =>
    obtain ⟨t, ht⟩ := endsWith_btH hs hr1 hr2 hmap hidle
    exact ⟨sysTick_of_lookup_btH hmap hstb, servedTarget_of_elsewhere (s := s.sampling i1) hmap rfl, t, _, ht⟩
  case error =>
    obtain hmap | ⟨n, hmap, hram, hsilent, hsilent'⟩ := hslave
    · obtain ⟨t, hrun, hend, hrspq⟩ := endsWith_unmapped hs hr1 hr2 hmap
      exact ⟨t, _, hrun, hend, hrspq, servedTarget_of_elsewhere (s := s.sampling i1) hmap rfl,
        servedHost_of_elsewhere (s := s.sampling i1) hmap rfl⟩
    · obtain ⟨t, hrun, hend, hrspq⟩ := endsWith_other hs hr1 hr2 hmap hram hsilent
      rw [hsilent'] at hrspq
      exact ⟨t, _, hrun, hend, hrspq, servedTarget_of_elsewhere (s := s.sampling i1) hmap rfl,
        servedHost_of_elsewhere (s := s.sampling i1) hmap rfl⟩
  case other =>
    have hends := endsWith_other hs hr1 hr2 hmap hram hsilent
    rwa [hack] at hends

end Sys2Proof.Machine
end

section
/-! PROOF. For O44 to O55, O57, O59 and O60: what a system edge, a tick and a run do to the BT; O55 from it. -/

namespace Sys2Proof.Machine

/-! ## The BT over one edge -/

/-- A window in ACK serves nothing (R240). -/
theorem serves_of_ack {α : Type} {w : Window} (h : w.st = .ack) (a : Option α) : w.serves a = none := by
  simp [Window.serves, h]

/-- An idle window serves what is presented (R240). -/
theorem serves_of_idle {α : Type} {w : Window} (h : w.st = .idle) (a : Option α) : w.serves a = a := by
  simp [Window.serves, h]

/-- A window that serves an access is idle (R240). -/
theorem idle_of_serves {α : Type} {w : Window} {a : Option α} {x : α} (h : w.serves a = some x) : w.st = .idle := by
  cases hst : w.st with
  | idle => rfl
  | ack => rw [serves_of_ack hst] at h; cases h

/-- A window that serves nothing is idle next, its read data kept (R240). -/
theorem next_none (w : Window) : w.next none = { w with st := .idle } := by
  cases w with
  | mk st datR => cases st <;> rfl

/-- A window that serves an access acknowledges with its value, a write with the value it held (R240). -/
theorem next_of_serves {α : Type} {w : Window} {a : Option α} {x : α} (h : w.serves a = some x) (value : α → Option Byte) :
    w.next ((w.serves a).map value) = { st := .ack, datR := (value x).getD w.datR } := by
  have hidle := idle_of_serves h
  obtain rfl : a = some x := by rwa [serves_of_idle hidle] at h
  exact next_of_idle hidle x value

section
variable {p : Params} {i : SysIn} {t : Option TAccess} {h : Option HAccess} {b : Bt}

/-- An access that the target window does not serve might as well not be presented. -/
theorem btEdge_target_unserved (ht : b.tWin.serves t = none) : btEdge p i t h b = btEdge p i none h b := by
  simp [btEdge, ht]

/-- An access that the host window does not serve might as well not be presented. -/
theorem btEdge_host_unserved (hh : b.hWin.serves h = none) : btEdge p i t h b = btEdge p i t none b := by
  simp [btEdge, hh]

/-- R246: control bytes 0 keep the flags. -/
@[simp] theorem nextFlags_zero (l : StatusLayout) (race : ScRace) (f : Flags) : nextFlags l race 0#8 0#8 f = f := by
  simp [nextFlags, setClear]

@[simp] theorem eventH0_self (f : Flags) : eventH0 f f = false := by simp [eventH0]
@[simp] theorem eventH1_self (f : Flags) : eventH1 f f = false := by simp [eventH1]
@[simp] theorem eventT_self (f : Flags) : eventT f f = false := by simp [eventT]

/-- Without an event the pending bits of the host are those of the write (R248). -/
@[simp] theorem nextHostStatus_no_event (status mask : BitVec 2) (w : Option Byte) :
    nextHostStatus status mask w false false = writeLow2 w status := by
  simp [nextHostStatus, BitVec.or_zero, show (0#1 ++ 0#1 : BitVec 2) = 0#2 from rfl]

/-- An edge that serves nothing ends acknowledges and carries out clear pulses (R240, R243, R253). -/
theorem btEdge_quiet (ht : b.tWin.serves t = none) (hh : b.hWin.serves h = none) :
    btEdge p i t h b = { b with
      fifoT2h := if b.clrT2h then [] else b.fifoT2h
      fifoH2t := if b.clrH2t then [] else b.fifoH2t
      clrT2h := false, clrH2t := false, pushedT2h := false, pushedH2t := false
      tWin := { b.tWin with st := .idle }, hWin := { b.hWin with st := .idle } } := by
  simp [btEdge, ht, hh, TAccess.idle, HAccess.idle, writeLow2, nextTargetEnable, nextTargetPending, fifoNext, pushTaken,
    next_none]

end

/-! ## The system edge -/

section
variable {s t : State}

/-- A running system edge takes the BT through its own edge; parameters and inputs stay (R214). -/
theorem sysEdge_bt {p : Presented} (hr : s.sysRunning) (h : sysEdge p s = .next t) :
    t.cfg = s.cfg ∧ t.sysIn = s.sysIn ∧ t.bt = btEdge s.cfg s.sysIn p.target p.host s.bt := by
  obtain ⟨hrst, -⟩ | ⟨-, s1, hs, rfl⟩ := sysEdge_next h
  · exact absurd (hr.symm.trans hrst) Bool.false_ne_true
  · obtain ⟨hcfg, -, -, -, -, -, -, hin, -⟩ := bridgeStep_keeps hs
    exact ⟨hcfg, hin, rfl⟩

/-- The edge of an access at the target window, in the BT. -/
theorem targetEdge_bt {a : TAccess} (hr : s.sysRunning) (h : targetEdge a s = .next t) :
    t.bt = btEdge s.cfg s.sysIn (some a) (presentedHost s) s.bt :=
  (sysEdge_bt (p := { presented s with target := some a }) hr h).2.2

/-- The edge of an access at the host window, in the BT. -/
theorem hostWindowEdge_bt {a : HAccess} (hr : s.sysRunning) (h : hostWindowEdge a s = .next t) :
    t.bt = btEdge s.cfg s.sysIn (presentedTarget s) (some a) s.bt :=
  (sysEdge_bt (p := { presented s with host := some a }) hr h).2.2

/-- A running system edge with the accesses of the ports. -/
theorem sysTick_bt (hr : s.sysRunning) (h : sysTick s = .next t) :
    t.cfg = s.cfg ∧ t.sysIn = s.sysIn ∧
      t.bt = btEdge s.cfg s.sysIn (presentedTarget s) (presentedHost s) s.bt := by
  rw [sysTick_eq] at h
  exact sysEdge_bt (p := presented s) hr h

/-- A tick of the system clock without reset, in the BT; the parameters stay. -/
theorem tick_sys_bt {i : SysIn} (hr : i.sysRst = false) (h : tick (.sys i) s = .next t) :
    t.cfg = s.cfg ∧ t.sysIn = i ∧
      t.bt = btEdge s.cfg i (presentedTarget (s.sampling i)) (presentedHost (s.sampling i)) s.bt := by
  exact sysTick_bt (s := s.sampling i) hr h

/-- A tick of the host clock leaves the parameters, the system inputs and the BT alone. -/
theorem tick_host_bt {g : HostIn} (h : tick (.host g) s = .next t) : t.cfg = s.cfg ∧ t.sysIn = s.sysIn ∧ t.bt = s.bt := by
  rw [tick, hostTick_eq] at h
  obtain ⟨hcfg, -, hbt, -, -, -, hin, -⟩ := hostEdge_keeps h
  exact ⟨hcfg, hin, hbt⟩

/-- A run of host edges leaves the parameters, the system inputs and the BT alone. -/
theorem runTicks_host_bt {ts : List Tick} (hts : sysInputs ts = []) (hrun : runTicks ts s = .next t) :
    t.cfg = s.cfg ∧ t.sysIn = s.sysIn ∧ t.bt = s.bt := by
  induction ts generalizing s with
  | nil => cases hrun; exact ⟨rfl, rfl, rfl⟩
  | cons x xs ih =>
    obtain ⟨s1, hx, hxs⟩ := runTicks_cons hrun
    cases x with
    | sys i => cases hts
    | host g =>
      obtain ⟨hcfg, hin, hbt⟩ := tick_host_bt hx
      obtain ⟨hcfg', hin', hbt'⟩ := ih hts hxs
      exact ⟨hcfg'.trans hcfg, hin'.trans hin, hbt'.trans hbt⟩

end

/-! ## A pending bit along a run -/

/-- A register write at its low bits, or the old value (R248). -/
theorem writeLow2_getLsbD {k : Nat} (hk : k < 2) (w : Option Byte) (old : BitVec 2) :
    (writeLow2 w old).getLsbD k = (w.map (·.getLsbD k)).getD (old.getLsbD k) := by
  cases w with
  | none => rfl
  | some b => simp [writeLow2, hk]

/-- What the write leaves set, the events leave set (R248). -/
theorem nextHostStatus_getLsbD_of_write {status mask : BitVec 2} {w : Option Byte} {k : Nat}
    (h : (writeLow2 w status).getLsbD k = true) (ev0 ev1 : Bool) :
    (nextHostStatus status mask w ev0 ev1).getLsbD k = true := by
  rw [nextHostStatus, BitVec.getLsbD_or, h, Bool.true_or]

/-- A tick keeps a host pending bit that no status write clears, if no system reset is sampled (R248, R254). -/
theorem tick_keeps_pending {x : Tick} {s t : State} {k : Nat} (hk : k < 2) (hset : s.bt.hStatus.getLsbD k = true)
    (hkeep : ∀ i, x = .sys i → i.sysRst = false ∧
      ∀ a b, (s.sampling i).servedHost = some a → a.status = some b → b.getLsbD k = true)
    (h : tick x s = .next t) : t.bt.hStatus.getLsbD k = true := by
  cases x with
  | host g => rwa [(tick_host_bt h).2.2]
  | sys i =>
    obtain ⟨hr, hwrite⟩ := hkeep i rfl
    rw [(tick_sys_bt hr h).2.2]
    refine nextHostStatus_getLsbD_of_write ?_ _ _
    rw [writeLow2_getLsbD hk]
    change ((((s.sampling i).servedHost.getD HAccess.idle).status.map _).getD _) = true
    cases hserved : (s.sampling i).servedHost with
    | none => exact hset
    | some a =>
      cases hstatus : a.status with
      | none => simpa [hstatus] using hset
      | some b => simpa [hstatus] using hwrite a b hserved hstatus

/-- Settles O55: along the run, each tick keeps the bit. -/
theorem pendingUntilCleared : Obligations.PendingUntilCleared := by
  intro s t ts k hk
  induction ts generalizing s with
  | nil => intro hset _ hrun; cases hrun; exact hset
  | cons x xs ih =>
    intro hset hkeep hrun
    obtain ⟨s1, hx, hxs⟩ := runTicks_cons hrun
    refine ih s1 (tick_keeps_pending hk hset ?first hx) ?rest hxs
    case first =>
      rintro i rfl
      exact hkeep [] xs i s rfl rfl
    case rest =>
      rintro ts1 ts2 i u rfl hu
      exact hkeep (x :: ts1) ts2 i u rfl (by rw [runTicks, hx]; exact hu)

end Sys2Proof.Machine
end

section
/-! PROOF. O58: from states whose pushed marks mean what they say, `P_WRDY_DIP` changes no step (R252). -/

namespace Sys2Proof.Machine

/-! ## The dip in the BT -/

/-- A FIFO that was not pushed at the edge before does not dip (R252). -/
@[simp] theorem dipDrops_not_pushed (p : Params) (draw : Bool) (old : List Byte) : dipDrops p false draw old = false := by
  simp [dipDrops]

/-- An idle writer's FIFO was not pushed at the edge before, if the mark means what it says. -/
theorem not_pushed_of_idle {pushed : Bool} {w : Window} (hinv : pushed = true → w.st = .ack) (h : w.st = .idle) :
    pushed = false :=
  Bool.eq_false_iff.mpr fun hp => by cases h.symm.trans (hinv hp)

/-- The byte of a window's access is pushed only where its FIFO was not pushed at the edge before (R252). -/
theorem not_pushed_of_push {α : Type} {pushed : Bool} {w : Window} (hinv : pushed = true → w.st = .ack) {a : Option α}
    {d : α} {push : α → Option Byte} (hd : push d = none) (h : (push ((w.serves a).getD d)).isSome = true) :
    pushed = false := by
  cases hs : w.serves a with
  | none => rw [hs, Option.getD_none, hd] at h; cases h
  | some x => exact not_pushed_of_idle hinv (idle_of_serves hs)

/-- A FIFO never pushed at two edges in a row never dips, whatever `P_WRDY_DIP` and the draw are. -/
theorem dip_unobservable {pushed : Bool} {push : Option Byte} (hpush : push.isSome = true → pushed = false) (p p' : Params)
    (draw : Bool) (depth : Nat) (clr pop : Bool) (old : List Byte) :
    fifoNext depth clr (dipDrops p pushed draw old) push pop old =
      fifoNext depth clr (dipDrops p' pushed draw old) push pop old ∧
    pushTaken depth clr (dipDrops p pushed draw old) push old =
      pushTaken depth clr (dipDrops p' pushed draw old) push old := by
  cases push with
  | none => exact ⟨rfl, rfl⟩
  | some w => simp [hpush rfl]

/-- The BT's edge does not depend on `P_WRDY_DIP`. -/
theorem btEdge_withDip {s : State} (hs : s.PushedInv) (c : Bool) (i : SysIn) (t : Option TAccess) (h : Option HAccess) :
    btEdge (s.withDip c).cfg i t h s.bt = btEdge s.cfg i t h s.bt := by
  obtain ⟨ht2h, hh2t⟩ := hs
  obtain ⟨hfifoT, hpushedT⟩ := dip_unobservable
    (not_pushed_of_push ht2h (a := t) (d := .idle) (push := TAccess.push) rfl) (s.withDip c).cfg s.cfg i.dipT2h
    s.cfg.btDepth s.bt.clrT2h ((s.bt.hWin.serves h).getD .idle).pop s.bt.fifoT2h
  obtain ⟨hfifoH, hpushedH⟩ := dip_unobservable
    (not_pushed_of_push hh2t (a := h) (d := .idle) (push := HAccess.push) rfl) (s.withDip c).cfg s.cfg i.dipH2t
    s.cfg.btDepth s.bt.clrH2t ((s.bt.tWin.serves t).getD .idle).pop s.bt.fifoH2t
  exact (Bt.mk.injEq ..).mpr
    ⟨rfl, rfl, rfl, rfl, rfl, hfifoT, hfifoH, rfl, rfl, hpushedT, hpushedH, rfl, rfl⟩

/-! ## The dip in the rest of the machine -/

section
variable {s t : State} (c : Bool)

/-- A drive does not read the parameters. -/
theorem driveBus_withDip (x : Command) (s : State) : driveBus x (s.withDip c) = (driveBus x s).withDip c := by
  unfold driveBus
  split <;> rfl

/-- A dispatch does not read the parameters. -/
theorem dispatch_withDip (x : Command) (s : State) : dispatch x (s.withDip c) = (dispatch x s).withDip c :=
  driveBus_withDip c x { s with cmdq := s.cmdq.tail, disp := { busy := true, discard := false, cur := x } }

/-- A queue reset does not read the parameters. -/
theorem queueReset_withDip (race : Bool) (s : State) :
    queueReset race (s.withDip c) = (queueReset race s).withDip c := by
  unfold queueReset State.withDip
  dsimp only
  split
  · rfl
  · split
    · rfl
    · next x _ =>
      split
      · have hdrive := driveBus_withDip c x { s with disp := { busy := true, discard := true, cur := x } }
        simp only [State.withDip] at hdrive
        rw [hdrive]
      · rfl

/-- A host edge whose command queue takes what the PSM's rule hands over answers a next state. -/
theorem hostEdge_of_enqueue {q : List (QEntry Command)} (hq : enqueueCommand (psmOut s).enq s.cmdq = some q) :
    hostEdge s = .next
      (if queueResetDue s.cfg s.hostIn s.psm then queueReset s.hostIn.race (afterPsm s q) else afterPsm s q) := by
  rw [hostEdge_eq, hq]

/-- A host edge does not read `P_WRDY_DIP`. -/
theorem hostEdge_withDip (h : hostEdge s = .next t) : hostEdge (s.withDip c) = .next (t.withDip c) := by
  obtain ⟨q, hq, hcases⟩ := hostEdge_cases h
  have hedge := hostEdge_of_enqueue (s := s.withDip c) hq
  have hafter : afterPsm (s.withDip c) q = (afterPsm s q).withDip c := rfl
  have hlevels : queueResetDue (s.withDip c).cfg (s.withDip c).hostIn (s.withDip c).psm =
    queueResetDue s.cfg s.hostIn s.psm := rfl
  rw [hafter, hlevels] at hedge
  obtain ⟨hno, rfl⟩ | ⟨hdue, rfl⟩ := hcases
  · rw [State.noQueueReset] at hno
    rwa [hno, if_neg Bool.false_ne_true] at hedge
  · rwa [hdue, if_pos rfl, queueReset_withDip] at hedge

/-- A move of the dispatcher does not read `P_WRDY_DIP`. -/
theorem bridgeMove_withDip {p : Presented} {s1 : State} (h : BridgeMove p s s1) :
    BridgeMove p (s.withDip c) (s1.withDip c) := by
  cases h with
  | wait hb ha => exact .wait (s := s.withDip c) hb ha
  | finish hb ha hq => exact .finish (s := s.withDip c) hb ha hq
  | rest hb hp => exact .rest (s := s.withDip c) hb hp
  | take hb hp =>
    rw [← dispatch_withDip]
    exact .take (s := s.withDip c) hb hp

/-- The end of a system edge does not read `P_WRDY_DIP`. -/
theorem afterBridge_withDip (hs : s.PushedInv) (p : Presented) (s1 : State) :
    afterBridge p (s.withDip c) (s1.withDip c) = (afterBridge p s s1).withDip c :=
  calc afterBridge p (s.withDip c) (s1.withDip c)
    _ = { (afterBridge p s s1).withDip c with
          bt := btEdge (s.withDip c).cfg s.sysIn p.target p.host s.bt } := rfl
    _ = (afterBridge p s s1).withDip c := by rw [btEdge_withDip hs]; rfl

/-- The system edge of a state that meets the pushed-mark invariant does not depend on `P_WRDY_DIP`. -/
theorem sysEdge_withDip (hs : s.PushedInv) {p : Presented} (h : sysEdge p s = .next t) :
    sysEdge p (s.withDip c) = .next (t.withDip c) := by
  obtain ⟨hrst, rfl⟩ | ⟨hr, s1, hmove, rfl⟩ := sysEdge_moves h
  · exact sysEdge_of_sysRst (s := s.withDip c) hrst p
  · rw [sysEdge_of_bridgeMove (s := s.withDip c) hr (bridgeMove_withDip c hmove), afterBridge_withDip c hs]

end

/-- Settles O58: host edges do not read the parameter, and at system edges a FIFO pushed at the edge before takes no push. -/
theorem writeReadyDipUnobservable : Obligations.WriteReadyDipUnobservable := by
  intro s t c hs h
  have hnext : nextTick (s.withDip c) = ((nextTick s).1, (nextTick s).2.withDip c) := by
    unfold nextTick
    cases hscript : s.script <;> simp [State.withDip, hscript]
  have hinv : (nextTick s).2.PushedInv := by
    unfold nextTick
    split <;> exact hs
  unfold step at h ⊢
  rw [hnext]
  cases hx : (nextTick s).1 with
  | host g =>
    rw [hx, tick, hostTick_eq] at h
    rw [tick, hostTick_eq]
    exact hostEdge_withDip c h
  | sys i =>
    rw [hx, tick, sysTick_eq] at h
    rw [tick, sysTick_eq]
    exact sysEdge_withDip c (s := (nextTick s).2.sampling i) hinv h

end Sys2Proof.Machine
end

section
/-! PROOF. O59: a BT FIFO between its two windows, over the edges of two environment masters. -/

namespace Sys2Proof.Machine

/-! ## The BT along a run whose windows the map does not reach -/

/-- The access that the target window's environment master presents (R223). -/
def Bt.targetMaster (p : Params) (i : SysIn) (b : Bt) : Option TAccess :=
  if i.tPort.stb then some (targetAccess p b i.tPort.we i.tPort.adr i.tPort.datW) else none

/-- The access that the host window's environment master presents (R223). -/
def Bt.hostMaster (p : Params) (i : SysIn) (b : Bt) : Option HAccess :=
  if i.hPort.stb then some (hostAccess p b i.hPort.we i.hPort.adr i.hPort.datW) else none

/-- One system edge of a BT whose windows are both driven by environment masters. -/
def Bt.masterEdge (p : Params) (b : Bt) (i : SysIn) : Bt :=
  if i.sysRst then Bt.reset else btEdge p i (b.targetMaster p i) (b.hostMaster p i) b

/-- A system edge without reset is the BT's own edge (R253). -/
theorem masterEdge_running {p : Params} {i : SysIn} (hr : i.sysRst = false) (b : Bt) :
    b.masterEdge p i = btEdge p i (b.targetMaster p i) (b.hostMaster p i) b := by
  simp [Bt.masterEdge, hr]

/-- A system tick takes the BT through the masters' edge, where the map reaches neither window. -/
theorem tick_sys_masterEdge {i : SysIn} {s t : State} (hT : mapsTarget s.cfg = false) (hH : mapsHost s.cfg = false)
    (h : tick (.sys i) s = .next t) : t.cfg = s.cfg ∧ t.bt = s.bt.masterEdge s.cfg i := by
  cases hr : i.sysRst with
  | true =>
    rw [tick, sysTick_eq, sysEdge_of_sysRst (s := { s with sysIn := i }) hr] at h
    cases h
    exact ⟨rfl, by simp [Bt.masterEdge, hr]⟩
  | false =>
    obtain ⟨hcfg, -, hbt⟩ := tick_sys_bt hr h
    have htarget : presentedTarget (s.sampling i) = s.bt.targetMaster s.cfg i := by
      simp [presentedTarget, targetPort, hT, Bt.targetMaster]
    have hhost : presentedHost (s.sampling i) = s.bt.hostMaster s.cfg i := by
      simp [presentedHost, hostPort, hH, Bt.hostMaster]
    exact ⟨hcfg, by rw [hbt, htarget, hhost, masterEdge_running hr]⟩

/-- A run takes the BT through the masters' edges of its system ticks, whatever its host edges are. -/
theorem runTicks_masterEdges {ts : List Tick} {s t : State} (hT : mapsTarget s.cfg = false) (hH : mapsHost s.cfg = false)
    (hrun : runTicks ts s = .next t) : t.bt = (sysInputs ts).foldl (Bt.masterEdge s.cfg) s.bt := by
  induction ts generalizing s with
  | nil => cases hrun; rfl
  | cons x xs ih =>
    obtain ⟨s1, hx, hxs⟩ := runTicks_cons hrun
    cases x with
    | host g =>
      obtain ⟨hcfg, -, hbt⟩ := tick_host_bt hx
      rw [ih (by rwa [hcfg]) (by rwa [hcfg]) hxs, hcfg, hbt]
      rfl
    | sys i =>
      obtain ⟨hcfg, hbt⟩ := tick_sys_masterEdge hT hH hx
      rw [ih (by rwa [hcfg]) (by rwa [hcfg]) hxs, hcfg, hbt]
      rfl

/-- The system edges of two runs, one after the other. -/
theorem sysInputs_append (ts us : List Tick) : sysInputs (ts ++ us) = sysInputs ts ++ sysInputs us := by
  induction ts with
  | nil => rfl
  | cons x xs ih =>
    cases x with
    | host g => exact ih
    | sys i => exact congrArg (i :: ·) ih

/-! ## A FIFO with its two windows -/

/-- One of the two FIFOs, with its clear pulse, its pushed mark, and the windows it is written and read through. -/
structure Channel where
  fifo   : List Byte
  clr    : Bool
  pushed : Bool
  writer : Window
  reader : Window

/-- `fifo_t2h`, from the target window to the host window. -/
def Bt.t2h (b : Bt) : Channel :=
  { fifo := b.fifoT2h, clr := b.clrT2h, pushed := b.pushedT2h, writer := b.tWin, reader := b.hWin }

/-- `fifo_h2t`, from the host window to the target window. -/
def Bt.h2t (b : Bt) : Channel :=
  { fifo := b.fifoH2t, clr := b.clrH2t, pushed := b.pushedH2t, writer := b.hWin, reader := b.tWin }

/-- The bytes of a FIFO after a push of w: the byte is dropped at the depth (R243). -/
def fifoPush (depth : Nat) (q : List Byte) (w : Byte) : List Byte := if q.length < depth then q ++ [w] else q

/-- The channel holds the bytes q and nothing else is under way: no clear pulse, no push just taken, both windows idle. -/
def Channel.Rests (c : Channel) (q : List Byte) : Prop :=
  c.fifo = q ∧ c.clr = false ∧ c.pushed = false ∧ c.writer.st = .idle ∧ c.reader.st = .idle

/-- The channel after an edge that serves neither window. -/
def Channel.quiet (c : Channel) : Channel :=
  { fifo := if c.clr then [] else c.fifo, clr := false, pushed := false,
    writer := { c.writer with st := .idle }, reader := { c.reader with st := .idle } }

/-- The channel, at rest, after a write of w served at its writer's window. -/
def Channel.written (depth : Nat) (w : Byte) (c : Channel) : Channel :=
  { c with fifo := fifoPush depth c.fifo w, pushed := decide (c.fifo.length < depth),
           writer := { c.writer with st := .ack } }

/-- The channel, at rest, after a read served at its reader's window. -/
def Channel.read (c : Channel) : Channel :=
  { c with fifo := c.fifo.tail, reader := { st := .ack, datR := fifoHead c.fifo } }

/-- A quiet edge keeps the bytes of a channel that is not being cleared. -/
theorem rests_quiet {c : Channel} (hclr : c.clr = false) : c.quiet.Rests c.fifo := by
  simp [Channel.Rests, Channel.quiet, hclr]

/-- What two masters do to the channel `chan`: an edge without a strobe, and the edge after an access, are quiet; a write and
a read, of a channel at rest, are `written` and `read`. -/
structure Carries (p : Params) (chan : Bt → Channel) (writes reads : Byte → SysIn → Prop)
    (writeAcked readAcked : SysIn → Prop) : Prop where
  quiet      : ∀ {b : Bt} {i : SysIn}, SysIn.noTarget i → SysIn.noHost i → chan (b.masterEdge p i) = (chan b).quiet
  written    : ∀ {b : Bt} {i : SysIn} {q : List Byte} {w : Byte}, (chan b).Rests q → writes w i →
    chan (b.masterEdge p i) = (chan b).written p.btDepth w
  read       : ∀ {b : Bt} {i : SysIn} {q : List Byte} {w : Byte}, (chan b).Rests q → reads w i →
    chan (b.masterEdge p i) = (chan b).read
  writeAcked : ∀ {b : Bt} {i : SysIn}, (chan b).writer.st = .ack → writeAcked i → chan (b.masterEdge p i) = (chan b).quiet
  readAcked  : ∀ {b : Bt} {i : SysIn}, (chan b).reader.st = .ack → readAcked i → chan (b.masterEdge p i) = (chan b).quiet

/-! ## Sequences of accesses -/

section
variable {p : Params} {chan : Bt → Channel}

/-- Along a sequence of accesses, a channel at rest comes to rest after each of them with the bytes that access leaves. -/
theorem rests_accessSequence {access : Byte → SysIn → Prop} {acked : SysIn → Prop} (next : List Byte → Byte → List Byte)
    (hidle : ∀ {b : Bt} {q : List Byte} {i : SysIn}, (chan b).Rests q → SysIn.noTarget i → SysIn.noHost i →
      (chan (b.masterEdge p i)).Rests q)
    (haccess : ∀ {b : Bt} {q : List Byte} {i j : SysIn} {w : Byte}, (chan b).Rests q → access w i → acked j →
      (chan ((b.masterEdge p i).masterEdge p j)).Rests (next q w))
    {is : List SysIn} {ws : List Byte} (h : AccessSequence access acked is ws) :
    ∀ {b : Bt} {q : List Byte}, (chan b).Rests q → (chan (is.foldl (Bt.masterEdge p) b)).Rests (ws.foldl next q) := by
  induction h with
  | done => exact id
  | idle hT hH _ ih => exact fun hb => ih (hidle hb hT hH)
  | access ha hj _ ih => exact fun hb => ih (haccess hb ha hj)

/-- Pushes fill a FIFO to its depth, in order. -/
theorem foldl_fifoPush (depth : Nat) (ws : List Byte) :
    ∀ q : List Byte, q.length ≤ depth → ws.foldl (fifoPush depth) q = (q ++ ws).take depth := by
  induction ws with
  | nil => intro q hq; simp [List.take_of_length_le hq]
  | cons w ws ih =>
    intro q hq
    rw [List.foldl_cons, fifoPush]
    split
    · next hroom => rw [ih _ (by simpa using hroom), List.append_assoc, List.singleton_append]
    · next hfull =>
      have hlen : q.length = depth := by omega
      rw [ih q hq, List.take_append_of_le_length hlen.ge, List.take_append_of_le_length hlen.ge]

/-- Pops take the bytes of a FIFO from its head. -/
theorem foldl_tail (ws : List Byte) : ∀ q : List Byte, ws.foldl (fun q _ => q.tail) q = q.drop ws.length := by
  induction ws with
  | nil => exact fun _ => rfl
  | cons w ws ih => intro q; rw [List.foldl_cons, ih, List.drop_tail, List.length_cons]

/-- The head of what is left after k pops is the k-th byte (R243). -/
theorem fifoHead_drop (q : List Byte) (k : Nat) : fifoHead (q.drop k) = q.getD k 0 := by
  rw [List.getD_eq_getElem?_getD, ← List.head?_drop]
  cases q.drop k <;> rfl

variable {writes reads : Byte → SysIn → Prop} {writeAcked readAcked : SysIn → Prop}

/-- The round trip of a channel (R255). -/
theorem Carries.roundTrip (hc : Carries p chan writes reads writeAcked readAcked) {b : Bt} (hb : (chan b).Rests [])
    {pushes pops : List SysIn} {bs ws : List Byte} {i : SysIn} {w : Byte}
    (hpushes : AccessSequence writes writeAcked pushes bs) (hpops : AccessSequence reads readAcked pops ws)
    (hi : reads w i) :
    (chan ((pushes ++ pops ++ [i]).foldl (Bt.masterEdge p) b)).reader.datR = (bs.take p.btDepth).getD ws.length 0 := by
  have hidle : ∀ {b : Bt} {q : List Byte} {i : SysIn}, (chan b).Rests q → SysIn.noTarget i → SysIn.noHost i →
      (chan (b.masterEdge p i)).Rests q := by
    rintro b q i ⟨rfl, hclr, -⟩ hT hH
    rw [hc.quiet hT hH]
    exact rests_quiet hclr
  have hwrite : ∀ {b : Bt} {q : List Byte} {i j : SysIn} {w : Byte}, (chan b).Rests q → writes w i → writeAcked j →
      (chan ((b.masterEdge p i).masterEdge p j)).Rests (fifoPush p.btDepth q w) := by
    intro b q i j w hb hi hj
    have hedge := hc.written hb hi
    obtain ⟨rfl, hclr, -⟩ := hb
    rw [hc.writeAcked (by rw [hedge]; rfl) hj, hedge]
    exact rests_quiet (c := (chan b).written p.btDepth w) hclr
  have hread : ∀ {b : Bt} {q : List Byte} {i j : SysIn} {w : Byte}, (chan b).Rests q → reads w i → readAcked j →
      (chan ((b.masterEdge p i).masterEdge p j)).Rests q.tail := by
    intro b q i j w hb hi hj
    have hedge := hc.read hb hi
    obtain ⟨rfl, hclr, -⟩ := hb
    rw [hc.readAcked (by rw [hedge]; rfl) hj, hedge]
    exact rests_quiet (c := (chan b).read) hclr
  have hfull := rests_accessSequence (fifoPush p.btDepth) hidle hwrite hpushes hb
  have hrest := rests_accessSequence (fun q _ => q.tail) hidle hread hpops hfull
  rw [foldl_fifoPush p.btDepth bs [] (Nat.zero_le _), List.nil_append, foldl_tail] at hrest
  rw [List.foldl_append, List.foldl_append, List.foldl_cons, List.foldl_nil, hc.read hrest hi, ← fifoHead_drop, ← hrest.1]
  rfl

end

/-! ## The two channels -/

section
variable {p : Params} {b : Bt} {i : SysIn}

/-- Without its master's strobe the target window serves nothing. -/
theorem serves_targetMaster_none (h : i.tPort.stb = false) : b.tWin.serves (b.targetMaster p i) = none := by
  simp [Bt.targetMaster, h]

/-- Without its master's strobe the host window serves nothing. -/
theorem serves_hostMaster_none (h : i.hPort.stb = false) : b.hWin.serves (b.hostMaster p i) = none := by
  simp [Bt.hostMaster, h]

/-- An edge that serves neither window is quiet for both channels. -/
theorem masterEdge_quiet (hr : i.sysRst = false) (ht : b.tWin.serves (b.targetMaster p i) = none)
    (hh : b.hWin.serves (b.hostMaster p i) = none) :
    (b.masterEdge p i).t2h = b.t2h.quiet ∧ (b.masterEdge p i).h2t = b.h2t.quiet := by
  rw [masterEdge_running hr, btEdge_quiet ht hh]
  exact ⟨rfl, rfl⟩

/-- Without the target master's strobe the edge is that of the host's access alone. -/
theorem masterEdge_hostOnly (hr : i.sysRst = false) (ht : i.tPort.stb = false) {x : HAccess}
    (hh : b.hostMaster p i = some x) : b.masterEdge p i = btEdge p i none (some x) b := by
  rw [masterEdge_running hr, btEdge_target_unserved (serves_targetMaster_none ht), hh]

/-- Without the host master's strobe the edge is that of the target's access alone. -/
theorem masterEdge_targetOnly (hr : i.sysRst = false) (hh : i.hPort.stb = false) {x : TAccess}
    (ht : b.targetMaster p i = some x) : b.masterEdge p i = btEdge p i (some x) none b := by
  rw [masterEdge_running hr, btEdge_host_unserved (serves_hostMaster_none hh), ht]

/-- A byte pushed into a FIFO that is not being cleared and does not dip. -/
theorem fifoNext_push (depth : Nat) (w : Byte) (q : List Byte) :
    fifoNext depth false false (some w) false q = fifoPush depth q w := by
  simp [fifoNext, fifoPush]

/-- The target's data write and the host's data read carry `fifo_t2h`. -/
theorem carries_t2h (p : Params) :
    Carries p Bt.t2h (SysIn.targetAccesses true 1) (SysIn.hostAccesses false 5) SysIn.noHost SysIn.noTarget where
  quiet := fun ⟨hr, ht⟩ ⟨_, hh⟩ => (masterEdge_quiet hr (serves_targetMaster_none ht) (serves_hostMaster_none hh)).1
  writeAcked := fun hack ⟨hr, hh⟩ => (masterEdge_quiet hr (serves_of_ack hack _) (serves_hostMaster_none hh)).1
  readAcked := fun hack ⟨hr, ht⟩ => (masterEdge_quiet hr (serves_targetMaster_none ht) (serves_of_ack hack _)).1
  written := by
    rintro b i q w ⟨-, (hclr : b.clrT2h = false), (hpushed : b.pushedT2h = false), (hwriter : b.tWin.st = .idle),
      (hreader : b.hWin.st = .idle)⟩ ⟨hr, hport, hother⟩
    have hpresented : b.targetMaster p i = some (accTDataWr w) := by rw [Bt.targetMaster, hport]; rfl
    rw [masterEdge_targetOnly hr hother hpresented]
    simp [btEdge, Bt.t2h, Channel.written, accTDataWr, HAccess.idle, Window.serves, Window.next, fifoNext_push, pushTaken,
      hclr, hpushed, hwriter, hreader]
  read := by
    rintro b i q w ⟨-, (hclr : b.clrT2h = false), (hpushed : b.pushedT2h = false), (hwriter : b.tWin.st = .idle),
      (hreader : b.hWin.st = .idle)⟩ ⟨hr, hport, hother⟩
    have hpresented : b.hostMaster p i = some (accHDataRd b) := by rw [Bt.hostMaster, hport]; rfl
    rw [masterEdge_hostOnly hr hother hpresented]
    simp [btEdge, Bt.t2h, Channel.read, accHDataRd, TAccess.idle, Window.serves, Window.next, fifoNext, pushTaken,
      hclr, hpushed, hwriter, hreader]

/-- The host's data write and the target's data read carry `fifo_h2t`. -/
theorem carries_h2t (p : Params) :
    Carries p Bt.h2t (SysIn.hostAccesses true 5) (SysIn.targetAccesses false 1) SysIn.noTarget SysIn.noHost where
  quiet := fun ⟨hr, ht⟩ ⟨_, hh⟩ => (masterEdge_quiet hr (serves_targetMaster_none ht) (serves_hostMaster_none hh)).2
  writeAcked := fun hack ⟨hr, ht⟩ => (masterEdge_quiet hr (serves_targetMaster_none ht) (serves_of_ack hack _)).2
  readAcked := fun hack ⟨hr, hh⟩ => (masterEdge_quiet hr (serves_of_ack hack _) (serves_hostMaster_none hh)).2
  written := by
    rintro b i q w ⟨-, (hclr : b.clrH2t = false), (hpushed : b.pushedH2t = false), (hwriter : b.hWin.st = .idle),
      (hreader : b.tWin.st = .idle)⟩ ⟨hr, hport, hother⟩
    have hpresented : b.hostMaster p i = some (accHDataWr w) := by rw [Bt.hostMaster, hport]; rfl
    rw [masterEdge_hostOnly hr hother hpresented]
    simp [btEdge, Bt.h2t, Channel.written, accHDataWr, TAccess.idle, Window.serves, Window.next, fifoNext_push, pushTaken,
      hclr, hpushed, hwriter, hreader]
  read := by
    rintro b i q w ⟨-, (hclr : b.clrH2t = false), (hpushed : b.pushedH2t = false), (hwriter : b.hWin.st = .idle),
      (hreader : b.tWin.st = .idle)⟩ ⟨hr, hport, hother⟩
    have hpresented : b.targetMaster p i = some (accTDataRd b) := by rw [Bt.targetMaster, hport]; rfl
    rw [masterEdge_targetOnly hr hother hpresented]
    simp [btEdge, Bt.h2t, Channel.read, accTDataRd, HAccess.idle, Window.serves, Window.next, fifoNext, pushTaken,
      hclr, hpushed, hwriter, hreader]

end

/-- Settles O59: a run is the masters' edges of its system ticks, along which each FIFO is a channel that carries. -/
theorem fifoRoundTrip : Obligations.FifoRoundTrip := by
  rintro s t pushes pops last bs ws i w hT hH ⟨hpushedT, hpushedH⟩ hidleT hidleH hlast hrun
  have hbt := runTicks_masterEdges hT hH hrun
  rw [sysInputs_append, sysInputs_append, hlast] at hbt
  rw [hbt]
  constructor
  · intro hempty hclr hpushes hpops hi
    exact (carries_t2h s.cfg).roundTrip
      ⟨hempty, hclr, not_pushed_of_idle hpushedT hidleT, hidleT, hidleH⟩ hpushes hpops hi
  · intro hempty hclr hpushes hpops hi
    exact (carries_h2t s.cfg).roundTrip
      ⟨hempty, hclr, not_pushed_of_idle hpushedH hidleH, hidleH, hidleT⟩ hpushes hpops hi

end Sys2Proof.Machine
end

section
/-! PROOF. O51, O52, O53, O54 and O57: what the edges of the BT do, whatever stands at the two windows. -/

namespace Sys2Proof.Machine

/-! ## Edges that serve nothing (R240, R253) -/

/-- Settles O52: the edge is the BT's quiet edge. -/
theorem quietBtEdge : Obligations.QuietBtEdge := by
  intro s t hr hT hH h
  obtain ⟨-, -, hbt⟩ := sysTick_bt hr h
  rw [hbt, btEdge_quiet hT hH]

/-- System edges with the same command, whose accesses come to the same BT, are the same edge. -/
theorem sysEdge_congr {s : State} {p q : Presented} (hcommand : p.command = q.command)
    (hbt : btEdge s.cfg s.sysIn p.target p.host s.bt = btEdge s.cfg s.sysIn q.target q.host s.bt) :
    sysEdge p s = sysEdge q s := by
  simp only [sysEdge, hcommand, hbt]

/-- At a target window in ACK an access changes nothing of the edge (R240). -/
theorem targetEdge_of_ack {s : State} (h : s.bt.tWin.st = .ack) (a : TAccess) : targetEdge a s = withoutTarget s :=
  sysEdge_congr rfl (btEdge_target_unserved (serves_of_ack h _))

/-- At a host window in ACK an access changes nothing of the edge (R240). -/
theorem hostWindowEdge_of_ack {s : State} (h : s.bt.hWin.st = .ack) (a : HAccess) :
    hostWindowEdge a s = withoutHost s :=
  sysEdge_congr rfl (btEdge_host_unserved (serves_of_ack h _))

/-- An idle target window serves its environment master's strobe, where the map does not reach the window (R223). -/
theorem servedTarget_of_master {s : State} (hmap : mapsTarget s.cfg = false) (hidle : s.bt.tWin.st = .idle)
    (hstb : s.sysIn.tPort.stb = true) : s.servedTarget.isSome = true := by
  simp [State.servedTarget, serves_of_idle hidle, presentedTarget, targetPort, hmap, hstb]

/-- An idle host window serves its environment master's strobe, where the map does not reach the window (R223). -/
theorem servedHost_of_master {s : State} (hmap : mapsHost s.cfg = false) (hidle : s.bt.hWin.st = .idle)
    (hstb : s.sysIn.hPort.stb = true) : s.servedHost.isSome = true := by
  simp [State.servedHost, serves_of_idle hidle, presentedHost, hostPort, hmap, hstb]

/-- Without its environment master's strobe the target window serves nothing. -/
theorem servedTarget_of_quiet {s : State} (hmap : mapsTarget s.cfg = false) (hstb : s.sysIn.tPort.stb = false) :
    s.servedTarget = none := by
  simp [State.servedTarget, presentedTarget, targetPort, hmap, hstb]

/-- Without its environment master's strobe the host window serves nothing. -/
theorem servedHost_of_quiet {s : State} (hmap : mapsHost s.cfg = false) (hstb : s.sysIn.hPort.stb = false) :
    s.servedHost = none := by
  simp [State.servedHost, presentedHost, hostPort, hmap, hstb]

/-- Two system edges of a master that keeps its handshake, from the edge that serves its strobe on: in the acknowledge
cycle it holds its strobe, at the next edge it has dropped it (R223). Here the window as it stands before each edge is w0,
w1, w2, and the strobes the master presents there `true`, `now` and `after`. -/
theorem handshake_of_served {α : Type} {w0 w1 w2 : Window} {a0 a1 : Option α} {value : α → Option Byte}
    {now after : Bool} (hserved : (w0.serves a0).isSome = true) (h1 : w1 = w0.next ((w0.serves a0).map value))
    (h2 : w2 = w1.next ((w1.serves a1).map value)) (hnow : w1.MasterHandshake true now)
    (hafter : now = true → w2.MasterHandshake true after) :
    w1.st = .ack ∧ now = true ∧ w1.serves a1 = none ∧ w2.st = .idle ∧ after = false := by
  obtain ⟨x, hx⟩ := Option.isSome_iff_exists.mp hserved
  have hack : w1.st = .ack := by rw [h1]; exact next_ack_of_serves hx value
  have hnone := serves_of_ack hack a1
  have hidle : w2.st = .idle := by rw [h2, hnone, Option.map_none, next_none]
  have hheld := hnow.1 hack
  exact ⟨hack, hheld, hnone, hidle, (hafter hheld).2 hidle rfl⟩

/-- Settles O51: a window in ACK serves nothing, and by the handshake the strobe of a served access is 1 once more, then 0. -/
theorem windowInAckServesNothing : Obligations.WindowInAckServesNothing := by
  intro s
  refine ⟨fun hack we adr w => ⟨?targetEdge, fun t hr h => ?targetIdle⟩,
    fun hack we adr w => ⟨?hostEdge, fun t hr h => ?hostIdle⟩, ?handshake⟩
  case targetEdge => rw [exec_decodeTarget, targetEdge_of_ack hack]
  case hostEdge => rw [exec_decodeHost, hostWindowEdge_of_ack hack]
  case targetIdle =>
    obtain ⟨-, -, hbt⟩ := sysEdge_bt (p := { presented s with target := none }) hr h
    rw [hbt]
    simp [btEdge, next_none]
  case hostIdle =>
    obtain ⟨-, -, hbt⟩ := sysEdge_bt (p := { presented s with host := none }) hr h
    rw [hbt]
    simp [btEdge, next_none]
  case handshake =>
    intro t t1 u u1 i j k ts us hri hi hts hrun1 hrj hj hus hrun2 hrk
    obtain ⟨hcfg, hin, hbt⟩ := tick_sys_bt hri hi
    obtain ⟨hcfg1, hin1, hbt1⟩ := runTicks_host_bt hts hrun1
    obtain ⟨hcfg2, hin2, hbt2⟩ := tick_sys_bt hrj hj
    obtain ⟨hcfg3, hin3, hbt3⟩ := runTicks_host_bt hus hrun2
    have hfirst := hbt1.trans hbt
    have hsecond := hbt3.trans hbt2
    have hcfgFirst : t1.cfg = s.cfg := hcfg1.trans hcfg
    have hcfgSecond : u1.cfg = s.cfg := (hcfg3.trans hcfg2).trans hcfgFirst
    constructor
    · intro hmap hidle hstb hnow hafter
      rw [State.TargetMasterContract, hcfgFirst, hin1, hin, hstb, hri] at hnow
      rw [State.TargetMasterContract, hcfgSecond, hin3, hin2, hrj] at hafter
      obtain ⟨hack, hheld, hnone, hidleNext, hdropped⟩ := handshake_of_served
        (a0 := presentedTarget (s.sampling i)) (a1 := presentedTarget (t1.sampling j)) (value := TAccess.value)
        (servedTarget_of_master (s := s.sampling i) hmap hidle hstb) (congrArg Bt.tWin hfirst) (congrArg Bt.tWin hsecond)
        (hnow hmap hrj) (fun hheld => by simpa [hheld] using hafter hmap hrk)
      exact ⟨hack, hheld, hnone, hidleNext, hdropped,
        servedTarget_of_quiet (s := u1.sampling k) ((congrArg mapsTarget hcfgSecond).trans hmap) hdropped⟩
    · intro hmap hidle hstb hnow hafter
      rw [State.HostMasterContract, hcfgFirst, hin1, hin, hstb, hri] at hnow
      rw [State.HostMasterContract, hcfgSecond, hin3, hin2, hrj] at hafter
      obtain ⟨hack, hheld, hnone, hidleNext, hdropped⟩ := handshake_of_served
        (a0 := presentedHost (s.sampling i)) (a1 := presentedHost (t1.sampling j)) (value := HAccess.value)
        (servedHost_of_master (s := s.sampling i) hmap hidle hstb) (congrArg Bt.hWin hfirst) (congrArg Bt.hWin hsecond)
        (hnow hmap hrj) (fun hheld => by simpa [hheld] using hafter hmap hrk)
      exact ⟨hack, hheld, hnone, hidleNext, hdropped,
        servedHost_of_quiet (s := u1.sampling k) ((congrArg mapsHost hcfgSecond).trans hmap) hdropped⟩

/-! ## The accesses of both windows together (R246 to R249) -/

/-- The flags after a running system edge (R246). -/
theorem sysTick_flags {s t : State} (hr : s.sysRunning) (h : sysTick s = .next t) :
    t.bt.flags = nextFlags s.cfg.layout s.sysIn.scRace s.targetCtrl s.hostCtrl s.bt.flags := by
  obtain ⟨-, -, hbt⟩ := sysTick_bt hr h
  rw [hbt]
  rfl

/-- Settles O53: R246 at the positions of the default layout. -/
theorem controlBitsCombine : Obligations.ControlBitsCombine := by
  rintro s t wT wH hr hlayout rfl rfl h
  rw [sysTick_flags hr h, hlayout]
  exact ⟨rfl, rfl, rfl, rfl, rfl, rfl⟩

/-- A host pending bit after an edge: the write or the old bit, then its event, gated by the old mask (R248). -/
theorem nextHostStatus_getLsbD (status mask : BitVec 2) (w : Option Byte) (ev0 ev1 : Bool) :
    (nextHostStatus status mask w ev0 ev1).getLsbD 0 =
      ((w.map (·.getLsbD 0)).getD (status.getLsbD 0) || (ev0 && mask.getLsbD 0)) ∧
    (nextHostStatus status mask w ev0 ev1).getLsbD 1 =
      ((w.map (·.getLsbD 1)).getD (status.getLsbD 1) || (ev1 && mask.getLsbD 1)) := by
  rw [nextHostStatus, BitVec.getLsbD_or, BitVec.getLsbD_or, writeLow2_getLsbD Nat.zero_lt_two,
    writeLow2_getLsbD Nat.one_lt_two, BitVec.getLsbD_append, BitVec.getLsbD_append]
  simp

/-- The target's pending bit after an edge: cleared by the write, then set by the event, gated by the old enable (R249). -/
theorem nextTargetPending_eq (pend en ev : Bool) (w : Option Byte) :
    nextTargetPending pend en w ev = ((w.elim pend (fun b => pend && !b.getLsbD 1)) || (ev && en)) := by
  cases w with
  | none => rfl
  | some b =>
    simp only [nextTargetPending, Option.elim]
    cases b.getLsbD 1 <;> simp

/-- The interrupt registers after a running system edge (R248, R249). -/
theorem sysTick_interrupts {s t : State} (hr : s.sysRunning) (h : sysTick s = .next t) :
    t.bt.hStatus = nextHostStatus s.bt.hStatus s.bt.hMask (s.servedHost.getD .idle).status
      (eventH0 s.bt.flags t.bt.flags) (eventH1 s.bt.flags t.bt.flags) ∧
    t.bt.hMask = writeLow2 (s.servedHost.getD .idle).mask s.bt.hMask ∧
    t.bt.tPend = nextTargetPending s.bt.tPend s.bt.tEn (s.servedTarget.getD .idle).intcfg
      (eventT s.bt.flags t.bt.flags) ∧
    t.bt.tEn = nextTargetEnable s.bt.tEn (s.servedTarget.getD .idle).intcfg := by
  obtain ⟨-, -, hbt⟩ := sysTick_bt hr h
  rw [hbt]
  exact ⟨rfl, rfl, rfl, rfl⟩

/-- Settles O54: each register's write, present or absent, then the events. -/
theorem pendingBitsCombine : Obligations.PendingBitsCombine := by
  rintro s t ta ha hr rfl rfl h
  obtain ⟨hstatus, hmask, hpend, hen⟩ := sysTick_interrupts hr h
  obtain ⟨hbit0, hbit1⟩ := nextHostStatus_getLsbD s.bt.hStatus s.bt.hMask (s.servedHost.getD .idle).status
    (eventH0 s.bt.flags t.bt.flags) (eventH1 s.bt.flags t.bt.flags)
  rw [← hstatus] at hbit0 hbit1
  rw [hbit0, hbit1, hmask, hpend, hen, nextTargetPending_eq]
  refine ⟨?_, ?_, ?_, ?_, ?_⟩
  · cases (s.servedHost.getD .idle).status <;> rfl
  · cases (s.servedHost.getD .idle).status <;> rfl
  · cases (s.servedHost.getD .idle).mask <;> rfl
  · cases (s.servedTarget.getD .idle).intcfg <;> rfl
  · cases (s.servedTarget.getD .idle).intcfg <;> rfl

/-! ## The clear pulse (R244, R355) -/

/-- A data read returns the head, or 0 (R243). -/
theorem fifoHead_eq_headD (q : List Byte) : fifoHead q = q.headD 0 := by
  cases q <;> rfl

/-- Settles O57: the pulse empties the FIFO at the next edge, where the window that asked for it is in ACK and asks for
nothing. -/
theorem clearPulse : Obligations.ClearPulse := by
  intro s t u w i hclear hr hri
  refine ⟨fun hidle h hu => ?target, fun hidle h hu => ?host⟩
  case target =>
    have hbt := targetEdge_bt (a := accTCtrlWr w) hr h
    obtain ⟨-, -, hbt'⟩ := tick_sys_bt hri hu
    have hpulse : t.bt.clrT2h = true := by
      rw [hbt]
      simpa [btEdge, serves_of_idle hidle, accTCtrlWr] using hclear
    have hack : t.bt.tWin.st = .ack := by
      rw [hbt]
      exact next_ack_of_serves (x := accTCtrlWr w) (serves_of_idle hidle _) _
    refine ⟨hpulse, ?_, ?_, fun hserved => ?_⟩
    · rw [hbt']
      simp [btEdge, serves_of_ack hack, TAccess.idle]
    · rw [hbt']
      simp [btEdge, fifoNext, hpulse]
    · rw [hbt', ← fifoHead_eq_headD]
      exact next_of_serves hserved HAccess.value
  case host =>
    have hbt := hostWindowEdge_bt (a := accHCtrlWr w) hr h
    obtain ⟨-, -, hbt'⟩ := tick_sys_bt hri hu
    have hpulse : t.bt.clrH2t = true := by
      rw [hbt]
      simpa [btEdge, serves_of_idle hidle, accHCtrlWr] using hclear
    have hack : t.bt.hWin.st = .ack := by
      rw [hbt]
      exact next_ack_of_serves (x := accHCtrlWr w) (serves_of_idle hidle _) _
    refine ⟨hpulse, ?_, ?_, fun hserved => ?_⟩
    · rw [hbt']
      simp [btEdge, serves_of_ack hack, HAccess.idle]
    · rw [hbt']
      simp [btEdge, fifoNext, hpulse]
    · rw [hbt', ← fifoHead_eq_headD]
      exact next_of_serves hserved TAccess.value

end Sys2Proof.Machine
end

section
/-! PROOF. O44 to O50: what each window access does, beside the same edge without it. -/

namespace Sys2Proof.Machine

/-! ## The edge with an access and the edge without it -/

section
variable {s : State}

/-- Two running system edges that differ in their accesses answer states that differ in the BT. -/
theorem sysEdge_beside (hr : s.sysRunning) (hroom : s.rspRoom) {p q : Presented} (hcommand : p.command = q.command) :
    ∃ u, sysEdge q s = .next u ∧ u.bt = btEdge s.cfg s.sysIn q.target q.host s.bt ∧
      ∀ b, btEdge s.cfg s.sysIn p.target p.host s.bt = b → sysEdge p s = .next { u with bt := b } := by
  obtain ⟨s1, hmove⟩ := exists_bridgeMove q (s := s) (fun _ => .inr hroom)
  have hmove' : BridgeMove p s s1 := bridgeMove_of_bridgeStep (hcommand ▸ bridgeStep_of_bridgeMove hmove)
  have hedge : sysEdge p s = .next (afterBridge p s s1) := sysEdge_of_bridgeMove hr hmove'
  refine ⟨afterBridge q s s1, sysEdge_of_bridgeMove hr hmove, rfl, ?_⟩
  rintro b rfl
  exact hedge

/-- The edge with an access at the target window is the edge without it, but for the BT. -/
theorem targetEdge_beside (hr : s.sysRunning) (hroom : s.rspRoom) (a : TAccess) :
    ∃ u, withoutTarget s = .next u ∧ u.bt = btEdge s.cfg s.sysIn none (presentedHost s) s.bt ∧
      ∀ b, btEdge s.cfg s.sysIn (some a) (presentedHost s) s.bt = b → targetEdge a s = .next { u with bt := b } :=
  sysEdge_beside hr hroom (p := { presented s with target := some a }) (q := { presented s with target := none }) rfl

/-- The edge with an access at the host window is the edge without it, but for the BT. -/
theorem hostWindowEdge_beside (hr : s.sysRunning) (hroom : s.rspRoom) (a : HAccess) :
    ∃ u, withoutHost s = .next u ∧ u.bt = btEdge s.cfg s.sysIn (presentedTarget s) none s.bt ∧
      ∀ b, btEdge s.cfg s.sysIn (presentedTarget s) (some a) s.bt = b → hostWindowEdge a s = .next { u with bt := b } :=
  sysEdge_beside hr hroom (p := { presented s with host := some a }) (q := { presented s with host := none }) rfl

end

/-- An idle window that serves an access acknowledges with its value, a write with the value it held (R240). -/
theorem next_some {w : Window} (hidle : w.st = .idle) (v : Option Byte) :
    w.next (some v) = { st := .ack, datR := v.getD w.datR } := by
  cases v <;> simp [Window.next, hidle]

/-! ## Accesses that ask for nothing -/

section
variable {p : Params} {i : SysIn} {t : Option TAccess} {h : Option HAccess} {b : Bt} {v : Option Byte}

/-- An access of the target window that asks for nothing acknowledges with its value. -/
theorem btEdge_target_value (hidle : b.tWin.st = .idle) :
    btEdge p i (some { value := v }) h b =
      { btEdge p i none h b with tWin := { st := .ack, datR := v.getD b.tWin.datR } } := by
  simp [btEdge, serves_of_idle hidle, next_some hidle, TAccess.idle]

/-- An access of the host window that asks for nothing acknowledges with its value. -/
theorem btEdge_host_value (hidle : b.hWin.st = .idle) :
    btEdge p i t (some { value := v }) b =
      { btEdge p i t none b with hWin := { st := .ack, datR := v.getD b.hWin.datR } } := by
  simp [btEdge, serves_of_idle hidle, next_some hidle, HAccess.idle]

end

/-- The interrupt-configuration byte (R264). -/
theorem intcfgByte_toNat (b : Bt) : (intcfgByte b).toNat = 2 * b.tPend.toNat + b.tEn.toNat := by
  rw [intcfgByte]
  cases b.tPend <;> cases b.tEn <;> rfl

/-- Settles O44: each of the accesses asks for nothing. -/
theorem targetReadsOnlyAnswer : Obligations.TargetReadsOnlyAnswer := by
  intro s i v hr hidle hroom hi
  have hanswers : ∀ x : Option Byte, ∃ t u, targetEdge { value := x } s = .next t ∧ withoutTarget s = .next u ∧
      t = { u with bt := { u.bt with tWin := { st := .ack, datR := x.getD s.bt.tWin.datR } } } := by
    intro x
    obtain ⟨u, hu, hbt, ht⟩ := targetEdge_beside hr hroom { value := x }
    exact ⟨_, u, ht _ (by rw [hbt, btEdge_target_value hidle]), hu, rfl⟩
  obtain ⟨rfl, rfl⟩ | ⟨rfl, hv⟩ | ⟨rfl, rfl⟩ | ⟨⟨w, rfl⟩, rfl⟩ := hi
  · exact hanswers (some _)
  · obtain rfl : v = intcfgByte s.bt := BitVec.eq_of_toNat_eq (hv.trans (intcfgByte_toNat s.bt).symm)
    exact hanswers (some _)
  · exact hanswers (some _)
  · exact hanswers none

/-- Settles O45: each of the accesses asks for nothing. -/
theorem hostReadsOnlyAnswer : Obligations.HostReadsOnlyAnswer := by
  intro s i v hr hidle hroom hi
  have hanswers : ∀ x : Option Byte, ∃ t u, hostWindowEdge { value := x } s = .next t ∧ withoutHost s = .next u ∧
      t = { u with bt := { u.bt with hWin := { st := .ack, datR := x.getD s.bt.hWin.datR } } } := by
    intro x
    obtain ⟨u, hu, hbt, ht⟩ := hostWindowEdge_beside hr hroom { value := x }
    exact ⟨_, u, ht _ (by rw [hbt, btEdge_host_value hidle]), hu, rfl⟩
  obtain ⟨rfl, rfl⟩ | ⟨rfl, rfl⟩ | ⟨rfl, rfl⟩ | ⟨⟨off, rfl⟩, rfl⟩ | ⟨⟨off, w, rfl⟩, rfl⟩ := hi
  · exact hanswers (some _)
  · exact hanswers (some _)
  · exact hanswers (some _)
  · exact hanswers (some _)
  · exact hanswers none

/-! ## Control writes (R244, R246 to R249) -/

/-- Without an access the target's control byte is 0 (R246). -/
theorem idle_target_ctrl : TAccess.idle.ctrl = 0#8 := rfl

/-- Without an access the host's control byte is 0 (R246). -/
theorem idle_host_ctrl : HAccess.idle.ctrl = 0#8 := rfl

/-- A flag that nothing clears. -/
theorem setClear_set (f set draw : Bool) : setClear f set false draw = (f || set) := by
  cases set <;> simp [setClear]

/-- A flag that nothing sets. -/
theorem setClear_clear (f clear draw : Bool) : setClear f false clear draw = (f && !clear) := by
  cases clear <;> simp [setClear]

section
variable (l : StatusLayout) (race : ScRace) (w : Byte) (f : Flags)

/-- The flags after a control write of the target alone. -/
theorem nextFlags_target :
    nextFlags l race w 0#8 f =
      { t2bAttn := f.t2bAttn || w.getLsbD l.t2bAttn
        b2tAttn := f.b2tAttn && !w.getLsbD l.b2tAttn
        smsAttn := f.smsAttn && !w.getLsbD l.smsAttn
        platRsvd := f.platRsvd || w.getLsbD l.platRsvd
        targetBusy := Bool.xor f.targetBusy (w.getLsbD l.targetBusy)
        bmcBusy := f.bmcBusy } := by
  simp [nextFlags, setClear_set, setClear_clear]

/-- The flags after a control write of the host alone. -/
theorem nextFlags_host :
    nextFlags l race 0#8 w f =
      { t2bAttn := f.t2bAttn && !w.getLsbD l.t2bAttn
        b2tAttn := f.b2tAttn || w.getLsbD l.b2tAttn
        smsAttn := f.smsAttn || w.getLsbD l.smsAttn
        platRsvd := f.platRsvd && !w.getLsbD l.platRsvd
        targetBusy := f.targetBusy
        bmcBusy := Bool.xor f.bmcBusy (w.getLsbD l.bmcBusy) } := by
  simp [nextFlags, setClear_set, setClear_clear]

/-- The target's control write alone raises the host's events (R247). -/
theorem events_nextFlags_target :
    eventH0 f (nextFlags l race w 0#8 f) = (!f.t2bAttn && w.getLsbD l.t2bAttn) ∧
    eventH1 f (nextFlags l race w 0#8 f) = (f.targetBusy && w.getLsbD l.targetBusy) ∧
    eventT f (nextFlags l race w 0#8 f) = false := by
  rw [nextFlags_target, eventH0, eventH1, eventT]
  refine ⟨?_, ?_, ?_⟩
  · cases f.t2bAttn <;> rfl
  · cases f.targetBusy <;> simp
  · cases f.b2tAttn <;> cases f.smsAttn <;> rfl

/-- The host's control write alone raises the target's event (R247). -/
theorem events_nextFlags_host :
    eventH0 f (nextFlags l race 0#8 w f) = false ∧
    eventH1 f (nextFlags l race 0#8 w f) = false ∧
    eventT f (nextFlags l race 0#8 w f) =
      ((!f.b2tAttn && w.getLsbD l.b2tAttn) || (!f.smsAttn && w.getLsbD l.smsAttn)) := by
  rw [nextFlags_host, eventH0, eventH1, eventT]
  refine ⟨?_, ?_, ?_⟩
  · cases f.t2bAttn <;> rfl
  · cases f.targetBusy <;> rfl
  · cases f.b2tAttn <;> cases f.smsAttn <;> rfl

end

/-- The pending bits of the host, as a word: the write, then the gated events (R248). -/
theorem nextHostStatus_eq (status mask : BitVec 2) (w : Option Byte) (ev0 ev1 : Bool) :
    nextHostStatus status mask w ev0 ev1 =
      writeLow2 w status |||
        ((if ev1 && mask.getLsbD 1 then 0b10 else 0b00) ||| (if ev0 && mask.getLsbD 0 then 0b01 else 0b00)) := by
  rw [nextHostStatus]
  cases ev1 && mask.getLsbD 1 <;> cases ev0 && mask.getLsbD 0 <;> rfl

/-- Settles O46: without a host control write the events are the target's, at the positions of the default layout. -/
theorem targetControlWrite : Obligations.TargetControlWrite := by
  intro s w hr hidle hroom hlayout hclear hhost
  obtain ⟨u, hu, hbt, ht⟩ := targetEdge_beside hr hroom (accTCtrlWr w)
  refine ⟨_, u, ht _ ?_, hu, rfl⟩
  replace hhost : ((s.bt.hWin.serves (presentedHost s)).getD .idle).ctrl = 0#8 := hhost
  obtain ⟨hev0, hev1, hevT⟩ := events_nextFlags_target .default s.sysIn.scRace w s.bt.flags
  rw [hbt]
  simp only [btEdge, serves_of_idle hidle, Option.getD_some, Option.getD_none, hhost, hlayout, hclear, accTCtrlWr,
    idle_target_ctrl, nextFlags_zero, nextHostStatus_eq, hev0, hev1, hevT, eventH0_self, eventH1_self, eventT_self]
  rw [Bt.mk.injEq]
  refine ⟨?nextFlags, rfl, ?pendingBits, rfl, rfl, rfl, rfl, rfl, rfl, rfl, rfl, ?nextWindow, rfl⟩
  case nextFlags => exact nextFlags_target ..
  case pendingBits => simp [StatusLayout.default]
  case nextWindow => exact next_some hidle none

/-- Settles O47: without a target control write the event is the host's, at the positions of the default layout. -/
theorem hostControlWrite : Obligations.HostControlWrite := by
  intro s w hr hidle hroom hlayout hclear htarget
  obtain ⟨u, hu, hbt, ht⟩ := hostWindowEdge_beside hr hroom (accHCtrlWr w)
  refine ⟨_, u, ht _ ?_, hu, rfl⟩
  replace htarget : ((s.bt.tWin.serves (presentedTarget s)).getD .idle).ctrl = 0#8 := htarget
  obtain ⟨hev0, hev1, hevT⟩ := events_nextFlags_host .default s.sysIn.scRace w s.bt.flags
  rw [hbt]
  simp only [btEdge, serves_of_idle hidle, Option.getD_some, Option.getD_none, htarget, hlayout, hclear, accHCtrlWr,
    idle_host_ctrl, nextFlags_zero, hev0, hev1, hevT, eventH0_self, eventH1_self, eventT_self]
  rw [Bt.mk.injEq]
  refine ⟨?nextFlags, rfl, rfl, rfl, ?pendingBit, rfl, rfl, rfl, rfl, rfl, rfl, rfl, ?nextWindow⟩
  case nextFlags => exact nextFlags_host ..
  case pendingBit => simp [nextTargetPending_eq, StatusLayout.default, Bool.and_comm]
  case nextWindow => exact next_some hidle none

/-! ## FIFO accesses (R243) -/

/-- A pop takes the head of what the edge leaves. -/
theorem fifoNext_pop (depth : Nat) (clr drop : Bool) (push : Option Byte) (old : List Byte) :
    fifoNext depth clr drop push true old =
      if old = [] then fifoNext depth clr drop push false old else (fifoNext depth clr drop push false old).tail := by
  cases clr with
  | true => simp [fifoNext]
  | false =>
    cases old with
    | nil => rfl
    | cons x xs =>
      cases push with
      | none => rfl
      | some w =>
        by_cases hroom : (x :: xs).length < depth ∧ drop = false
        · simp only [fifoNext, if_pos hroom]
          rfl
        · simp only [fifoNext, if_neg hroom]
          rfl

/-- A push appends its byte to what the edge leaves, if it is taken. -/
theorem fifoNext_push_taken (depth : Nat) (clr : Bool) (w : Byte) (pop : Bool) (old : List Byte) :
    fifoNext depth clr false (some w) pop old =
      if (!clr && decide (old.length < depth)) = true then fifoNext depth clr false none pop old ++ [w]
      else fifoNext depth clr false none pop old := by
  cases clr <;> simp [fifoNext]

/-- Settles O48: without the access the edge pops nothing, with it one head. -/
theorem dataReadsPop : Obligations.DataReadsPop := by
  intro s hr hroom
  refine ⟨fun hidle => ?target, fun hidle => ?host⟩
  case target =>
    obtain ⟨u, hu, hbt, ht⟩ := targetEdge_beside hr hroom (accTDataRd s.bt)
    refine ⟨_, u, ht _ ?_, hu, rfl⟩
    simp [hbt, btEdge, serves_of_idle hidle, next_some hidle, accTDataRd, TAccess.idle, fifoNext_pop, fifoHead_eq_headD]
  case host =>
    obtain ⟨u, hu, hbt, ht⟩ := hostWindowEdge_beside hr hroom (accHDataRd s.bt)
    refine ⟨_, u, ht _ ?_, hu, rfl⟩
    simp [hbt, btEdge, serves_of_idle hidle, next_some hidle, accHDataRd, HAccess.idle, fifoNext_pop, fifoHead_eq_headD]

/-- Settles O49: an idle writer's FIFO was not pushed at the edge before, so it does not dip. -/
theorem dataWritesPush : Obligations.DataWritesPush := by
  rintro s w hr hroom ⟨hpushedT, hpushedH⟩
  refine ⟨fun hidle => ?target, fun hidle => ?host⟩
  case target =>
    rintro taken rfl
    obtain ⟨u, hu, hbt, ht⟩ := targetEdge_beside hr hroom (accTDataWr w)
    refine ⟨_, u, ht _ ?_, hu, rfl⟩
    simp [hbt, btEdge, serves_of_idle hidle, next_some hidle, accTDataWr, TAccess.idle,
      not_pushed_of_idle hpushedT hidle, fifoNext_push_taken, pushTaken]
  case host =>
    rintro taken rfl
    obtain ⟨u, hu, hbt, ht⟩ := hostWindowEdge_beside hr hroom (accHDataWr w)
    refine ⟨_, u, ht _ ?_, hu, rfl⟩
    simp [hbt, btEdge, serves_of_idle hidle, next_some hidle, accHDataWr, HAccess.idle,
      not_pushed_of_idle hpushedH hidle, fifoNext_push_taken, pushTaken]

/-! ## Interrupt registers (R248, R249) -/

/-- An interrupt-configuration write that clears leaves the event of its edge; another leaves what the edge would. -/
theorem nextTargetPending_write (pend en ev : Bool) (w : Byte) :
    nextTargetPending pend en (some w) ev = if w.getLsbD 1 then en && ev else nextTargetPending pend en none ev := by
  simp only [nextTargetPending_eq, Option.elim]
  cases w.getLsbD 1 <;> simp [Bool.and_comm]

/-- Settles O50: a write replaces the old bits, and the events of the edge are the same with and without it. -/
theorem interruptRegisterWrites : Obligations.InterruptRegisterWrites := by
  intro s w hr hroom
  refine ⟨fun hidle => ?intcfg, fun hidle => ?mask, fun hidle => ?status⟩
  case intcfg =>
    obtain ⟨u, hu, hbt, ht⟩ := targetEdge_beside hr hroom (accTIntcfgWr w)
    refine ⟨_, u, ht _ ?_, hu, rfl⟩
    simp [hbt, btEdge, serves_of_idle hidle, next_some hidle, accTIntcfgWr, TAccess.idle, nextTargetEnable,
      nextTargetPending_write, eventT]
  case mask =>
    obtain ⟨u, hu, hbt, ht⟩ := hostWindowEdge_beside hr hroom (accHMaskWr w)
    refine ⟨_, u, ht _ ?_, hu, rfl⟩
    simp [hbt, btEdge, serves_of_idle hidle, next_some hidle, accHMaskWr, HAccess.idle, writeLow2]
  case status =>
    obtain ⟨u, hu, hbt, ht⟩ := hostWindowEdge_beside hr hroom (accHStatusWr w)
    refine ⟨_, u, ht _ ?_, hu, rfl⟩
    simp [hbt, btEdge, serves_of_idle hidle, next_some hidle, accHStatusWr, HAccess.idle, writeLow2, nextHostStatus_eq,
      eventH0, eventH1]

end Sys2Proof.Machine
end

section
/-! PROOF. O56 and O60: the status byte and the interrupt outputs, and the ownership table. -/

namespace Sys2Proof.Machine

/-! ## The status byte and the interrupt outputs (R245, R250, R251) -/

/-- The status byte of the default layout, as a number. -/
theorem statusByte_default_toNat (f : Flags) :
    (statusByte .default f).toNat = 128 * f.bmcBusy.toNat + 64 * f.targetBusy.toNat + 32 * f.platRsvd.toNat +
      16 * f.smsAttn.toNat + 8 * f.b2tAttn.toNat + 4 * f.t2bAttn.toNat := by
  have hbits : ∀ a b c d e g : Bool,
      (statusByte .default
        { t2bAttn := a, b2tAttn := b, smsAttn := c, platRsvd := d, targetBusy := e, bmcBusy := g }).toNat =
        128 * g.toNat + 64 * e.toNat + 32 * d.toNat + 16 * c.toNat + 8 * b.toNat + 4 * a.toNat := by decide
  exact hbits ..

/-- `host_irq` is 1 exactly if some bit is set in the mask and in the status. -/
theorem hostIrq_iff (b : Bt) :
    hostIrq b = true ↔ ∃ k, k < 2 ∧ b.hMask.getLsbD k = true ∧ b.hStatus.getLsbD k = true := by
  rw [hostIrq, bne_iff_ne, ne_eq, BitVec.eq_of_getLsbD_eq_iff]
  simp [BitVec.getLsbD_and]

/-- Settles O56, from the byte and the two outputs. -/
theorem statusByteAndInterruptOutputs : Obligations.StatusByteAndInterruptOutputs := by
  intro b
  exact ⟨statusByte_default_toNat b.flags, hostIrq_iff b, by rw [targetIrq, Bool.and_eq_true]⟩

/-! ## Ownership (R280) -/

/-- A FIFO that is neither popped nor cleared only grows at its end (R243). -/
theorem fifoNext_grows (depth : Nat) (drop : Bool) (push : Option Byte) (old : List Byte) :
    old <+: fifoNext depth false drop push false old := by
  cases push with
  | none => exact List.prefix_rfl
  | some w =>
    by_cases hroom : old.length < depth ∧ drop = false
    · simp [fifoNext, hroom]
    · simp [fifoNext, hroom]

/-- A FIFO that nothing is pushed into only loses bytes at its head (R243). -/
theorem fifoNext_shrinks (depth : Nat) (clr drop pop : Bool) (old : List Byte) :
    fifoNext depth clr drop none pop old <:+ old := by
  cases clr with
  | true => exact List.nil_suffix
  | false =>
    cases pop with
    | true => exact List.tail_suffix old
    | false => exact List.suffix_rfl

section
variable {p : Params} {i : SysIn} {t : Option TAccess} {h : Option HAccess} {b : Bt}

/-- Where the host window serves nothing, the flags are those of the target's control write. -/
theorem btEdge_flags_target : (btEdge p i t none b).flags =
    nextFlags p.layout i.scRace ((b.tWin.serves t).getD .idle).ctrl 0#8 b.flags := by
  simp [btEdge, idle_host_ctrl]

/-- Where the target window serves nothing, the flags are those of the host's control write. -/
theorem btEdge_flags_host : (btEdge p i none h b).flags =
    nextFlags p.layout i.scRace 0#8 ((b.hWin.serves h).getD .idle).ctrl b.flags := by
  simp [btEdge, idle_target_ctrl]

/-- Whatever the target window serves alone, the flags only change as the target may change them. -/
theorem flags_target_owned :
    (b.flags.t2bAttn = true → (btEdge p i t none b).flags.t2bAttn = true) ∧
    (b.flags.platRsvd = true → (btEdge p i t none b).flags.platRsvd = true) ∧
    ((btEdge p i t none b).flags.b2tAttn = true → b.flags.b2tAttn = true) ∧
    ((btEdge p i t none b).flags.smsAttn = true → b.flags.smsAttn = true) ∧
    (btEdge p i t none b).flags.bmcBusy = b.flags.bmcBusy := by
  rw [btEdge_flags_target, nextFlags_target]
  simp +contextual

/-- Whatever the host window serves alone, the flags only change as the host may change them. -/
theorem flags_host_owned :
    (b.flags.b2tAttn = true → (btEdge p i none h b).flags.b2tAttn = true) ∧
    (b.flags.smsAttn = true → (btEdge p i none h b).flags.smsAttn = true) ∧
    ((btEdge p i none h b).flags.t2bAttn = true → b.flags.t2bAttn = true) ∧
    ((btEdge p i none h b).flags.platRsvd = true → b.flags.platRsvd = true) ∧
    (btEdge p i none h b).flags.targetBusy = b.flags.targetBusy := by
  rw [btEdge_flags_host, nextFlags_host]
  simp +contextual

end

/-- Settles O60: where the other window serves nothing, its requests are those of no access. -/
theorem ownershipKept : Obligations.OwnershipKept := by
  intro s t hr _
  refine ⟨fun we adr w hquiet h => ?target, fun we adr w hquiet h => ?host⟩
  case target =>
    rw [exec_decodeTarget] at h
    rw [targetEdge_bt hr h, btEdge_host_unserved hquiet]
    obtain ⟨ht2b, hplat, hb2t, hsms, hbmc⟩ := flags_target_owned
    refine ⟨ht2b, hplat, hb2t, hsms, hbmc, ?_, ?_, fun k hk => ?_, fun hclr => ?_, ?_⟩
    · simp [btEdge, HAccess.idle, writeLow2]
    · simp [btEdge, HAccess.idle]
    · exact nextHostStatus_getLsbD_of_write (by simpa [HAccess.idle, writeLow2] using hk) _ _
    · simpa [btEdge, HAccess.idle, hclr] using fifoNext_grows ..
    · simpa [btEdge, HAccess.idle] using fifoNext_shrinks ..
  case host =>
    rw [exec_decodeHost] at h
    rw [hostWindowEdge_bt hr h, btEdge_target_unserved hquiet]
    obtain ⟨hb2t, hsms, ht2b, hplat, htarget⟩ := flags_host_owned
    refine ⟨hb2t, hsms, ht2b, hplat, htarget, ?_, ?_, fun hp => ?_, fun hclr => ?_, ?_⟩
    · simp [btEdge, TAccess.idle, nextTargetEnable]
    · simp [btEdge, TAccess.idle]
    · simp [btEdge, TAccess.idle, nextTargetPending, hp]
    · simpa [btEdge, TAccess.idle, hclr] using fifoNext_grows ..
    · simpa [btEdge, TAccess.idle] using fifoNext_shrinks ..

end Sys2Proof.Machine
end

section
/-! PROOF. O28: a system edge leaves the host domain alone, and no step changes a parameter. -/

namespace Sys2Proof.Machine

/-- A system edge, a reset included, leaves the parameters, the PSM, the host inputs and the script alone (R340). -/
theorem sysEdge_keeps {p : Presented} {s t : State} (h : sysEdge p s = .next t) :
    t.cfg = s.cfg ∧ t.psm = s.psm ∧ t.hostIn = s.hostIn ∧ t.script = s.script := by
  obtain ⟨-, rfl⟩ | ⟨-, s1, hs, rfl⟩ := sysEdge_next h
  · exact ⟨rfl, rfl, rfl, rfl⟩
  · obtain ⟨hcfg, hpsm, -, -, -, -, hhost, -, hscript, -⟩ := bridgeStep_keeps hs
    exact ⟨hcfg, hpsm, hhost, hscript⟩

/-- A running system edge steps the fabric's window register and the firmware slave contract's (R220, log 33). -/
theorem sysEdge_contractRegisters {p : Presented} {s t : State} (hr : s.sysRunning) (h : sysEdge p s = .next t) :
    t.ackExpected = (s.io.stb && !s.ackExpected) ∧ t.fwWaited = (s.fw.stb && t.fw.stb) := by
  obtain ⟨hrst, -⟩ | ⟨-, s1, -, rfl⟩ := sysEdge_next h
  · exact absurd (hr.symm.trans hrst) Bool.false_ne_true
  · exact ⟨rfl, rfl⟩

/-- An edge of either clock keeps the parameters. -/
theorem tick_cfg {x : Tick} {s t : State} (h : tick x s = .next t) : t.cfg = s.cfg := by
  cases x with
  | host i => exact (tick_host_psm h).1
  | sys i => exact (tick_sys_psm h).1

/-- Taking the next edge from the script or the environment keeps the parameters. -/
theorem nextTick_cfg (s : State) : (nextTick s).2.cfg = s.cfg := by
  unfold nextTick
  split <;> rfl

/-- Settles O28: the system edge's frame and its two contract registers, and the parameters over an edge of either clock. -/
theorem systemEdgeLeavesHostDomain : Obligations.SystemEdgeLeavesHostDomain := by
  refine ⟨fun s t h => ?hostDomain, fun s t hr h => ?registers, fun s t h => ?parameters⟩
  case hostDomain =>
    rw [sysTick_eq] at h
    exact (sysEdge_keeps h).2
  case registers =>
    rw [sysTick_eq] at h
    exact sysEdge_contractRegisters hr h
  case parameters => exact (tick_cfg h).trans (nextTick_cfg s)

end Sys2Proof.Machine
end

section
/-! PROOF. O1 and O40: the power-on state, register by register, and its invariant. -/

namespace Sys2Proof.Machine

/-- The levels recorded at power-on are those of two inactive lines (R21, log 19). -/
theorem psmReset_levels (p : Params) :
    (Psm.reset p).fprev = !p.frameLevel ∧ (Psm.reset p).rprev = !p.frameLevel := ⟨rfl, rfl⟩

/-- With no mask, status, enable or pending bit set, both interrupt outputs are 0 (R250, R251). -/
theorem irqs_btReset : hostIrq Bt.reset = false ∧ targetIrq Bt.reset = false := ⟨rfl, rfl⟩

/-- Settles O1: every register against its reset column; only the recorded levels depend on a parameter. -/
theorem powerOnState : Obligations.PowerOnState := by
  refine ⟨rfl, ?_⟩
  rintro p _ rfl
  refine ⟨?psm, ?levels, ?queues, ?dispatcher, ?ioBus, ?fwBus, ?fabric, ?flags, ?interrupts, ?fifos, ?windows, ?outputs⟩
  case psm => exact ⟨rfl, rfl, rfl, rfl, rfl, rfl, rfl, rfl, rfl⟩
  case levels =>
    intro hlevel
    obtain ⟨hfprev, hrprev⟩ := psmReset_levels p
    rw [hlevel] at hfprev hrprev
    exact ⟨hfprev, hrprev⟩
  case queues => exact ⟨rfl, rfl⟩
  case dispatcher => exact ⟨rfl, rfl, rfl⟩
  case ioBus => exact ⟨rfl, rfl, rfl, rfl, rfl⟩
  case fwBus => exact ⟨rfl, rfl, rfl, rfl, rfl⟩
  case fabric => rfl
  case flags => exact ⟨rfl, rfl, rfl, rfl, rfl, rfl⟩
  case interrupts => exact ⟨rfl, rfl, rfl, rfl⟩
  case fifos => exact ⟨rfl, rfl, rfl, rfl⟩
  case windows => exact ⟨rfl, rfl, rfl, rfl⟩
  case outputs => exact irqs_btReset

/-- At power-on nothing is in flight (R213, R341). -/
theorem powerOn_nothingInFlight (p : Params) : (State.powerOn p).NothingInFlight := ⟨rfl, rfl, nofun⟩

/-- Settles O40: the machine is empty and drives nothing, so each part of the invariant holds of the reset values. -/
theorem powerOnInv : Obligations.PowerOnInv := by
  intro p
  constructor
  case occupancy => exact (occupancy_of_nothingInFlight (powerOn_nothingInFlight p)).trans_le (Nat.zero_le _)
  case bus => exact ⟨rfl, rfl, rfl, nofun⟩
  case crossing => exact ⟨nofun, nofun⟩
  case coherent => exact trivial
  case drives => exact nofun
  case fifo => exact ⟨Nat.zero_le _, Nat.zero_le _⟩
  case pushed => exact ⟨nofun, nofun⟩
  case memory => exact ⟨rfl, rfl⟩
  case slave => exact ⟨nofun, fun _ => nofun⟩

end Sys2Proof.Machine
end
